-- ==== Sys2Proof/Word.lean ====
section
/-!
DEFINITION. The word types of the ENN codec core: a byte of a frame, the 64-bit command word (R71) and the
40-bit response word (R72). Only names; every function on bits stands in Decode.lean or under Machine/.
-/

namespace Sys2Proof

/-- One byte of the frame buffer, of the staging buffer or of a block's data; bit 7 is the most significant (R13). -/
abbrev Byte := BitVec 8

/-- The command word the host presents: `op[63:56] m[55] zero[54:52] a[51:32] v[31:0]` (R71). -/
abbrev CommandWord := BitVec 64

/-- The response word of one command: `DE[39] zero[38:36] cause[35:32] value[31:0]` (R72). -/
abbrev ResponseWord := BitVec 40

end Sys2Proof
end

