-- ==== Sys2Proof/Syntax.lean ====
section
/-!
DEFINITION. The commands of the core, one constructor per row of spec/opcode_table.json (R74), with the operands
the command uses: the size class `m`, the 20-bit address operand `a`, the 32-bit value operand `v` (R71, R76).
-/

namespace Sys2Proof

/-- The size class, the one-bit operand `m` (R9): `full` is `m = 0`, `micro` is `m = 1`. -/
inductive SizeClass where
  | full
  | micro
  deriving DecidableEq, Repr

/-- The 44 commands of the opcode map R74, in the table's order. An operand field the command does not use is
not an argument; its bits must be zero in the word (R73). -/
inductive Instr where
  | nop
  | reset
  | statusGet
  | statusClr
  | sysGet (sel : BitVec 20)
  | hdrPack (m : SizeClass)
  | hdrUnpack (m : SizeClass)
  | cksumCompute (m : SizeClass)
  | cksumStamp (m : SizeClass)
  | cksumVerify (m : SizeClass)
  | blkAppend (type : BitVec 32)
  | blkClear
  | blkSerialize (m : SizeClass)
  | blkDeserialize (m : SizeClass)
  | getPriority (m : SizeClass)
  | setPriority (m : SizeClass) (v : BitVec 32)
  | getHopLimit (m : SizeClass)
  | addHopLimit (m : SizeClass)
  | getHeartRate (m : SizeClass)
  | setHeartRate (m : SizeClass) (v : BitVec 32)
  | getSrc (m : SizeClass)
  | setSrc (m : SizeClass) (v : BitVec 32)
  | getDst (m : SizeClass)
  | setDst (m : SizeClass) (v : BitVec 32)
  | getLen (m : SizeClass)
  | setLen (m : SizeClass) (v : BitVec 32)
  | getChecksum (m : SizeClass)
  | setChecksum (m : SizeClass) (v : BitVec 32)
  | isMicro
  | getBlockNext (m : SizeClass) (off : BitVec 20)
  | getBlockLen (m : SizeClass) (off : BitVec 20)
  | getBlockData (m : SizeClass) (off : BitVec 20)
  | dump
  | load
  | hrGet (sel : BitVec 20)
  | hrSet (sel : BitVec 20) (v : BitVec 32)
  | fbRead (addr : BitVec 20)
  | fbWrite (addr : BitVec 20) (v : BitVec 32)
  | fbSetlen (n : BitVec 20)
  | dbClear
  | dbPush (v : BitVec 32)
  | blkType (idx : BitVec 20)
  | blkLen (idx : BitVec 20)
  | blkByte (idx : BitVec 20) (i : BitVec 32)
  deriving DecidableEq, Repr

end Sys2Proof
end

