-- ==== Sys2Proof/WellFormed.lean ====
section
/-!
DEFINITION. Which terms of `Instr` are commands: those whose selector operand is inside the selector table of R79.
Every other operand value of a command is legal to the decoder (R73); the command itself checks it.
-/

namespace Sys2Proof

/-- R73 item 6 with R79: `SYS_GET` has the selectors 0 to 2, `HR_GET` and `HR_SET` the selectors 0 to 8. -/
def Instr.wellFormed : Instr → Bool
  | .sysGet sel => decide (sel.toNat < 3)
  | .hrGet sel => decide (sel.toNat < 9)
  | .hrSet sel _ => decide (sel.toNat < 9)
  | .nop => true
  | .reset => true
  | .statusGet => true
  | .statusClr => true
  | .hdrPack _ => true
  | .hdrUnpack _ => true
  | .cksumCompute _ => true
  | .cksumStamp _ => true
  | .cksumVerify _ => true
  | .blkAppend _ => true
  | .blkClear => true
  | .blkSerialize _ => true
  | .blkDeserialize _ => true
  | .getPriority _ => true
  | .setPriority _ _ => true
  | .getHopLimit _ => true
  | .addHopLimit _ => true
  | .getHeartRate _ => true
  | .setHeartRate _ _ => true
  | .getSrc _ => true
  | .setSrc _ _ => true
  | .getDst _ => true
  | .setDst _ _ => true
  | .getLen _ => true
  | .setLen _ _ => true
  | .getChecksum _ => true
  | .setChecksum _ _ => true
  | .isMicro => true
  | .getBlockNext _ _ => true
  | .getBlockLen _ _ => true
  | .getBlockData _ _ => true
  | .dump => true
  | .load => true
  | .fbRead _ => true
  | .fbWrite _ _ => true
  | .fbSetlen _ => true
  | .dbClear => true
  | .dbPush _ => true
  | .blkType _ => true
  | .blkLen _ => true
  | .blkByte _ _ => true

end Sys2Proof
end

