-- ==== Sys2Proof/Decode.lean ====
section
/-!
DEFINITION. Decoding and encoding of command words (R71, R73 to R76, R79, R83). The decoder is total on all 2^64
words; a word it rejects is an illegal command (R80) and the rejection says which item of R73 holds. The encoder
is written from the same table.
-/

namespace Sys2Proof

/-- Why a word is no command: the six items of R73. All of them are the one cause IllegalCommand (R80). -/
inductive DecodeReject where
  /-- item 1: `w[63:56]` is none of the 44 opcodes -/
  | unassignedOpcode
  /-- item 2: `w[54:52]` is not zero -/
  | zeroFieldNotZero
  /-- item 3: `m = 1` in a command that takes no class -/
  | unusedClassNotZero
  /-- item 4: `a` is not zero in a command that takes no `a` -/
  | unusedAddressNotZero
  /-- item 5: `v` is not zero in a command that takes no `v` -/
  | unusedValueNotZero
  /-- item 6: `a` is outside the selector table R79 -/
  | selectorOutOfTable
  deriving DecidableEq, Repr

/-- `w[63:56]`, the opcode (R71). -/
def commandOp (w : CommandWord) : BitVec 8 := w.extractLsb' 56 8

/-- `w[55]`, the class bit `m` (R71, R76). -/
def commandM (w : CommandWord) : BitVec 1 := w.extractLsb' 55 1

/-- `w[54:52]`, the field that must be zero (R71). -/
def commandZero (w : CommandWord) : BitVec 3 := w.extractLsb' 52 3

/-- `w[51:32]`, the address operand `a` (R71, R76). -/
def commandA (w : CommandWord) : BitVec 20 := w.extractLsb' 32 20

/-- `w[31:0]`, the value operand `v` (R71, R76). -/
def commandV (w : CommandWord) : BitVec 32 := w.extractLsb' 0 32

/-- The class a class bit selects (R9): 0 full, 1 micro. -/
def classOfBit (b : BitVec 1) : SizeClass := if b = 1#1 then .micro else .full

/-- The class bit of a class (R9). -/
def classBit : SizeClass → BitVec 1
  | .full => 0#1
  | .micro => 1#1

/-- One row of the opcode map R74: the opcode, which of `m`, `a`, `v` the command uses, and the command the
operands make. `build` ignores an operand the row does not use. -/
structure OpcodeRow where
  op : BitVec 8
  usesM : Bool
  usesA : Bool
  usesV : Bool
  build : SizeClass → BitVec 20 → BitVec 32 → Instr

/-- A row whose command uses no operand. -/
def rowPlain (op : BitVec 8) (i : Instr) : OpcodeRow := ⟨op, false, false, false, fun _ _ _ => i⟩

/-- A row whose command uses `m`. -/
def rowM (op : BitVec 8) (f : SizeClass → Instr) : OpcodeRow := ⟨op, true, false, false, fun m _ _ => f m⟩

/-- A row whose command uses `a`. -/
def rowA (op : BitVec 8) (f : BitVec 20 → Instr) : OpcodeRow := ⟨op, false, true, false, fun _ a _ => f a⟩

/-- A row whose command uses `v`. -/
def rowV (op : BitVec 8) (f : BitVec 32 → Instr) : OpcodeRow := ⟨op, false, false, true, fun _ _ v => f v⟩

/-- A row whose command uses `m` and `v`. -/
def rowMV (op : BitVec 8) (f : SizeClass → BitVec 32 → Instr) : OpcodeRow :=
  ⟨op, true, false, true, fun m _ v => f m v⟩

/-- A row whose command uses `m` and `a`. -/
def rowMA (op : BitVec 8) (f : SizeClass → BitVec 20 → Instr) : OpcodeRow :=
  ⟨op, true, true, false, fun m a _ => f m a⟩

/-- A row whose command uses `a` and `v`. -/
def rowAV (op : BitVec 8) (f : BitVec 20 → BitVec 32 → Instr) : OpcodeRow :=
  ⟨op, false, true, true, fun _ a v => f a v⟩

/-- The opcode map R74, groups 0x0 to 0x3. -/
def opcodeMapLow : List OpcodeRow :=
  [rowPlain 0x00 .nop, rowPlain 0x01 .reset, rowPlain 0x02 .statusGet, rowPlain 0x03 .statusClr,
   rowA 0x04 .sysGet,
   rowM 0x10 .hdrPack, rowM 0x11 .hdrUnpack,
   rowM 0x20 .cksumCompute, rowM 0x21 .cksumStamp, rowM 0x22 .cksumVerify,
   rowV 0x30 .blkAppend, rowPlain 0x31 .blkClear, rowM 0x32 .blkSerialize, rowM 0x33 .blkDeserialize]

/-- The opcode map R74, groups 0x4 and 0x5. -/
def opcodeMapAccessors : List OpcodeRow :=
  [rowM 0x40 .getPriority, rowMV 0x41 .setPriority, rowM 0x42 .getHopLimit, rowM 0x43 .addHopLimit,
   rowM 0x44 .getHeartRate, rowMV 0x45 .setHeartRate, rowM 0x46 .getSrc, rowMV 0x47 .setSrc,
   rowM 0x48 .getDst, rowMV 0x49 .setDst, rowM 0x4A .getLen, rowMV 0x4B .setLen,
   rowM 0x4C .getChecksum, rowMV 0x4D .setChecksum, rowPlain 0x4E .isMicro,
   rowMA 0x50 .getBlockNext, rowMA 0x51 .getBlockLen, rowMA 0x52 .getBlockData]

/-- The opcode map R74, groups 0x6 and 0x7. -/
def opcodeMapHigh : List OpcodeRow :=
  [rowPlain 0x60 .dump, rowPlain 0x61 .load,
   rowA 0x70 .hrGet, rowAV 0x71 .hrSet, rowA 0x72 .fbRead, rowAV 0x73 .fbWrite, rowA 0x74 .fbSetlen,
   rowPlain 0x75 .dbClear, rowV 0x76 .dbPush, rowA 0x77 .blkType, rowA 0x78 .blkLen, rowAV 0x79 .blkByte]

/-- The whole opcode map R74: 44 rows. -/
def opcodeMap : List OpcodeRow := opcodeMapLow ++ opcodeMapAccessors ++ opcodeMapHigh

/-- The checks of R73 items 2 to 6 on a word whose opcode has the row `r`, then the command. -/
def decodeRow (r : OpcodeRow) (w : CommandWord) : Except DecodeReject Instr :=
  if commandZero w ≠ 0 then .error .zeroFieldNotZero
  else if r.usesM = false ∧ commandM w ≠ 0 then .error .unusedClassNotZero
  else if r.usesA = false ∧ commandA w ≠ 0 then .error .unusedAddressNotZero
  else if r.usesV = false ∧ commandV w ≠ 0 then .error .unusedValueNotZero
  else
    let i := r.build (classOfBit (commandM w)) (commandA w) (commandV w)
    if i.wellFormed then .ok i else .error .selectorOutOfTable

/-- R73: the command a word stands for, or the item of R73 that makes it illegal. Where several items hold the
first of them names the rejection, which no response shows (R80). -/
def decode (w : CommandWord) : Except DecodeReject Instr :=
  match opcodeMap.find? (fun r => r.op == commandOp w) with
  | none => .error .unassignedOpcode
  | some r => decodeRow r w

/-- R71 and R83: the word of an opcode and its operands, the `zero` field zero. -/
def commandWord (op : BitVec 8) (m : BitVec 1) (a : BitVec 20) (v : BitVec 32) : CommandWord :=
  op ++ m ++ 0#3 ++ a ++ v

/-- R74, R83: the word of a command; an operand the command does not use is encoded as zero. -/
def encode : Instr → CommandWord
  | .nop => commandWord 0x00 0 0 0
  | .reset => commandWord 0x01 0 0 0
  | .statusGet => commandWord 0x02 0 0 0
  | .statusClr => commandWord 0x03 0 0 0
  | .sysGet sel => commandWord 0x04 0 sel 0
  | .hdrPack m => commandWord 0x10 (classBit m) 0 0
  | .hdrUnpack m => commandWord 0x11 (classBit m) 0 0
  | .cksumCompute m => commandWord 0x20 (classBit m) 0 0
  | .cksumStamp m => commandWord 0x21 (classBit m) 0 0
  | .cksumVerify m => commandWord 0x22 (classBit m) 0 0
  | .blkAppend type => commandWord 0x30 0 0 type
  | .blkClear => commandWord 0x31 0 0 0
  | .blkSerialize m => commandWord 0x32 (classBit m) 0 0
  | .blkDeserialize m => commandWord 0x33 (classBit m) 0 0
  | .getPriority m => commandWord 0x40 (classBit m) 0 0
  | .setPriority m v => commandWord 0x41 (classBit m) 0 v
  | .getHopLimit m => commandWord 0x42 (classBit m) 0 0
  | .addHopLimit m => commandWord 0x43 (classBit m) 0 0
  | .getHeartRate m => commandWord 0x44 (classBit m) 0 0
  | .setHeartRate m v => commandWord 0x45 (classBit m) 0 v
  | .getSrc m => commandWord 0x46 (classBit m) 0 0
  | .setSrc m v => commandWord 0x47 (classBit m) 0 v
  | .getDst m => commandWord 0x48 (classBit m) 0 0
  | .setDst m v => commandWord 0x49 (classBit m) 0 v
  | .getLen m => commandWord 0x4A (classBit m) 0 0
  | .setLen m v => commandWord 0x4B (classBit m) 0 v
  | .getChecksum m => commandWord 0x4C (classBit m) 0 0
  | .setChecksum m v => commandWord 0x4D (classBit m) 0 v
  | .isMicro => commandWord 0x4E 0 0 0
  | .getBlockNext m off => commandWord 0x50 (classBit m) off 0
  | .getBlockLen m off => commandWord 0x51 (classBit m) off 0
  | .getBlockData m off => commandWord 0x52 (classBit m) off 0
  | .dump => commandWord 0x60 0 0 0
  | .load => commandWord 0x61 0 0 0
  | .hrGet sel => commandWord 0x70 0 sel 0
  | .hrSet sel v => commandWord 0x71 0 sel v
  | .fbRead addr => commandWord 0x72 0 addr 0
  | .fbWrite addr v => commandWord 0x73 0 addr v
  | .fbSetlen n => commandWord 0x74 0 n 0
  | .dbClear => commandWord 0x75 0 0 0
  | .dbPush v => commandWord 0x76 0 0 v
  | .blkType idx => commandWord 0x77 0 idx 0
  | .blkLen idx => commandWord 0x78 0 idx 0
  | .blkByte idx i => commandWord 0x79 0 idx i

/-- The command word whose bits 0 to `nbits - 1` are those of `w`, every higher bit zero. -/
def tableWord (nbits w : Nat) : CommandWord := BitVec.ofNat 64 (w % 2 ^ nbits)

/-- What the decoder reads from a row of spec/opcode_table.json with the bits `w`: the table numbers the one 64-bit
word as R71 does, and a command is presented whole, not stored in bytes (R36, R81). -/
def decodeTableWord (nbits w : Nat) : Option Instr :=
  match decode (tableWord nbits w) with
  | .ok i => some i
  | .error _ => none

end Sys2Proof
end

