-- ==== Sys2Proof/Config.lean ====
section
/-!
DEFINITION. The parameters an implementation of the core fixes, which the model takes as an argument: the capacities of
R11, the checksum function of R12 and the two `cfg_hdr` codes of R10, each with the default the spec gives it (assumption
log 4). A `Config` is plain data and stands in State, so every command reads the
parameters from the state it is given and no command writes them.
-/

namespace Sys2Proof

/-- Which function `CKSUM` is (R12), as plain data. -/
inductive ChecksumFunction where
  /-- the default, the CRC of R112 -/
  | crc16
  /-- an implementation's own function, the one numbered `k` (`Config.otherCksum`); a legal one has the properties of R110
  (`Config.Legal`) and nothing else is known of it -/
  | other (k : Nat)
  deriving DecidableEq, Repr

/-- The parameters of one implementation. -/
structure Config where
  /-- `FB_SIZE`: capacity of the frame buffer in bytes (R11) -/
  fbSize : Nat
  /-- `DB_MAX`: capacity of the data staging buffer in bytes (R11) -/
  dbMax : Nat
  /-- `NBLK_MAX`: largest number of blocks in the chain (R11) -/
  nblkMax : Nat
  /-- `BC_DATA_MAX`: largest total of the data bytes of all blocks in the chain (R11) -/
  bcDataMax : Nat
  /-- `CKSUM`: the checksum function (R12) -/
  checksum : ChecksumFunction
  /-- `CFG_FULL`: the `cfg_hdr` code of the full class (R10) -/
  cfgFull : BitVec 2
  /-- `CFG_MICRO`: the `cfg_hdr` code of the micro class (R10) -/
  cfgMicro : BitVec 2
  deriving DecidableEq, Repr

namespace Config

/-- The defaults of R11 (16 + 65535, 65535, floor(65535 / 6), 65535), of R12 and of R10. -/
def defaults : Config :=
  { fbSize := 65551, dbMax := 65535, nblkMax := 10922, bcDataMax := 65535, checksum := .crc16,
    cfgFull := 0b00#2, cfgMicro := 0b01#2 }

/-- The checksum functions an implementation may take in place of the default (R12): FREE, no body, so that nothing
can be proved of the value of any of them (assumption log 4). -/
opaque otherCksum : Nat → List Byte → BitVec 16

/-- `f` depends on the order of the bytes (R110, as assumption log 4 reads it): some byte sequence has a rearrangement with
another value. -/
def OrderSensitive (f : List Byte → BitVec 16) : Prop := ∃ a b : List Byte, a.Perm b ∧ f a ≠ f b

/-- Flipping any single bit of a byte sequence changes `f` (R110, its last property, as assumption log 4 reads it). -/
def DetectsBitFlips (f : List Byte → BitVec 16) : Prop :=
  ∀ (bytes : List Byte) (i k : Nat), i < bytes.length → k < 8 →
    f (bytes.set i (bytes.getD i 0 ^^^ (1#8 <<< k))) ≠ f bytes

/-- What R110 asks of the function `CKSUM`. That it is 16 bits wide and deterministic is its type; that it is computed
over the wire bytes without the checksum field, in both directions alike, is `State.computedChecksum`. -/
structure ChecksumProperties (f : List Byte → BitVec 16) : Prop where
  orderSensitive : OrderSensitive f
  detectsBitFlips : DetectsBitFlips f

/-- The constraints on the parameters: R11 on the capacities, of which `BC_DATA_MAX` has none, R110 on a checksum
function taken in place of the default, and R10 on the two codes. That the default has the properties of R110 is no constraint but a fact of it. -/
structure Legal (c : Config) : Prop where
  /-- `FB_SIZE` is at least 16 -/
  fbSize_ge : 16 ≤ c.fbSize
  /-- `DB_MAX` is at most 65535: a block's `len` is 16 bits -/
  dbMax_le : c.dbMax ≤ 65535
  /-- `NBLK_MAX` is at least 1 -/
  nblkMax_ge : 1 ≤ c.nblkMax
  /-- a replacement for the default `CKSUM` has the properties of R110 -/
  checksum_properties : ∀ k, c.checksum = .other k → ChecksumProperties (otherCksum k)
  /-- the two `cfg_hdr` codes are distinct -/
  codes_distinct : c.cfgFull ≠ c.cfgMicro

/-- The 32-bit value of a response that carries a count of 2^32 blocks or more: FREE, no body. R11 puts no upper bound on
`NBLK_MAX`, and the spec states no value there (assumption log 12). -/
opaque wideCount : Nat → BitVec 32

end Config

end Sys2Proof
end

