-- ==== Sys2Proof/Machine/State.lean ====
section
/-!
DEFINITION. The state of the core (R6, R20 to R37) as plain data, the error causes (R230), the reasons a step could
stop (none: every command word yields a response, 93_implementation_defined.md), and the reset state (R37).
-/

namespace Sys2Proof.Machine

/-- The header register file `HR` (R20): nine unsigned fields at their full-class widths. -/
structure Header where
  /-- selector 0 -/
  hopLimit : BitVec 8
  /-- selector 1 -/
  earmark : BitVec 3
  /-- selector 2 -/
  cfgHdr : BitVec 2
  /-- selector 3 -/
  priority : BitVec 3
  /-- selector 4 -/
  heartRate : BitVec 16
  /-- selector 5 -/
  srcId : BitVec 32
  /-- selector 6 -/
  dstId : BitVec 32
  /-- selector 7 -/
  len : BitVec 16
  /-- selector 8 -/
  checkSum : BitVec 16
  deriving DecidableEq, Repr

/-- One block of the chain (R24). Its `len` is not stored a second time: the data is "a sequence of exactly
`b_i.len` bytes", so `len` is `data.length` (assumption log 7). Its `next` is its place in the list. -/
structure Block where
  /-- the 16-bit tag `b_i.type` -/
  type : BitVec 16
  /-- the data bytes, first to last -/
  data : List Byte
  deriving DecidableEq, Repr

/-- The status register `STATUS` (R30), field by field; bits 31:7 are reserved and read as zero. -/
structure Status where
  /-- bits 3:0, `LAST`: the cause code of the most recent command -/
  last : BitVec 4
  /-- bit 4, `LASTDE`: the DecodeError wrapper bit of the most recent response -/
  lastDE : Bool
  /-- bit 5, `ERRS`: sticky error -/
  errs : Bool
  /-- bit 6, `CKV`: checksum valid (R31) -/
  ckv : Bool
  deriving DecidableEq, Repr

/-- The frame buffer's bytes: (address, byte) pairs, in the canonical form `Memory.wf`. -/
abbrev Memory := List Host.Cell

/-- What an address that is not listed reads as. DESIGN CHOICE, unsafe (assumption log 5): the spec gives the bytes at
and above `FLEN` no value, and no command reads one (R29). -/
def Memory.unlisted : Byte := 0#8

/-- The canonical form of a memory: addresses strictly rising, and no listed byte equal to an unlisted one. -/
abbrev Memory.wf (mem : Memory) : Prop :=
  mem.Pairwise (fun c d => c.1 < d.1) ∧ ∀ c ∈ mem, c.2 ≠ Memory.unlisted

/-- The error causes a command can end with (R230, codes 1 to 7; code 0, OK, is no error). -/
inductive Cause where
  /-- code 1: insufficient bytes or invalid `cfg_hdr` discriminator -/
  | malformedHeader
  /-- code 2: a sub-header or the declared `len` claims more bytes than are there -/
  | truncatedBlock
  /-- code 3: the recomputed checksum disagrees with the embedded one -/
  | checksumMismatch
  /-- code 4: reserved for a variant with the reject policy; the core never raises it (R152) -/
  | invalidPriority
  /-- code 5: the payload region is not the canonical serialization of a chain -/
  | malformedPayload
  /-- code 6: a value, address, index or capacity out of range -/
  | rangeError
  /-- code 7: the command word does not decode -/
  | illegalCommand
  deriving DecidableEq, Repr

/-- The whole state of the core (R6), and the three fields the model itself adds: the parameters of the implementation,
the command words the host has presented and the core has not yet executed, and the response words the core has given. -/
structure State where
  /-- `HR`, the header register file (R20) -/
  hr : Header
  /-- `BC`, the block chain in chain order (R24); `NBLK` is its length (R33) -/
  bc : List Block
  /-- `DB`, the data staging buffer (R27); `DLEN` is its length (R33) -/
  db : List Byte
  /-- `FB`, the frame buffer (R28) -/
  fb : Memory
  /-- `FLEN`, the number of valid bytes of `FB` (R28) -/
  flen : Nat
  /-- `STATUS` (R30) -/
  status : Status
  /-- MODEL'S OWN (assumption log 4): the parameters of this implementation (R10 to R12). No command writes them. -/
  config : Config
  /-- MODEL'S OWN (assumption log 1): the command words presented and not yet executed, oldest first (R5, R36, R70) -/
  commands : List CommandWord
  /-- MODEL'S OWN (assumption log 2): the response words given so far, oldest first (R6, R70) -/
  responses : List ResponseWord
  deriving DecidableEq, Repr

/-- The reasons a step can stop with a fault: NONE. "The core has no behaviour that is `stuck` or a `fault` in the
processor sense: every command word yields a response" (93_implementation_defined.md part 1). An error of a
command is a response and a next state (R235). -/
inductive Fault where
  deriving DecidableEq, Repr

/-- The reasons a step can be refused. -/
inductive Refusal where
  /-- Raised by an arm of `exec` for a command that has no meaning yet, with the mnemonic of its row in
  spec/opcode_table.json. Safe. No arm of this model raises it: all 44 commands have their meaning. -/
  | notModelled (mnemonic : String)
  deriving DecidableEq, Repr

/-- `HR` with all nine fields zero (R37). -/
def Header.reset : Header :=
  { hopLimit := 0, earmark := 0, cfgHdr := 0, priority := 0, heartRate := 0, srcId := 0, dstId := 0, len := 0,
    checkSum := 0 }

/-- `STATUS` with every field zero (R37). -/
def Status.reset : Status := { last := 0, lastDE := false, errs := false, ckv := false }

/-- The reset state (R37, R260) of an implementation with the parameters `c`: every field of the spec at the value R37
gives it; `FB` lists nothing and `FLEN = 0`, so no byte of it is readable (R29, R261). The host has presented nothing
and received nothing. `HR.cfg_hdr` is 0 under every choice of the `cfg_hdr` codes: DEDUCED, log 13. -/
def State.resetWith (c : Config) : State :=
  { hr := Header.reset, bc := [], db := [], fb := [], flen := 0, status := Status.reset, config := c, commands := [],
    responses := [] }

/-- The reset state of the core with the parameters at their defaults (R10 to R12). -/
def State.reset : State := State.resetWith Config.defaults

end Sys2Proof.Machine
end

