-- ==== Sys2Proof/Machine/Flags.lean ====
section
/-!
DEFINITION. The status register: the cause codes (R230), the word `STATUS_GET` returns (R30, R202), the update of
`LAST`, `LASTDE`, `ERRS` at the end of a command (R32), and the two ways `CKV` changes (R31).
-/

namespace Sys2Proof.Machine

/-- The 4-bit code of a cause (R230). Code 0 is OK; codes 8 to 15 are never produced. -/
def Cause.code : Cause → BitVec 4
  | .malformedHeader => 1
  | .truncatedBlock => 2
  | .checksumMismatch => 3
  | .invalidPriority => 4
  | .malformedPayload => 5
  | .rangeError => 6
  | .illegalCommand => 7

/-- One flag as one bit. -/
def flagBit (b : Bool) : BitVec 1 := BitVec.ofBool b

/-- `STATUS` as the host reads it: `CKV[6] ERRS[5] LASTDE[4] LAST[3:0]`, bits 31:7 zero (R30, R202). -/
def Status.word (st : Status) : BitVec 32 :=
  0#25 ++ flagBit st.ckv ++ flagBit st.errs ++ flagBit st.lastDE ++ st.last

/-- R32: `LAST <- cause`, `LASTDE <- DE`, and `ERRS <- 1` when the cause is not OK. -/
def Status.record (st : Status) (de : Bool) (code : BitVec 4) : Status :=
  { st with last := code, lastDE := de, errs := st.errs || code != 0 }

/-- R203: `ERRS <- 0`. -/
def Status.clearErrs (st : Status) : Status := { st with errs := false }

/-- R31: `CKV <- b`. -/
def State.setCkv (s : State) (b : Bool) : State := { s with status := { s.status with ckv := b } }

/-- R32 on the state. -/
def State.record (s : State) (de : Bool) (code : BitVec 4) : State :=
  { s with status := s.status.record de code }

end Sys2Proof.Machine
end

