-- ==== Sys2Proof/Machine/Ops.lean ====
section
/-!
DEFINITION. The shared operations: one byte and a run of bytes of the frame buffer, big-endian access of several
bytes (R14, R40), the valid length `FLEN` (R28, R29), the response word (R72), and how a command ends, with success
(R14 `return`, R32) or by raising a cause (R235, R236: the core's taking of an exception).
-/

namespace Sys2Proof.Machine

/-- The byte at one address. -/
def Memory.read : Memory → Nat → Byte
  | [], _ => Memory.unlisted
  | (k, b) :: rest, a => if k = a then b else Memory.read rest a

/-- The memory without an entry for `a`. -/
def Memory.erase (mem : Memory) (a : Nat) : Memory := mem.filter (fun c => c.1 != a)

/-- The memory with an entry put before the first higher address. -/
def Memory.insert (a : Nat) (b : Byte) : Memory → Memory
  | [] => [(a, b)]
  | (k, c) :: rest => if a < k then (a, b) :: (k, c) :: rest else (k, c) :: Memory.insert a b rest

/-- `FB[a] <- b`. Writing the byte an unlisted address reads as removes the entry. -/
def Memory.write (mem : Memory) (a : Nat) (b : Byte) : Memory :=
  if b = Memory.unlisted then mem.erase a else (mem.erase a).insert a b

/-- `FB[a], FB[a+1], ... <- bytes`. -/
def Memory.writeBytes (mem : Memory) (a : Nat) : List Byte → Memory
  | [] => mem
  | b :: rest => Memory.writeBytes (mem.write a b) (a + 1) rest

/-- The memory without the entries at `n` and above. -/
def Memory.truncate (mem : Memory) (n : Nat) : Memory := mem.filter (fun c => decide (c.1 < n))

/-- The unsigned integer of a byte sequence, the first byte the most significant (R40). -/
def beNat (bytes : List Byte) : Nat := bytes.foldl (fun acc b => acc * 256 + b.toNat) 0

/-- The `n` bytes of `v`, the first the most significant (R40): byte `k` is `(v >> (8*(n-1-k))) & 0xFF`. -/
def beBytes (n v : Nat) : List Byte := (List.range n).map fun k => BitVec.ofNat 8 (v >>> (8 * (n - 1 - k)))

/-- The `n` items of a byte sequence from position `lo`. -/
def slice (bytes : List Byte) (lo n : Nat) : List Byte := (bytes.drop lo).take n

/-- `FB[lo .. lo+n-1]` (R14). -/
def State.fbBytes (s : State) (lo n : Nat) : List Byte := (List.range n).map fun k => s.fb.read (lo + k)

/-- The serialized frame `FB[0 .. FLEN-1]` (R28). -/
def State.frame (s : State) : List Byte := s.fbBytes 0 s.flen

/-- `MemRead(addr, n)` (R14, R40). -/
def State.memRead (s : State) (addr n : Nat) : Nat := beNat (s.fbBytes addr n)

/-- `FB[addr], FB[addr+1], ... <- bytes`. -/
def State.fbStore (s : State) (addr : Nat) (bytes : List Byte) : State :=
  { s with fb := s.fb.writeBytes addr bytes }

/-- `MemWrite(addr, n, v)` (R14, R40); the caller has checked `v < 2^(8n)`. -/
def State.memWrite (s : State) (addr n v : Nat) : State := s.fbStore addr (beBytes n v)

/-- `FLEN <- n`, at least the present `FLEN`; the caller has given every byte below `n` a value (R29). -/
def State.growFlen (s : State) (n : Nat) : State := { s with flen := n }

/-- `FLEN <- n` where bytes at and above `n` may have been valid: they stop being valid (R209, R133) and are
dropped, so that states no command can tell apart are equal data. -/
def State.cutFlen (s : State) (n : Nat) : State := { s with fb := s.fb.truncate n, flen := n }

/-- The zero-fill of R91 line 3 and R133 line 3: `FB[i] <- 0x00` for `i` from `FLEN` to `n - 1`. -/
def State.zeroFill (s : State) (n : Nat) : State := s.fbStore s.flen (List.replicate (n - s.flen) 0#8)

/-- The response word (R72): `DE[39] zero[38:36] cause[35:32] value[31:0]`. -/
def responseWord (de : Bool) (code : BitVec 4) (value : BitVec 32) : ResponseWord :=
  flagBit de ++ 0#3 ++ code ++ value

/-- A count of blocks as the value of a response (R131, R204): the count itself where 32 bits hold it (R72), else a free
value (assumption log 12). -/
def countValue (n : Nat) : BitVec 32 := if n < 2 ^ 32 then BitVec.ofNat 32 n else Config.wideCount n

/-- The one response word of a command goes out (R70). -/
def State.respond (s : State) (de : Bool) (code : BitVec 4) (value : BitVec 32) : State :=
  { s with responses := s.responses ++ [responseWord de code value] }

/-- `return v` (R14): the command ends with cause OK and value `v`; R32 updates `STATUS`. -/
def State.succeed (s : State) (value : BitVec 32) : State := (s.record false 0).respond false 0 value

/-- `CKV <- 0` when the cause is ChecksumMismatch, the one effect on `CKV` an error has (R31, R236). -/
def State.refute (s : State) (e : Cause) : State := if e = .checksumMismatch then s.setCkv false else s

/-- `raise E`, the core's taking of an exception (R235, R236): `LAST <- E`, `LASTDE <- DE`, `ERRS <- 1`, the response
carries the cause and value 0; nothing else changes but `CKV` on a ChecksumMismatch. No state is saved and no
control goes anywhere; there is no return from it (R237): the next command runs as any other. -/
def State.raise (s : State) (de : Bool) (e : Cause) : State :=
  ((s.refute e).record de e.code).respond de e.code 0

/-- What the pseudocode of a command ends in (R14): `raise E`, or the state its writes leave and the value returned. -/
abbrev Result := Except Cause (State × BitVec 32)

/-- One check of a command's pseudocode: `if c: raise e`. -/
def raiseIf (c : Prop) [Decidable c] (e : Cause) : Except Cause Unit := if c then .error e else .ok ()

/-- The end of a command on state `s`, `de` the wrapper bit of its errors (R233): on an error the writes of the
command are gone, for there are none before its last check (R14, R236). -/
def State.finish (s : State) (de : Bool) (r : Result) : State :=
  match r with
  | .ok (t, value) => t.succeed value
  | .error e => s.raise de e

/-- The outcome of a command whose errors are reported bare (R233). -/
def answer (s : State) (r : Result) : Host.Outcome State Fault Refusal := .next (s.finish false r)

/-- The outcome of a word that does not decode (R73, R80): IllegalCommand, reported bare whatever its opcode (R233). -/
def answerIllegal (s : State) : Host.Outcome State Fault Refusal := .next (s.raise false .illegalCommand)

/-- The oldest command word the host has presented and the state once the core has taken it (R4, R70); none when no
command is presented. -/
def State.takeCommand (s : State) : Option (CommandWord × State) :=
  match s.commands with
  | [] => none
  | w :: rest => some (w, { s with commands := rest })

/-- The host presents a list of command words (R5): its one action on the core. -/
def State.present (s : State) (ws : List CommandWord) : State := { s with commands := s.commands ++ ws }

/-- The outcome of `LOAD`, whose errors are wrapped in DecodeError (R233). -/
def answerWrapped (s : State) (r : Result) : Host.Outcome State Fault Refusal := .next (s.finish true r)

end Sys2Proof.Machine
end

