-- ==== Sys2Proof/Machine/Operands.lean ====
section
/-!
DEFINITION. The operand forms: the per-class constants (R9), the class of a `cfg_hdr` code (R10), the fixed field
addresses of the header (R150, from R45 and R46), the selectors of `HR` (R79, R20), the wire `len` field, and the
payload-relative form of the block accessors (R166).
-/

namespace Sys2Proof.Machine

/-- `HW(m)`: header width in bytes (R9). -/
def headerWidth : SizeClass → Nat
  | .full => 16
  | .micro => 10

/-- `CO(m)`: the address of the `check_sum` high byte (R9). -/
def checksumOffset : SizeClass → Nat
  | .full => 14
  | .micro => 8

/-- `SH(m)`: block sub-header width in bytes (R9). -/
def subHeaderWidth : SizeClass → Nat
  | .full => 6
  | .micro => 2

/-- `LENMAX(m)`: the largest value of the wire `len` field (R9). -/
def lenMax : SizeClass → Nat
  | .full => 65535
  | .micro => 255

/-- `W_bt(m)`: wire width of a block's `type` in bytes (R9). -/
def blockTypeWidth : SizeClass → Nat
  | .full => 2
  | .micro => 1

/-- `W_bl(m)`: wire width of a block's `len` in bytes (R9). -/
def blockLenWidth : SizeClass → Nat
  | .full => 2
  | .micro => 1

/-- `class_of(code)` (R10) under the codes of `c`: MalformedHeader for the two codes that name no class. -/
def classOf (c : Config) (code : BitVec 2) : Except Cause SizeClass :=
  if code = c.cfgFull then .ok .full
  else if code = c.cfgMicro then .ok .micro
  else .error .malformedHeader

/-- The fields of the serialized header, as the table of R150 lists them. -/
inductive WireField where
  | hopLimit
  | byte1
  | heartRate
  | srcId
  | dstId
  | len
  | checkSum
  deriving DecidableEq, Repr

/-- `F(field, m) = (addr, n)` (R150): the address of the field's first byte and its width in bytes. -/
def fieldAt : WireField → SizeClass → Nat × Nat
  | .hopLimit, .full => (0, 1)
  | .hopLimit, .micro => (0, 1)
  | .byte1, .full => (1, 1)
  | .byte1, .micro => (1, 1)
  | .heartRate, .full => (2, 2)
  | .heartRate, .micro => (2, 1)
  | .srcId, .full => (4, 4)
  | .srcId, .micro => (3, 2)
  | .dstId, .full => (8, 4)
  | .dstId, .micro => (5, 2)
  | .len, .full => (12, 2)
  | .len, .micro => (7, 1)
  | .checkSum, .full => (14, 2)
  | .checkSum, .micro => (8, 2)

/-- The bytes of `FB` at a field, as one unsigned integer. -/
def State.readField (s : State) (f : WireField) (m : SizeClass) : Nat :=
  s.memRead (fieldAt f m).1 (fieldAt f m).2

/-- A field of `FB` set to `v`. -/
def State.writeField (s : State) (f : WireField) (m : SizeClass) (v : Nat) : State :=
  s.memWrite (fieldAt f m).1 (fieldAt f m).2 v

/-- The wire `len` field `L` (R135 line 2, R166 line 2). -/
def State.wireLen (s : State) (m : SizeClass) : Nat := s.readField .len m

/-- `FB[1][4:3]`, the `cfg_hdr` bits of byte 1 (R44, R47). -/
def byte1Cfg (b : Byte) : BitVec 2 := b.extractLsb' 3 2

/-- `FB[1][7:5]`, the `earmark` bits of byte 1 (R44). -/
def byte1Earmark (b : Byte) : BitVec 3 := b.extractLsb' 5 3

/-- `FB[1][2:0]`, the `priority` bits of byte 1 (R44): the mask 0x7. -/
def byte1Priority (b : Byte) : BitVec 3 := b.extractLsb' 0 3

/-- The first check of every command that needs a header of class `m` (R150, R232). -/
def requireHeader (m : SizeClass) (s : State) : Except Cause Unit :=
  raiseIf (s.flen < headerWidth m) .malformedHeader

/-- R150: the common behaviour of a `GET_*` command whose field is whole bytes. -/
def getField (f : WireField) (m : SizeClass) (s : State) : Result := do
  requireHeader m s
  return (s, BitVec.ofNat 32 (s.readField f m))

/-- R150, R77: the common behaviour of a `SET_*` command whose field is whole bytes: header, range, write,
`CKV <- 0`. -/
def setField (f : WireField) (m : SizeClass) (v : BitVec 32) (s : State) : Result := do
  requireHeader m s
  raiseIf (2 ^ (8 * (fieldAt f m).2) ≤ v.toNat) .rangeError
  return ((s.writeField f m v.toNat).setCkv false, 0)

/-- The fields of `HR` (R20). -/
inductive HrField where
  | hopLimit
  | earmark
  | cfgHdr
  | priority
  | heartRate
  | srcId
  | dstId
  | len
  | checkSum
  deriving DecidableEq, Repr

/-- The selector table of `HR_GET` and `HR_SET` (R79); a selector outside it is IllegalCommand (R73 item 6). -/
def hrField (sel : BitVec 20) : Except Cause HrField :=
  match sel.toNat with
  | 0 => .ok .hopLimit
  | 1 => .ok .earmark
  | 2 => .ok .cfgHdr
  | 3 => .ok .priority
  | 4 => .ok .heartRate
  | 5 => .ok .srcId
  | 6 => .ok .dstId
  | 7 => .ok .len
  | 8 => .ok .checkSum
  | _ => .error .illegalCommand

/-- The width in bits of a field of `HR` (R20, R206 line 1). -/
def hrWidth : HrField → Nat
  | .hopLimit => 8
  | .earmark => 3
  | .cfgHdr => 2
  | .priority => 3
  | .heartRate => 16
  | .srcId => 32
  | .dstId => 32
  | .len => 16
  | .checkSum => 16

/-- `HR.f`, zero-extended to the 32 bits of a response value (R205). -/
def Header.get (h : Header) : HrField → BitVec 32
  | .hopLimit => h.hopLimit.setWidth 32
  | .earmark => h.earmark.setWidth 32
  | .cfgHdr => h.cfgHdr.setWidth 32
  | .priority => h.priority.setWidth 32
  | .heartRate => h.heartRate.setWidth 32
  | .srcId => h.srcId
  | .dstId => h.dstId
  | .len => h.len.setWidth 32
  | .checkSum => h.checkSum.setWidth 32

/-- `HR.f <- v`, the low bits of `v`: the caller has checked that `v` fits, and for `priority` the low three bits are
the mask policy (R206). -/
def Header.put (h : Header) (f : HrField) (v : BitVec 32) : Header :=
  match f with
  | .hopLimit => { h with hopLimit := v.setWidth 8 }
  | .earmark => { h with earmark := v.setWidth 3 }
  | .cfgHdr => { h with cfgHdr := v.setWidth 2 }
  | .priority => { h with priority := v.setWidth 3 }
  | .heartRate => { h with heartRate := v.setWidth 16 }
  | .srcId => { h with srcId := v }
  | .dstId => { h with dstId := v }
  | .len => { h with len := v.setWidth 16 }
  | .checkSum => { h with checkSum := v.setWidth 16 }

/-- What `blk(off, m)` (R166) finds: the declared payload length `L`, the payload bytes both declared and present `P`,
and the `len` and `next` fields of the sub-header. The micro class has no `next`; it is 0 there and not used. -/
structure SubHeader where
  declared : Nat
  present : Nat
  len : Nat
  next : Nat
  deriving DecidableEq, Repr

/-- `blk(off, m)` (R166). -/
def blk (m : SizeClass) (off : Nat) (s : State) : Except Cause SubHeader := do
  requireHeader m s
  let declared := s.wireLen m
  let present := min declared (s.flen - headerWidth m)
  raiseIf (present < off + subHeaderWidth m) .truncatedBlock
  let b := headerWidth m + off
  return { declared, present,
           len := s.memRead (b + blockTypeWidth m) (blockLenWidth m),
           next := match m with
             | .full => s.memRead (b + 4) 2
             | .micro => 0 }

/-- Block `idx` of the chain, or RangeError (R212 to R214). -/
def blockAt (idx : BitVec 20) (s : State) : Except Cause Block :=
  match s.bc[idx.toNat]? with
  | some b => .ok b
  | none => .error .rangeError

/-- Byte `i` of a block's data, or RangeError (R214). -/
def byteAt (i : BitVec 32) (b : Block) : Except Cause Byte :=
  match b.data[i.toNat]? with
  | some x => .ok x
  | none => .error .rangeError

end Sys2Proof.Machine
end

