-- ==== Sys2Proof/Machine/Accessor.lean ====
section
/-!
DEFINITION. The frame accessor: the fourteen header field commands (R150 to R164), `IS_MICRO` (R165) and the three
block accessors (R166 to R169). They read and write `FB` only (R150).
-/

namespace Sys2Proof.Machine

/-- `GET_PRIORITY m` (R151): `FB[1] & 0x07`. -/
def execGetPriority (m : SizeClass) (s : State) : Host.Outcome State Fault Refusal :=
  answer s do
    requireHeader m s
    return (s, (byte1Priority (s.fb.read 1)).setWidth 32)

/-- R152 line 2: `(b & 0xF8) | (v & 0x07)`, the other five bits of byte 1 kept. -/
def withPriority (b : Byte) (v : BitVec 32) : Byte := (b &&& 0xF8#8) ||| (v.setWidth 8 &&& 0x07#8)

/-- `SET_PRIORITY m, v` (R152): mask, never reject. -/
def execSetPriority (m : SizeClass) (v : BitVec 32) (s : State) : Host.Outcome State Fault Refusal :=
  answer s do
    requireHeader m s
    return ((s.fbStore 1 [withPriority (s.fb.read 1) v]).setCkv false, 0)

/-- `GET_HOP_LIMIT m` (R153). -/
def execGetHopLimit (m : SizeClass) (s : State) : Host.Outcome State Fault Refusal :=
  answer s (getField .hopLimit m s)

/-- `ADD_HOP_LIMIT m` (R154): `(FB[0] + 1) mod 256`, and the new value is returned. -/
def execAddHopLimit (m : SizeClass) (s : State) : Host.Outcome State Fault Refusal :=
  answer s do
    requireHeader m s
    let b := s.fb.read 0 + 1#8
    return ((s.fbStore 0 [b]).setCkv false, b.setWidth 32)

/-- `GET_HEART_RATE m` (R155). -/
def execGetHeartRate (m : SizeClass) (s : State) : Host.Outcome State Fault Refusal :=
  answer s (getField .heartRate m s)

/-- `SET_HEART_RATE m, v` (R156). -/
def execSetHeartRate (m : SizeClass) (v : BitVec 32) (s : State) : Host.Outcome State Fault Refusal :=
  answer s (setField .heartRate m v s)

/-- `GET_SRC m` (R157). -/
def execGetSrc (m : SizeClass) (s : State) : Host.Outcome State Fault Refusal := answer s (getField .srcId m s)

/-- `SET_SRC m, v` (R158). -/
def execSetSrc (m : SizeClass) (v : BitVec 32) (s : State) : Host.Outcome State Fault Refusal :=
  answer s (setField .srcId m v s)

/-- `GET_DST m` (R159). -/
def execGetDst (m : SizeClass) (s : State) : Host.Outcome State Fault Refusal := answer s (getField .dstId m s)

/-- `SET_DST m, v` (R160). -/
def execSetDst (m : SizeClass) (v : BitVec 32) (s : State) : Host.Outcome State Fault Refusal :=
  answer s (setField .dstId m v s)

/-- `GET_LEN m` (R161). -/
def execGetLen (m : SizeClass) (s : State) : Host.Outcome State Fault Refusal := answer s (getField .len m s)

/-- `SET_LEN m, v` (R162). -/
def execSetLen (m : SizeClass) (v : BitVec 32) (s : State) : Host.Outcome State Fault Refusal :=
  answer s (setField .len m v s)

/-- `GET_CHECKSUM m` (R163). -/
def execGetChecksum (m : SizeClass) (s : State) : Host.Outcome State Fault Refusal :=
  answer s (getField .checkSum m s)

/-- `SET_CHECKSUM m, v` (R164). -/
def execSetChecksum (m : SizeClass) (v : BitVec 32) (s : State) : Host.Outcome State Fault Refusal :=
  answer s (setField .checkSum m v s)

/-- The value of `IS_MICRO` for a class: the class bit. -/
def microBit : SizeClass → BitVec 32
  | .full => 0
  | .micro => 1

/-- The class of the frame in `FB` from its first two bytes (R165 lines 1 to 5, R192 lines 1 and 2). -/
def wireClass (s : State) : Except Cause SizeClass := do
  raiseIf (s.flen < 2) .malformedHeader
  classOf s.config (byte1Cfg (s.fb.read 1))

/-- `IS_MICRO` (R165). -/
def execIsMicro (s : State) : Host.Outcome State Fault Refusal :=
  answer s do
    let m ← wireClass s
    return (s, microBit m)

/-- R167 lines 2 to 6: the stored `next` in the full class, the computed successor offset in the micro class. -/
def nextOffset (m : SizeClass) (off : Nat) (b : SubHeader) : Except Cause Nat :=
  match m with
  | .full => .ok b.next
  | .micro =>
    let e := off + 2 + b.len
    if b.declared < e then .error .truncatedBlock
    else if e = b.declared then .ok 0
    else .ok e

/-- `GET_BLOCK_NEXT m, a=off` (R167). -/
def execGetBlockNext (m : SizeClass) (off : BitVec 20) (s : State) : Host.Outcome State Fault Refusal :=
  answer s do
    let b ← blk m off.toNat s
    let n ← nextOffset m off.toNat b
    return (s, BitVec.ofNat 32 n)

/-- `GET_BLOCK_LEN m, a=off` (R168). -/
def execGetBlockLen (m : SizeClass) (off : BitVec 20) (s : State) : Host.Outcome State Fault Refusal :=
  answer s do
    let b ← blk m off.toNat s
    return (s, BitVec.ofNat 32 b.len)

/-- `GET_BLOCK_DATA m, a=off` (R169). -/
def execGetBlockData (m : SizeClass) (off : BitVec 20) (s : State) : Host.Outcome State Fault Refusal :=
  answer s do
    let b ← blk m off.toNat s
    raiseIf (b.present < off.toNat + subHeaderWidth m + b.len) .truncatedBlock
    return (s, BitVec.ofNat 32 (headerWidth m + off.toNat + subHeaderWidth m))

end Sys2Proof.Machine
end

