-- ==== Sys2Proof/Machine/Blocks.lean ====
section
/-!
DEFINITION. The payload block serializer: `ser` (R133), `parse` (R134) and the commands `BLK_APPEND` (R131),
`BLK_CLEAR` (R132), `BLK_SERIALIZE` (R133), `BLK_DESERIALIZE` (R135).
-/

namespace Sys2Proof.Machine

/-- `sum of b_i.len` over the chain (R24, R131 line 3). -/
def dataTotal (bc : List Block) : Nat := (bc.map fun b => b.data.length).sum

/-- `L = sum of SH(m) + b_i.len` (R133 line 2): the serialized length of the chain. -/
def payloadLength (m : SizeClass) (bc : List Block) : Nat := (bc.map fun b => subHeaderWidth m + b.data.length).sum

/-- The sub-header of a block (R50, R51): `type`, `len`, and in the full class `next`. -/
def subHeader (m : SizeClass) (b : Block) (next : Nat) : List Byte :=
  beBytes (blockTypeWidth m) b.type.toNat ++ beBytes (blockLenWidth m) b.data.length ++
    match m with
    | .full => beBytes 2 next
    | .micro => []

/-- The loop of `ser` from payload-relative offset `o` (R133): the last block's `next` is 0 (R52). -/
def serFrom (m : SizeClass) : Nat → List Block → List Byte
  | _, [] => []
  | o, b :: rest =>
    subHeader m b (if rest.isEmpty then 0 else o + subHeaderWidth m + b.data.length) ++ b.data ++
      serFrom m (o + subHeaderWidth m + b.data.length) rest

/-- `ser(BC, m)` (R133). -/
def ser (m : SizeClass) (bc : List Block) : List Byte := serFrom m 0 bc

/-- R133 line 1: in the micro class every block's `type` and `len` fit 8 bits. -/
abbrev blocksFit (m : SizeClass) (bc : List Block) : Prop :=
  m = .micro → ∀ b ∈ bc, b.type.toNat < 2 ^ 8 ∧ b.data.length < 2 ^ 8

/-- R133 lines 1 and 2, R190 lines 2 and 3: the chain can be serialized in class `m` under the capacity `FB_SIZE`. -/
def requireSerializable (c : Config) (m : SizeClass) (bc : List Block) : Except Cause Unit := do
  raiseIf (¬ blocksFit m bc) .rangeError
  raiseIf (lenMax m < payloadLength m bc ∨ c.fbSize < headerWidth m + payloadLength m bc) .rangeError

/-- One turn of the loop of `parse(P, m)` (R134): the block at offset `o`, after its checks in the rule's order; `total`
and `count` are the data bytes and the number of the blocks found so far. -/
def parseBlock (c : Config) (m : SizeClass) (p : List Byte) (o total count : Nat) : Except Cause Block := do
  raiseIf (p.length < o + subHeaderWidth m) .truncatedBlock
  let n := beNat (slice p (o + blockTypeWidth m) (blockLenWidth m))
  let e := o + subHeaderWidth m + n
  raiseIf (p.length < e) .truncatedBlock
  raiseIf (m = .full ∧ beNat (slice p (o + 4) 2) ≠ if e < p.length then e else 0) .malformedPayload
  raiseIf (count = c.nblkMax ∨ c.bcDataMax < total + n) .rangeError
  return { type := BitVec.ofNat 16 (beNat (slice p o (blockTypeWidth m))),
           data := slice p (o + subHeaderWidth m) n }

/-- The loop of `parse(P, m)` (R134) from offset `o`, with the blocks found so far and their data total. `fuel` bounds
the turns: each turn moves `o` by at least `SH(m) >= 2`, so the length of `P` is more than enough (R82). -/
def parseFrom (c : Config) (m : SizeClass) (p : List Byte) : Nat → Nat → Nat → List Block → Except Cause (List Block)
  | 0, _, _, out => .ok out
  | fuel + 1, o, total, out =>
    if o < p.length then do
      let b ← parseBlock c m p o total out.length
      parseFrom c m p fuel (o + subHeaderWidth m + b.data.length) (total + b.data.length) (out ++ [b])
    else .ok out

/-- `parse(P, m)` (R134) under the capacities of `c`. -/
def parse (c : Config) (m : SizeClass) (p : List Byte) : Except Cause (List Block) :=
  parseFrom c m p p.length 0 0 []

/-- `FB[HW(m) .. HW(m)+L-1]`, the payload region of the frame (R48). -/
def State.payloadRegion (s : State) (m : SizeClass) : List Byte := s.fbBytes (headerWidth m) (s.wireLen m)

/-- `BLK_APPEND v=type` (R131). -/
def execBlkAppend (type : BitVec 32) (s : State) : Host.Outcome State Fault Refusal :=
  answer s do
    raiseIf (2 ^ 16 ≤ type.toNat) .rangeError
    raiseIf (s.bc.length = s.config.nblkMax) .rangeError
    raiseIf (s.config.bcDataMax < dataTotal s.bc + s.db.length) .rangeError
    let bc := s.bc ++ [{ type := type.setWidth 16, data := s.db }]
    return ({ s with bc, db := [] }, countValue bc.length)

/-- `BLK_CLEAR` (R132). -/
def execBlkClear (s : State) : Host.Outcome State Fault Refusal := answer s (.ok ({ s with bc := [] }, 0))

/-- `BLK_SERIALIZE m` (R133). -/
def execBlkSerialize (m : SizeClass) (s : State) : Host.Outcome State Fault Refusal :=
  answer s do
    requireSerializable s.config m s.bc
    let l := payloadLength m s.bc
    let t := (s.zeroFill (headerWidth m)).fbStore (headerWidth m) (ser m s.bc)
    return ((t.cutFlen (headerWidth m + l)).setCkv false, BitVec.ofNat 32 l)

/-- `BLK_DESERIALIZE m` (R135). -/
def execBlkDeserialize (m : SizeClass) (s : State) : Host.Outcome State Fault Refusal :=
  answer s do
    requireHeader m s
    raiseIf (s.flen < headerWidth m + s.wireLen m) .truncatedBlock
    raiseIf (headerWidth m + s.wireLen m < s.flen) .malformedPayload
    let bc ← parse s.config m (s.payloadRegion m)
    return ({ s with bc }, BitVec.ofNat 32 bc.length)

end Sys2Proof.Machine
end

