-- ==== Sys2Proof/Machine/Checksum.lean ====
section
/-!
DEFINITION. The checksum generator: the checksum region (R111), the default checksum function (R112), and the commands
`CKSUM_COMPUTE` (R113), `CKSUM_STAMP` (R114), `CKSUM_VERIFY` (R115).
-/

namespace Sys2Proof.Machine

/-- One shift of the 16-bit CRC register (R112). -/
def crcShift (c : BitVec 16) : BitVec 16 := if c.msb then (c <<< 1) ^^^ 0x1021#16 else c <<< 1

/-- One byte of the sequence (R112): exclusive-or into the high byte, then eight shifts. -/
def crcByte (c : BitVec 16) (b : Byte) : BitVec 16 :=
  crcShift (crcShift (crcShift (crcShift (crcShift (crcShift (crcShift (crcShift
    (c ^^^ (b.setWidth 16 <<< 8)))))))))

/-- The CRC of R112: generator 0x1021, initial value 0xFFFF, most significant bit first, no reflection, no final
exclusive-or. -/
def crc16 (bytes : List Byte) : BitVec 16 := bytes.foldl crcByte 0xFFFF#16

end Sys2Proof.Machine

/-- `CKSUM` (R12): the checksum function of the configuration, by default the CRC of R112 (assumption log 4). -/
def Sys2Proof.Config.cksum (c : Sys2Proof.Config) (bytes : List Sys2Proof.Byte) : BitVec 16 :=
  match c.checksum with
  | .crc16 => Sys2Proof.Machine.crc16 bytes
  | .other k => Sys2Proof.Config.otherCksum k bytes

namespace Sys2Proof.Machine

/-- `region(m)` of a frame (R111): its bytes in address order without the two checksum bytes. -/
def region (m : SizeClass) (frame : List Byte) : List Byte :=
  frame.take (checksumOffset m) ++ frame.drop (checksumOffset m + 2)

/-- `CKSUM(region(m))` of the frame in `FB`. -/
def State.computedChecksum (s : State) (m : SizeClass) : BitVec 16 := s.config.cksum (region m s.frame)

/-- `FB[CO(m)] << 8 | FB[CO(m)+1]`, the embedded checksum. -/
def State.storedChecksum (s : State) (m : SizeClass) : BitVec 16 := BitVec.ofNat 16 (s.readField .checkSum m)

/-- `CKSUM_COMPUTE m` (R113). -/
def execCksumCompute (m : SizeClass) (s : State) : Host.Outcome State Fault Refusal :=
  answer s do
    requireHeader m s
    return (s, (s.computedChecksum m).setWidth 32)

/-- `CKSUM_STAMP m` (R114). -/
def execCksumStamp (m : SizeClass) (s : State) : Host.Outcome State Fault Refusal :=
  answer s do
    requireHeader m s
    let c := s.computedChecksum m
    return ((s.writeField .checkSum m c.toNat).setCkv true, c.setWidth 32)

/-- `CKSUM_VERIFY m` (R115); raising ChecksumMismatch clears `CKV` (line 4, R236). -/
def execCksumVerify (m : SizeClass) (s : State) : Host.Outcome State Fault Refusal :=
  answer s do
    requireHeader m s
    raiseIf (s.computedChecksum m ≠ s.storedChecksum m) .checksumMismatch
    return (s.setCkv true, 1)

end Sys2Proof.Machine
end

