-- ==== Sys2Proof/Machine/Codec.lean ====
section
/-!
DEFINITION. The header codec: `pack` (R90), `unpack` (R100) and the commands `HDR_PACK` (R91) and `HDR_UNPACK` (R101).
-/

namespace Sys2Proof.Machine

/-- Byte 1 of the header (R44): `earmark[7:5] cfg_hdr[4:3] priority[2:0]`. -/
def packByte1 (h : Header) : Byte := h.earmark ++ h.cfgHdr ++ h.priority

/-- `pack(h, m)` (R90): the nine fields in the layout of R45 or R46, each multi-byte field big-endian, the two
checksum bytes last (R43). -/
def pack (h : Header) (m : SizeClass) : List Byte :=
  [h.hopLimit, packByte1 h]
    ++ beBytes (fieldAt .heartRate m).2 h.heartRate.toNat
    ++ beBytes (fieldAt .srcId m).2 h.srcId.toNat
    ++ beBytes (fieldAt .dstId m).2 h.dstId.toNat
    ++ beBytes (fieldAt .len m).2 h.len.toNat
    ++ beBytes (fieldAt .checkSum m).2 h.checkSum.toNat

/-- The field `f` of a serialized header, as one unsigned integer. -/
def wireField (bytes : List Byte) (f : WireField) (m : SizeClass) : Nat :=
  beNat (slice bytes (fieldAt f m).1 (fieldAt f m).2)

/-- `unpack(B, m)` (R100); the narrow fields of the micro class are zero-extended. -/
def unpack (bytes : List Byte) (m : SizeClass) : Header :=
  let b1 := bytes.getD 1 0#8
  { hopLimit := bytes.getD 0 0#8,
    earmark := byte1Earmark b1,
    cfgHdr := byte1Cfg b1,
    priority := byte1Priority b1,
    heartRate := BitVec.ofNat 16 (wireField bytes .heartRate m),
    srcId := BitVec.ofNat 32 (wireField bytes .srcId m),
    dstId := BitVec.ofNat 32 (wireField bytes .dstId m),
    len := BitVec.ofNat 16 (wireField bytes .len m),
    checkSum := BitVec.ofNat 16 (wireField bytes .checkSum m) }

/-- R91 line 2, R190 line 4: `heart_rate`, `src_id` and `dst_id` fit their wire widths in class `m`; in the full
class every value does. -/
abbrev Header.idsFit (h : Header) (m : SizeClass) : Prop :=
  m = .micro → h.heartRate.toNat < 2 ^ 8 ∧ h.srcId.toNat < 2 ^ 16 ∧ h.dstId.toNat < 2 ^ 16

/-- R91 line 2: `len` fits its wire width in class `m`. -/
abbrev Header.lenFits (h : Header) (m : SizeClass) : Prop := m = .micro → h.len.toNat < 2 ^ 8

/-- R91 line 1 and R101 line 3: the discriminator names the class `m` itself, under the codes of `c`. -/
def requireClass (c : Config) (code : BitVec 2) (m : SizeClass) : Except Cause Unit := do
  let k ← classOf c code
  raiseIf (k ≠ m) .malformedHeader

/-- R91 line 3: the valid part of `FB` reaches at least to the end of the header, the gap zero. -/
def State.coverHeader (s : State) (m : SizeClass) : State :=
  if s.flen < headerWidth m then (s.zeroFill (headerWidth m)).growFlen (headerWidth m) else s

/-- `HDR_PACK m` (R91). -/
def execHdrPack (m : SizeClass) (s : State) : Host.Outcome State Fault Refusal :=
  answer s do
    requireClass s.config s.hr.cfgHdr m
    raiseIf (¬ (s.hr.idsFit m ∧ s.hr.lenFits m)) .rangeError
    return (((s.coverHeader m).fbStore 0 (pack s.hr m)).setCkv false, BitVec.ofNat 32 (headerWidth m))

/-- `HDR_UNPACK m` (R101). -/
def execHdrUnpack (m : SizeClass) (s : State) : Host.Outcome State Fault Refusal :=
  answer s do
    requireHeader m s
    let h := unpack (s.fbBytes 0 (headerWidth m)) m
    requireClass s.config h.cfgHdr m
    return ({ s with hr := h }, 0)

end Sys2Proof.Machine
end

