-- ==== Sys2Proof/Machine/Composite.lean ====
section
/-!
DEFINITION. The composite frame commands: `DUMP` (R190, R191) and `LOAD` (R192).
-/

namespace Sys2Proof.Machine

/-- R190 lines 5 and 6: the packed header, its `len` the serialized length of the chain, then the serialized chain. -/
def rawFrame (h : Header) (m : SizeClass) (bc : List Block) : List Byte :=
  pack { h with len := BitVec.ofNat 16 (payloadLength m bc) } m ++ ser m bc

/-- R190 line 8: the two checksum bytes of a frame set to `c`, high byte first. -/
def stampFrame (m : SizeClass) (frame : List Byte) (c : BitVec 16) : List Byte :=
  (frame.set (checksumOffset m) (c.extractLsb' 8 8)).set (checksumOffset m + 1) (c.extractLsb' 0 8)

/-- `DUMP` (R190). -/
def execDump (s : State) : Host.Outcome State Fault Refusal :=
  answer s do
    let m ← classOf s.config s.hr.cfgHdr
    requireSerializable s.config m s.bc
    raiseIf (¬ s.hr.idsFit m) .rangeError
    let l := payloadLength m s.bc
    let raw := rawFrame s.hr m s.bc
    let c := s.config.cksum (region m raw)
    let t := (s.fbStore 0 (stampFrame m raw c)).cutFlen (headerWidth m + l)
    return ({ t with hr := { s.hr with len := BitVec.ofNat 16 l, checkSum := c } }.setCkv true,
            BitVec.ofNat 32 (headerWidth m + l))

/-- `LOAD` (R192); its errors are wrapped in DecodeError (R233). -/
def execLoad (s : State) : Host.Outcome State Fault Refusal :=
  answerWrapped s do
    let m ← wireClass s
    requireHeader m s
    raiseIf (s.flen < headerWidth m + s.wireLen m) .truncatedBlock
    raiseIf (s.computedChecksum m ≠ s.storedChecksum m) .checksumMismatch
    raiseIf (headerWidth m + s.wireLen m < s.flen) .malformedPayload
    let bc ← parse s.config m (s.payloadRegion m)
    return ({ s with hr := unpack (s.fbBytes 0 (headerWidth m)) m, bc }.setCkv true, BitVec.ofNat 32 bc.length)

end Sys2Proof.Machine
end

