-- ==== Sys2Proof/Machine/HostAccess.lean ====
section
/-!
DEFINITION. The host-access commands of group 0x7: the header registers (R205, R206), the frame buffer
(R207 to R209), the staging buffer (R210, R211) and the chain's read-out (R212 to R214).
-/

namespace Sys2Proof.Machine

/-- `HR_GET a=sel` (R205). -/
def execHrGet (sel : BitVec 20) (s : State) : Host.Outcome State Fault Refusal :=
  answer s do
    let f ← hrField sel
    return (s, s.hr.get f)

/-- `HR_SET a=sel, v` (R206): `priority` is masked, every other field is range-checked. -/
def execHrSet (sel : BitVec 20) (v : BitVec 32) (s : State) : Host.Outcome State Fault Refusal :=
  answer s do
    let f ← hrField sel
    raiseIf (f ≠ .priority ∧ 2 ^ hrWidth f ≤ v.toNat) .rangeError
    return ({ s with hr := s.hr.put f v }, 0)

/-- `FB_READ a=addr` (R207). -/
def execFbRead (addr : BitVec 20) (s : State) : Host.Outcome State Fault Refusal :=
  answer s do
    raiseIf (s.flen ≤ addr.toNat) .rangeError
    return (s, (s.fb.read addr.toNat).setWidth 32)

/-- R208 line 3: `if addr = FLEN: FLEN <- FLEN + 1`. -/
def State.extendAt (s : State) (addr : Nat) : State := if addr = s.flen then s.growFlen (s.flen + 1) else s

/-- `FB_WRITE a=addr, v=byte` (R208). -/
def execFbWrite (addr : BitVec 20) (v : BitVec 32) (s : State) : Host.Outcome State Fault Refusal :=
  answer s do
    raiseIf (s.flen < addr.toNat ∨ s.config.fbSize ≤ addr.toNat ∨ 0xFF < v.toNat) .rangeError
    return (((s.fbStore addr.toNat [v.setWidth 8]).extendAt addr.toNat).setCkv false, 0)

/-- `FB_SETLEN a=n` (R209). -/
def execFbSetlen (n : BitVec 20) (s : State) : Host.Outcome State Fault Refusal :=
  answer s do
    raiseIf (s.flen < n.toNat) .rangeError
    return ((s.cutFlen n.toNat).setCkv false, 0)

/-- `DB_CLEAR` (R210). -/
def execDbClear (s : State) : Host.Outcome State Fault Refusal := answer s (.ok ({ s with db := [] }, 0))

/-- `DB_PUSH v=byte` (R211). -/
def execDbPush (v : BitVec 32) (s : State) : Host.Outcome State Fault Refusal :=
  answer s do
    raiseIf (0xFF < v.toNat ∨ s.db.length = s.config.dbMax) .rangeError
    let db := s.db ++ [v.setWidth 8]
    return ({ s with db }, BitVec.ofNat 32 db.length)

/-- `BLK_TYPE a=idx` (R212). -/
def execBlkType (idx : BitVec 20) (s : State) : Host.Outcome State Fault Refusal :=
  answer s do
    let b ← blockAt idx s
    return (s, b.type.setWidth 32)

/-- `BLK_LEN a=idx` (R213). -/
def execBlkLen (idx : BitVec 20) (s : State) : Host.Outcome State Fault Refusal :=
  answer s do
    let b ← blockAt idx s
    return (s, BitVec.ofNat 32 b.data.length)

/-- `BLK_BYTE a=idx, v=i` (R214). -/
def execBlkByte (idx : BitVec 20) (i : BitVec 32) (s : State) : Host.Outcome State Fault Refusal :=
  answer s do
    let b ← blockAt idx s
    let x ← byteAt i b
    return (s, x.setWidth 32)

end Sys2Proof.Machine
end

