-- ==== Sys2Proof/Machine/System.lean ====
section
/-!
DEFINITION. The system commands of group 0x0: `NOP`, `RESET`, `STATUS_GET`, `STATUS_CLR`, `SYS_GET`
(R200 to R204, R244).
-/

namespace Sys2Proof.Machine

/-- `NOP` (R200): value 0; only `LAST` and `LASTDE` are written. -/
def execNop (s : State) : Host.Outcome State Fault Refusal := answer s (.ok (s, 0))

/-- R201: the whole state of the core at its reset values. The parameters, and what the host has presented and received,
are not the core's state and stay (assumption log 1, 2 and 4). -/
def State.resetCore (s : State) : State :=
  { State.resetWith s.config with commands := s.commands, responses := s.responses }

/-- `RESET` (R201, R260). -/
def execReset (s : State) : Host.Outcome State Fault Refusal := answer s (.ok (s.resetCore, 0))

/-- `STATUS_GET` (R202): the response carries `STATUS` and nothing is updated (R32's one exception). -/
def execStatusGet (s : State) : Host.Outcome State Fault Refusal := .next (s.respond false 0 s.status.word)

/-- `STATUS_CLR` (R203): `ERRS <- 0`, then R32. -/
def execStatusClr (s : State) : Host.Outcome State Fault Refusal :=
  answer s (.ok ({ s with status := s.status.clearErrs }, 0))

/-- The selector table of `SYS_GET` (R79, R204): `FLEN`, `DLEN`, `NBLK` (R33), as the value of the response. -/
def sysLength (sel : BitVec 20) (s : State) : Except Cause (BitVec 32) :=
  match sel.toNat with
  | 0 => .ok (BitVec.ofNat 32 s.flen)
  | 1 => .ok (BitVec.ofNat 32 s.db.length)
  | 2 => .ok (countValue s.bc.length)
  | _ => .error .illegalCommand

/-- `SYS_GET a=sel` (R204). -/
def execSysGet (sel : BitVec 20) (s : State) : Host.Outcome State Fault Refusal :=
  answer s do
    let v ← sysLength sel s
    return (s, v)

end Sys2Proof.Machine
end

