-- ==== Sys2Proof/Machine/Dispatch.lean ====
section
/-! DEFINITION. The dispatch: one arm per command of R74, each one direct call of the command's meaning. -/

namespace Sys2Proof.Machine

/-- The meaning of a decoded command (R74's column "rule" says which rule each arm follows). -/
def exec (i : Instr) (s : State) : Host.Outcome State Fault Refusal :=
  match i with
  | .nop => Sys2Proof.Machine.execNop s
  | .reset => Sys2Proof.Machine.execReset s
  | .statusGet => Sys2Proof.Machine.execStatusGet s
  | .statusClr => Sys2Proof.Machine.execStatusClr s
  | .sysGet sel => Sys2Proof.Machine.execSysGet sel s
  | .hdrPack m => Sys2Proof.Machine.execHdrPack m s
  | .hdrUnpack m => Sys2Proof.Machine.execHdrUnpack m s
  | .cksumCompute m => Sys2Proof.Machine.execCksumCompute m s
  | .cksumStamp m => Sys2Proof.Machine.execCksumStamp m s
  | .cksumVerify m => Sys2Proof.Machine.execCksumVerify m s
  | .blkAppend type => Sys2Proof.Machine.execBlkAppend type s
  | .blkClear => Sys2Proof.Machine.execBlkClear s
  | .blkSerialize m => Sys2Proof.Machine.execBlkSerialize m s
  | .blkDeserialize m => Sys2Proof.Machine.execBlkDeserialize m s
  | .getPriority m => Sys2Proof.Machine.execGetPriority m s
  | .setPriority m v => Sys2Proof.Machine.execSetPriority m v s
  | .getHopLimit m => Sys2Proof.Machine.execGetHopLimit m s
  | .addHopLimit m => Sys2Proof.Machine.execAddHopLimit m s
  | .getHeartRate m => Sys2Proof.Machine.execGetHeartRate m s
  | .setHeartRate m v => Sys2Proof.Machine.execSetHeartRate m v s
  | .getSrc m => Sys2Proof.Machine.execGetSrc m s
  | .setSrc m v => Sys2Proof.Machine.execSetSrc m v s
  | .getDst m => Sys2Proof.Machine.execGetDst m s
  | .setDst m v => Sys2Proof.Machine.execSetDst m v s
  | .getLen m => Sys2Proof.Machine.execGetLen m s
  | .setLen m v => Sys2Proof.Machine.execSetLen m v s
  | .getChecksum m => Sys2Proof.Machine.execGetChecksum m s
  | .setChecksum m v => Sys2Proof.Machine.execSetChecksum m v s
  | .isMicro => Sys2Proof.Machine.execIsMicro s
  | .getBlockNext m off => Sys2Proof.Machine.execGetBlockNext m off s
  | .getBlockLen m off => Sys2Proof.Machine.execGetBlockLen m off s
  | .getBlockData m off => Sys2Proof.Machine.execGetBlockData m off s
  | .dump => Sys2Proof.Machine.execDump s
  | .load => Sys2Proof.Machine.execLoad s
  | .hrGet sel => Sys2Proof.Machine.execHrGet sel s
  | .hrSet sel v => Sys2Proof.Machine.execHrSet sel v s
  | .fbRead addr => Sys2Proof.Machine.execFbRead addr s
  | .fbWrite addr v => Sys2Proof.Machine.execFbWrite addr v s
  | .fbSetlen n => Sys2Proof.Machine.execFbSetlen n s
  | .dbClear => Sys2Proof.Machine.execDbClear s
  | .dbPush v => Sys2Proof.Machine.execDbPush v s
  | .blkType idx => Sys2Proof.Machine.execBlkType idx s
  | .blkLen idx => Sys2Proof.Machine.execBlkLen idx s
  | .blkByte idx k => Sys2Proof.Machine.execBlkByte idx k s

end Sys2Proof.Machine
end

