-- ==== Sys2Proof/Machine/Step.lean ====
section
/-!
DEFINITION. One step of the core (R4, R70): it takes the oldest command word the host has presented and executes it to
completion. There is no program counter and no fetch (R36): `commands` is the host's command channel.
-/

namespace Sys2Proof.Machine

/-- The execution of one command word (R4): the decoded command, or IllegalCommand (R73, R80), reported bare (R233). -/
def execWord (w : CommandWord) (s : State) : Host.Outcome State Fault Refusal :=
  match decode w with
  | .ok i => exec i s
  | .error _ => answerIllegal s

/-- One step: the oldest presented command word is taken and executed. With none presented the core does nothing and
waits (R5; assumption log 1). -/
def step (s : State) : Host.Outcome State Fault Refusal :=
  match s.takeCommand with
  | none => .next s
  | some (w, t) => execWord w t

/-- The state `s` with the command word of a row of spec/opcode_table.json presented ahead of what the host has
presented before: the very next step executes it (assumption log 3). -/
def State.withFetchWord (s : State) (nbits w : Nat) : State :=
  { s with commands := tableWord nbits w :: s.commands }

end Sys2Proof.Machine
end

