-- ==== Sys2Proof/Safety.lean ====
section
/-!
DEFINITION. What a sound state of the core is: the bounds and canonical forms the rules keep (R24, R27 to R30, R232), and
what `CKV = 1` claims (R31). `Inv` holds in every state a run from reset reaches, under any legal parameters; `CkvSound` is a second such fact.
-/

namespace Sys2Proof.Machine

/-- The invariant of the state. -/
structure Inv (s : State) : Prop where
  /-- the parameters are legal (R10, R11, R110) -/
  configLegal : s.config.Legal
  /-- the frame buffer is in its one canonical form -/
  memCanonical : s.fb.wf
  /-- no byte is listed at or above `FLEN`: such a byte has no value (R29) -/
  validBelowFlen : ∀ c ∈ s.fb, c.1 < s.flen
  /-- `FLEN <= FB_SIZE` (R28) -/
  flenBound : s.flen ≤ s.config.fbSize
  /-- `DLEN <= DB_MAX` (R27) -/
  dlenBound : s.db.length ≤ s.config.dbMax
  /-- `NBLK <= NBLK_MAX` (R24) -/
  nblkBound : s.bc.length ≤ s.config.nblkMax
  /-- the sum of `b_i.len` never exceeds `BC_DATA_MAX` (R24) -/
  dataBound : dataTotal s.bc ≤ s.config.bcDataMax
  /-- `b_i.len` is a 16-bit number (R24) -/
  lenBound : ∀ b ∈ s.bc, b.data.length ≤ 65535
  /-- `LAST` is a code the core produces: not 4 (never raised, R152) and none of 8 to 15 (R230) -/
  lastLegal : s.status.last ∈ [0#4, 1#4, 2#4, 3#4, 5#4, 6#4, 7#4]
  /-- a most recent command that failed has set the sticky flag (R32) -/
  lastSticky : s.status.last ≠ 0 → s.status.errs = true
  /-- the wrapper bit stands only beside a cause that `LOAD` can raise (R233) -/
  lastWrapped : s.status.lastDE = true → s.status.last ∈ [1#4, 2#4, 3#4, 5#4, 6#4]

/-- R31: `CKV = 1` says that `FB[0..FLEN-1]` carries a correct checksum under some class. -/
def CkvSound (s : State) : Prop :=
  s.status.ckv = true → ∃ m, headerWidth m ≤ s.flen ∧ s.computedChecksum m = s.storedChecksum m

/-- A step is safe when the core goes on: it neither faults nor refuses. -/
def SafeStep (s : State) : Prop := ∃ t, step s = .next t

end Sys2Proof.Machine
end

