-- ==== Sys2Proof/Certificates/Slice0/Obligations.lean ====
section
/-!
DEFINITION. The statements for the provers. The first part is the vocabulary they share: the state a command leaves when
it succeeds or fails, written out field by field from R14, R32, R72, R235 and R236 and not through the model's own
operations; what a store changes; the word of a command by R83; the opcode table of R74 and R75 as match and mask;
the block walk of R134 as a relation.
-/

namespace Sys2Proof.Statement

open Sys2Proof.Machine

/-- A response word by its response code (bits 39:32) and its value (R72). -/
def reply (code : BitVec 8) (v : BitVec 32) : ResponseWord := code ++ v

/-- The cause field of a response code: bits 35:32 of the response (R72). -/
def causeOf (code : BitVec 8) : BitVec 4 := code.extractLsb' 0 4

/-- `s` after a command that succeeded with value `v` and had no other effect (R14, R32). -/
def ok (s : State) (v : BitVec 32) : State :=
  { s with status := { s.status with last := 0, lastDE := false }, responses := s.responses ++ [reply 0x00 v] }

/-- `s` after a command that ended with the response code `code` (R235, R236): value 0, `LAST`, `LASTDE` and `ERRS`
written, `CKV` cleared on ChecksumMismatch, nothing else changed. -/
def err (s : State) (code : BitVec 8) : State :=
  { s with
    status := { last := causeOf code, lastDE := code.msb, errs := true,
                ckv := s.status.ckv && causeOf code != 3 },
    responses := s.responses ++ [reply code 0] }

/-- `s` with `CKV` at `b`. -/
def ckvTo (s : State) (b : Bool) : State := { s with status := { s.status with ckv := b } }

/-- `after` is `before` with `bytes` stored from `addr` up: every other address reads as before. -/
def Stores (before after : Memory) (addr : Nat) (bytes : List Byte) : Prop :=
  ∀ a, after.read a =
    if addr ≤ a ∧ a < addr + bytes.length then bytes.getD (a - addr) 0 else before.read a

/-- The word `op << 56 | m << 55 | a << 32 | v` (R83); `m` is 0 or 1. -/
def word (op m a v : Nat) : CommandWord := BitVec.ofNat 64 (op <<< 56 ||| m <<< 55 ||| a <<< 32 ||| v)

/-- The class as the number `m` (R9). -/
def num : SizeClass → Nat
  | .full => 0
  | .micro => 1

/-- `w[55]` as a class (R76). -/
def wordClass (w : CommandWord) : SizeClass := if w.getLsbD 55 then .micro else .full

/-- `w[51:32]` (R76). -/
def wordA (w : CommandWord) : BitVec 20 := BitVec.ofNat 20 (w.toNat >>> 32)

/-- `w[31:0]` (R76). -/
def wordV (w : CommandWord) : BitVec 32 := BitVec.ofNat 32 w.toNat

/-- One row of spec/opcode_table.json: the matched value, the mask, the number of selectors (all 2^20 where `a` is no selector), and
the command of a word that matches. -/
structure TableRow where
  value : CommandWord
  mask : CommandWord
  selectors : Nat
  command : CommandWord → Instr

/-- The mask of a command that uses no operand, only `m`, only `a`, only `v`, and so on (R75). -/
def maskNone : CommandWord := 0xFFFFFFFFFFFFFFFF#64
def maskM : CommandWord := 0xFF7FFFFFFFFFFFFF#64
def maskA : CommandWord := 0xFFF00000FFFFFFFF#64
def maskV : CommandWord := 0xFFFFFFFF00000000#64
def maskMV : CommandWord := 0xFF7FFFFF00000000#64
def maskMA : CommandWord := 0xFF700000FFFFFFFF#64
def maskAV : CommandWord := 0xFFF0000000000000#64

/-- spec/opcode_table.json, rows `NOP` to `BLK_DESERIALIZE`. -/
def tableLow : List TableRow :=
  [⟨0x0000000000000000#64, maskNone, 2 ^ 20, fun _ => .nop⟩,
   ⟨0x0100000000000000#64, maskNone, 2 ^ 20, fun _ => .reset⟩,
   ⟨0x0200000000000000#64, maskNone, 2 ^ 20, fun _ => .statusGet⟩,
   ⟨0x0300000000000000#64, maskNone, 2 ^ 20, fun _ => .statusClr⟩,
   ⟨0x0400000000000000#64, maskA, 3, fun w => .sysGet (wordA w)⟩,
   ⟨0x1000000000000000#64, maskM, 2 ^ 20, fun w => .hdrPack (wordClass w)⟩,
   ⟨0x1100000000000000#64, maskM, 2 ^ 20, fun w => .hdrUnpack (wordClass w)⟩,
   ⟨0x2000000000000000#64, maskM, 2 ^ 20, fun w => .cksumCompute (wordClass w)⟩,
   ⟨0x2100000000000000#64, maskM, 2 ^ 20, fun w => .cksumStamp (wordClass w)⟩,
   ⟨0x2200000000000000#64, maskM, 2 ^ 20, fun w => .cksumVerify (wordClass w)⟩,
   ⟨0x3000000000000000#64, maskV, 2 ^ 20, fun w => .blkAppend (wordV w)⟩,
   ⟨0x3100000000000000#64, maskNone, 2 ^ 20, fun _ => .blkClear⟩,
   ⟨0x3200000000000000#64, maskM, 2 ^ 20, fun w => .blkSerialize (wordClass w)⟩,
   ⟨0x3300000000000000#64, maskM, 2 ^ 20, fun w => .blkDeserialize (wordClass w)⟩]

/-- spec/opcode_table.json, rows `GET_PRIORITY` to `GET_BLOCK_DATA`. -/
def tableMid : List TableRow :=
  [⟨0x4000000000000000#64, maskM, 2 ^ 20, fun w => .getPriority (wordClass w)⟩,
   ⟨0x4100000000000000#64, maskMV, 2 ^ 20, fun w => .setPriority (wordClass w) (wordV w)⟩,
   ⟨0x4200000000000000#64, maskM, 2 ^ 20, fun w => .getHopLimit (wordClass w)⟩,
   ⟨0x4300000000000000#64, maskM, 2 ^ 20, fun w => .addHopLimit (wordClass w)⟩,
   ⟨0x4400000000000000#64, maskM, 2 ^ 20, fun w => .getHeartRate (wordClass w)⟩,
   ⟨0x4500000000000000#64, maskMV, 2 ^ 20, fun w => .setHeartRate (wordClass w) (wordV w)⟩,
   ⟨0x4600000000000000#64, maskM, 2 ^ 20, fun w => .getSrc (wordClass w)⟩,
   ⟨0x4700000000000000#64, maskMV, 2 ^ 20, fun w => .setSrc (wordClass w) (wordV w)⟩,
   ⟨0x4800000000000000#64, maskM, 2 ^ 20, fun w => .getDst (wordClass w)⟩,
   ⟨0x4900000000000000#64, maskMV, 2 ^ 20, fun w => .setDst (wordClass w) (wordV w)⟩,
   ⟨0x4A00000000000000#64, maskM, 2 ^ 20, fun w => .getLen (wordClass w)⟩,
   ⟨0x4B00000000000000#64, maskMV, 2 ^ 20, fun w => .setLen (wordClass w) (wordV w)⟩,
   ⟨0x4C00000000000000#64, maskM, 2 ^ 20, fun w => .getChecksum (wordClass w)⟩,
   ⟨0x4D00000000000000#64, maskMV, 2 ^ 20, fun w => .setChecksum (wordClass w) (wordV w)⟩,
   ⟨0x4E00000000000000#64, maskNone, 2 ^ 20, fun _ => .isMicro⟩,
   ⟨0x5000000000000000#64, maskMA, 2 ^ 20, fun w => .getBlockNext (wordClass w) (wordA w)⟩,
   ⟨0x5100000000000000#64, maskMA, 2 ^ 20, fun w => .getBlockLen (wordClass w) (wordA w)⟩,
   ⟨0x5200000000000000#64, maskMA, 2 ^ 20, fun w => .getBlockData (wordClass w) (wordA w)⟩]

/-- spec/opcode_table.json, rows `DUMP` to `BLK_BYTE`. -/
def tableHigh : List TableRow :=
  [⟨0x6000000000000000#64, maskNone, 2 ^ 20, fun _ => .dump⟩,
   ⟨0x6100000000000000#64, maskNone, 2 ^ 20, fun _ => .load⟩,
   ⟨0x7000000000000000#64, maskA, 9, fun w => .hrGet (wordA w)⟩,
   ⟨0x7100000000000000#64, maskAV, 9, fun w => .hrSet (wordA w) (wordV w)⟩,
   ⟨0x7200000000000000#64, maskA, 2 ^ 20, fun w => .fbRead (wordA w)⟩,
   ⟨0x7300000000000000#64, maskAV, 2 ^ 20, fun w => .fbWrite (wordA w) (wordV w)⟩,
   ⟨0x7400000000000000#64, maskA, 2 ^ 20, fun w => .fbSetlen (wordA w)⟩,
   ⟨0x7500000000000000#64, maskNone, 2 ^ 20, fun _ => .dbClear⟩,
   ⟨0x7600000000000000#64, maskV, 2 ^ 20, fun w => .dbPush (wordV w)⟩,
   ⟨0x7700000000000000#64, maskA, 2 ^ 20, fun w => .blkType (wordA w)⟩,
   ⟨0x7800000000000000#64, maskA, 2 ^ 20, fun w => .blkLen (wordA w)⟩,
   ⟨0x7900000000000000#64, maskAV, 2 ^ 20, fun w => .blkByte (wordA w) (wordV w)⟩]

/-- The 44 rows of spec/opcode_table.json. -/
def table : List TableRow := tableLow ++ tableMid ++ tableHigh

/-- `w` is a word of the row: it matches under the mask and its selector is in the table (R75). -/
def TableRow.Takes (r : TableRow) (w : CommandWord) : Prop :=
  w &&& r.mask = r.value ∧ (wordA w).toNat < r.selectors

/-- The `type`, `len` and `next` fields of the sub-header at offset `o` of a payload region (R50, R51); the micro class
has no `next`. -/
def typeAt (p : List Byte) (o : Nat) : SizeClass → Nat
  | .full => (p.getD o 0).toNat * 256 + (p.getD (o + 1) 0).toNat
  | .micro => (p.getD o 0).toNat

def lenAt (p : List Byte) (o : Nat) : SizeClass → Nat
  | .full => (p.getD (o + 2) 0).toNat * 256 + (p.getD (o + 3) 0).toNat
  | .micro => (p.getD (o + 1) 0).toNat

def nextAt (p : List Byte) (o : Nat) : Nat := (p.getD (o + 4) 0).toNat * 256 + (p.getD (o + 5) 0).toNat

/-- The end of the block at `o`: `o + SH(m) + len`. -/
def endAt (p : List Byte) (o : Nat) (m : SizeClass) : Nat := o + subHeaderWidth m + lenAt p o m

/-- R134 check 3: `next` is the canonical value of R52. -/
def NextCanonical (p : List Byte) (o : Nat) (m : SizeClass) : Prop :=
  m = .full → nextAt p o = if endAt p o m < p.length then endAt p o m else 0

/-- R134 check 4 fails: the chain or its data is full. -/
def ChainFull (c : Config) (p : List Byte) (o total count : Nat) (m : SizeClass) : Prop :=
  count = c.nblkMax ∨ c.bcDataMax < total + lenAt p o m

/-- The block walk of R134 from offset `o` with the blocks `out` found so far, and what it ends in,
under the capacities of `c`. -/
inductive Walk (c : Config) (m : SizeClass) (p : List Byte) : Nat → Nat → List Block → Except Cause (List Block) → Prop
  | done {o total out} (h : p.length ≤ o) : Walk c m p o total out (.ok out)
  | cut {o total out} (h : o < p.length) (h1 : p.length < o + subHeaderWidth m) :
      Walk c m p o total out (.error .truncatedBlock)
  | overrun {o total out} (h : o < p.length) (h1 : o + subHeaderWidth m ≤ p.length)
      (h2 : p.length < endAt p o m) : Walk c m p o total out (.error .truncatedBlock)
  | badNext {o total out} (h : o < p.length) (h2 : endAt p o m ≤ p.length) (h3 : ¬ NextCanonical p o m) :
      Walk c m p o total out (.error .malformedPayload)
  | full {o total out} (h : o < p.length) (h2 : endAt p o m ≤ p.length) (h3 : NextCanonical p o m)
      (h4 : ChainFull c p o total out.length m) : Walk c m p o total out (.error .rangeError)
  | block {o total out r} (h : o < p.length) (h2 : endAt p o m ≤ p.length) (h3 : NextCanonical p o m)
      (h4 : ¬ ChainFull c p o total out.length m)
      (rest : Walk c m p (endAt p o m) (total + lenAt p o m)
        (out ++ [⟨BitVec.ofNat 16 (typeAt p o m), (p.drop (o + subHeaderWidth m)).take (lenAt p o m)⟩]) r) :
      Walk c m p o total out r

/-- The two states differ at most in bytes of `FB` at and above `FLEN`. -/
def AgreeBelowFlen (s t : State) : Prop :=
  { s with fb := [] } = { t with fb := [] } ∧ ∀ a, a < s.flen → s.fb.read a = t.fb.read a

/-- What a command that succeeds may do: whether it may write `HR` (R21), `BC` (R26), `DB` (R27), `FB` or `FLEN`
(R31, R54, R201, R207 to R209), and whether it sets `CKV`, clears it, or (none) leaves it alone (R31). -/
structure Effects where
  hr : Bool
  bc : Bool
  db : Bool
  fb : Bool
  ckv : Option Bool
  deriving DecidableEq, Repr

/-- A command that writes `STATUS` at most. -/
def nothing : Effects := { hr := false, bc := false, db := false, fb := false, ckv := none }

/-- The lists of R21, R26, R27 and R31, command by command. -/
def effects : Instr → Effects
  | .nop => nothing
  | .reset => { hr := true, bc := true, db := true, fb := true, ckv := some false }
  | .statusGet => nothing
  | .statusClr => nothing
  | .sysGet _ => nothing
  | .hdrPack _ => { nothing with fb := true, ckv := some false }
  | .hdrUnpack _ => { nothing with hr := true }
  | .cksumCompute _ => nothing
  | .cksumStamp _ => { nothing with fb := true, ckv := some true }
  | .cksumVerify _ => { nothing with ckv := some true }
  | .blkAppend _ => { nothing with bc := true, db := true }
  | .blkClear => { nothing with bc := true }
  | .blkSerialize _ => { nothing with fb := true, ckv := some false }
  | .blkDeserialize _ => { nothing with bc := true }
  | .getPriority _ => nothing
  | .setPriority _ _ => { nothing with fb := true, ckv := some false }
  | .getHopLimit _ => nothing
  | .addHopLimit _ => { nothing with fb := true, ckv := some false }
  | .getHeartRate _ => nothing
  | .setHeartRate _ _ => { nothing with fb := true, ckv := some false }
  | .getSrc _ => nothing
  | .setSrc _ _ => { nothing with fb := true, ckv := some false }
  | .getDst _ => nothing
  | .setDst _ _ => { nothing with fb := true, ckv := some false }
  | .getLen _ => nothing
  | .setLen _ _ => { nothing with fb := true, ckv := some false }
  | .getChecksum _ => nothing
  | .setChecksum _ _ => { nothing with fb := true, ckv := some false }
  | .isMicro => nothing
  | .getBlockNext _ _ => nothing
  | .getBlockLen _ _ => nothing
  | .getBlockData _ _ => nothing
  | .dump => { nothing with hr := true, fb := true, ckv := some true }
  | .load => { nothing with hr := true, bc := true, ckv := some true }
  | .hrGet _ => nothing
  | .hrSet _ _ => { nothing with hr := true }
  | .fbRead _ => nothing
  | .fbWrite _ _ => { nothing with fb := true, ckv := some false }
  | .fbSetlen _ => { nothing with fb := true, ckv := some false }
  | .dbClear => { nothing with db := true }
  | .dbPush _ => { nothing with db := true }
  | .blkType _ => nothing
  | .blkLen _ => nothing
  | .blkByte _ _ => nothing

/-- The `cfg_hdr` code of a class (R10): `CFG_FULL`, `CFG_MICRO`. -/
def cfgOf (s : State) : SizeClass → BitVec 2
  | .full => s.config.cfgFull
  | .micro => s.config.cfgMicro

/-- The two `cfg_hdr` codes are distinct (R10), as in every state that meets `Inv`. -/
abbrev CodesDistinct (s : State) : Prop := s.config.cfgFull ≠ s.config.cfgMicro

/-- `FB[lo .. lo+n-1]`. -/
def bytesAt (s : State) (lo n : Nat) : List Byte := (List.range n).map fun k => s.fb.read (lo + k)

/-- `region(m)` (R111): `FB[0 .. CO(m)-1] ++ FB[CO(m)+2 .. FLEN-1]`, with `CO(m) + 2 = HW(m)`. -/
def checked (m : SizeClass) (s : State) : List Byte :=
  bytesAt s 0 (checksumOffset m) ++ bytesAt s (headerWidth m) (s.flen - headerWidth m)

/-- `FB[CO(m)] << 8 | FB[CO(m)+1]`: the embedded checksum. -/
def embedded (m : SizeClass) (s : State) : BitVec 16 :=
  s.fb.read (checksumOffset m) ++ s.fb.read (checksumOffset m + 1)

/-- The wire `len` field `L`: `MemRead(12, 2) if m = 0 else MemRead(7, 1)` (R135 line 2). -/
def declaredLen (m : SizeClass) (s : State) : Nat :=
  match m with
  | .full => s.memRead 12 2
  | .micro => s.memRead 7 1

/-- `P = min(L, FLEN - HW(m))` (R166 line 3). -/
def presentLen (m : SizeClass) (s : State) : Nat := min (declaredLen m s) (s.flen - headerWidth m)

/-- `cfg_hdr` of the frame: `FB[1][4:3]` (R44). -/
def wireCfg (s : State) : BitVec 2 := (s.fb.read 1).extractLsb' 3 2

/-- A `GET_*` command of a whole-byte field (R150): header check, then `MemRead` of the field, zero-extended. -/
def Getter (op : Nat) (f : WireField) (i : SizeClass → Instr) : Prop :=
  ∀ (m : SizeClass) (s : State),
    encode (i m) = word op (num m) 0 0 ∧
    (s.flen < headerWidth m → exec (i m) s = .next (err s 0x01)) ∧
    (headerWidth m ≤ s.flen →
      exec (i m) s = .next (ok s (BitVec.ofNat 32 (s.memRead (fieldAt f m).1 (fieldAt f m).2))))

/-- A `SET_*` command of a whole-byte field (R150, R77): header check, range check, then the field's bytes are written
big-endian at the field's address, every other byte kept, `CKV <- 0`, value 0. -/
def Setter (op : Nat) (f : WireField) (i : SizeClass → BitVec 32 → Instr) : Prop :=
  ∀ (m : SizeClass) (v : BitVec 32) (s : State),
    encode (i m v) = word op (num m) 0 v.toNat ∧
    (s.flen < headerWidth m → exec (i m v) s = .next (err s 0x01)) ∧
    (headerWidth m ≤ s.flen → 2 ^ (8 * (fieldAt f m).2) ≤ v.toNat → exec (i m v) s = .next (err s 0x06)) ∧
    (headerWidth m ≤ s.flen → v.toNat < 2 ^ (8 * (fieldAt f m).2) →
      ∃ mem : Memory,
        Stores s.fb mem (fieldAt f m).1
          ((List.range (fieldAt f m).2).map fun k => (v >>> (8 * ((fieldAt f m).2 - 1 - k))).setWidth 8) ∧
        exec (i m v) s = .next (ok (ckvTo { s with fb := mem } false) 0))

/-- A `SET_*` that succeeded with `v` is read back by its `GET_*` as `v`. -/
def ReadsBack (set : SizeClass → BitVec 32 → Instr) (get : SizeClass → Instr) : Prop :=
  ∀ (m : SizeClass) (v : BitVec 32) (s t : State),
    exec (set m v) s = .next t → t.responses = s.responses ++ [reply 0x00 0] → exec (get m) t = .next (ok t v)

/-- The header of `h` fits the narrow fields of the micro class, `len` apart (R190 line 4). -/
def IdsFit (h : Header) (m : SizeClass) : Prop :=
  m = .micro → h.heartRate.toNat < 256 ∧ h.srcId.toNat < 65536 ∧ h.dstId.toNat < 65536

/-- The header `h` fits class `m` (R91 line 2). -/
def Fits (h : Header) (m : SizeClass) : Prop := IdsFit h m ∧ (m = .micro → h.len.toNat < 256)

/-- Every block fits class `m` (R133 line 1). -/
def BlocksFit (bc : List Block) (m : SizeClass) : Prop :=
  m = .micro → ∀ b ∈ bc, b.type.toNat < 256 ∧ b.data.length < 256

/-- The chain's serialization fits the `len` field of class `m` and the frame buffer of `c` (R133 line 2). -/
def LengthFits (c : Config) (bc : List Block) (m : SizeClass) : Prop :=
  payloadLength m bc ≤ lenMax m ∧ headerWidth m + payloadLength m bc ≤ c.fbSize

/-- The chain is within the capacities of `c` (R24): so is the chain of every state that meets `Inv`. -/
def ChainFits (c : Config) (bc : List Block) : Prop :=
  bc.length ≤ c.nblkMax ∧ dataTotal bc ≤ c.bcDataMax

/-- The sub-header of a block whose `next` is `nxt` (R50, R51). -/
def subHeaderBytes (m : SizeClass) (b : Block) (nxt : Nat) : List Byte :=
  match m with
  | .full =>
    [b.type.extractLsb' 8 8, b.type.extractLsb' 0 8, BitVec.ofNat 8 (b.data.length / 256),
     BitVec.ofNat 8 b.data.length, BitVec.ofNat 8 (nxt / 256), BitVec.ofNat 8 nxt]
  | .micro => [b.type.extractLsb' 0 8, BitVec.ofNat 8 b.data.length]

/-- One bit of a message into the CRC register, the bit fed in at the top. -/
def serialBit (c : BitVec 16) (b : Bool) : BitVec 16 :=
  if c.msb != b then (c <<< 1) ^^^ 0x1021#16 else c <<< 1

/-- The bits of a byte sequence, each byte most significant bit first. -/
def bitsOf (bytes : List Byte) : List Bool := bytes.flatMap fun b => (List.range 8).map fun k => b.getLsbD (7 - k)

end Sys2Proof.Statement

open Sys2Proof Sys2Proof.Machine Sys2Proof.Statement

/-! ### Encoding and decoding -/

/-- R71, R74, R79: words written out from the encoding decode to the commands they stand for (the words of
95_test_vectors.md V1 and of the rules' examples), and illegal ones do not decode. -/
def Obligations.SpecWordsDecode : Prop :=
  decode 0x0000000000000000#64 = .ok .nop ∧
  decode 0x0400000200000000#64 = .ok (.sysGet 2) ∧
  decode 0x1080000000000000#64 = .ok (.hdrPack .micro) ∧
  decode 0x2100000000000000#64 = .ok (.cksumStamp .full) ∧
  decode 0x300000000000FFFF#64 = .ok (.blkAppend 0xFFFF) ∧
  decode 0x478000000000BEEF#64 = .ok (.setSrc .micro 0xBEEF) ∧
  decode 0x5080000400000000#64 = .ok (.getBlockNext .micro 4) ∧
  decode 0x6000000000000000#64 = .ok .dump ∧
  decode 0x6100000000000000#64 = .ok .load ∧
  decode 0x71000005A1B2C3D4#64 = .ok (.hrSet 5 0xA1B2C3D4) ∧
  decode 0x7301000E000000FF#64 = .ok (.fbWrite 65550 0xFF) ∧
  decode 0x7900000100000002#64 = .ok (.blkByte 1 2) ∧
  decode 0xFFFFFFFFFFFFFFFF#64 = .error .unassignedOpcode ∧
  decode 0x0010000000000000#64 = .error .zeroFieldNotZero ∧
  decode 0x6080000000000000#64 = .error .unusedClassNotZero ∧
  decode 0x6100000100000000#64 = .error .unusedAddressNotZero ∧
  decode 0x0200000000000001#64 = .error .unusedValueNotZero ∧
  decode 0x7000000900000000#64 = .error .selectorOutOfTable

/-- R73, R74, R83: decoding the word of a well-formed command gives the command back, with every operand value. -/
def Obligations.DecodeOfEncodeIsTheInstruction : Prop :=
  ∀ i : Instr, i.wellFormed = true → decode (encode i) = .ok i

/-- R73, R83: a word that decodes is the word of the command it decodes to, and that command is well-formed: no bit of a
legal word is ignored. -/
def Obligations.EncodeOfDecodeIsTheWord : Prop :=
  ∀ (w : CommandWord) (i : Instr), decode w = .ok i → encode i = w ∧ i.wellFormed = true

/-- R73 to R76, R79: a word decodes to a command exactly when it matches a row of spec/opcode_table.json under the row's
mask, its selector is in the table, and the command is the row's with the word's operands. -/
def Obligations.DecodeFollowsTheOpcodeTable : Prop :=
  ∀ (w : CommandWord) (i : Instr), decode w = .ok i ↔ ∃ r ∈ table, r.Takes w ∧ i = r.command w

/-! ### The step, the responses and the status register -/

/-- R4, R36: the oldest presented command word is taken, and when it decodes the step is the command's meaning, with nothing
around it. That the words wait in the state, and that with no command presented a step changes nothing, is the model's choice
(assumption log 1). -/
def Obligations.StepRunsTheDecodedCommand : Prop :=
  (∀ (s : State) (w : CommandWord) (rest : List CommandWord) (i : Instr),
    s.commands = w :: rest → decode w = .ok i → step s = exec i { s with commands := rest }) ∧
  ∀ s : State, s.commands = [] → step s = .next s

/-- R80 (with R73): a word that does not decode is answered with IllegalCommand, response code 0x07 and value 0, and
changes no state but `STATUS`. -/
def Obligations.StepAnswersAnIllegalWord : Prop :=
  ∀ (s : State) (w : CommandWord) (rest : List CommandWord),
    s.commands = w :: rest → (∀ i, decode w ≠ .ok i) → step s = .next (err { s with commands := rest } 0x07)

/-- R4, R6, R70: the presented command words run to their end, oldest first, each answered by exactly one response word, the
responses in the order of the commands; the core never halts by itself. After `k` steps `k` words are gone and `k` responses
have come. -/
def Obligations.EveryCommandWordGetsOneResponse : Prop :=
  ∀ (k : Nat) (s : State), k ≤ s.commands.length →
    ∃ (t : State) (rs : List ResponseWord), Sys2Proof.core.run k s = .next t ∧
      t.commands = s.commands.drop k ∧ t.responses = s.responses ++ rs ∧ rs.length = k

/-- R72, R230, R233: the response code of every command word is 0x00, a bare cause, or a cause wrapped by `LOAD`; InvalidPriority
(4) and the causes 8 to 15 are never produced; the value of an error is 0; a word that does not decode gives 0x07, whatever its
opcode. `DE = 1` exactly when the command is `LOAD` and its cause is 1, 2, 3, 5 or 6; `STATUS.LASTDE` copies the bit (but for a successful `STATUS_GET`, which updates nothing, R32). -/
def Obligations.ResponseCodesAndTheWrapper : Prop :=
  ∀ (w : CommandWord) (s t : State), execWord w s = .next t →
    ∃ (code : BitVec 8) (v : BitVec 32), t.responses = s.responses ++ [reply code v] ∧
      code ∈ [0x00#8, 0x01#8, 0x02#8, 0x03#8, 0x05#8, 0x06#8, 0x07#8, 0x81#8, 0x82#8, 0x83#8, 0x85#8, 0x86#8] ∧
      (code ≠ 0x00 → v = 0) ∧
      ((∀ i, decode w ≠ .ok i) → code = 0x07) ∧
      (code.msb = true ↔ decode w = .ok .load ∧ causeOf code ∈ [1#4, 2#4, 3#4, 5#4, 6#4]) ∧
      (decode w ≠ .ok .statusGet → t.status.lastDE = code.msb)

/-- R235, R236: a command whose response carries a cause other than OK has changed nothing but `STATUS`: the state it leaves
is the state it found with `LAST`, `LASTDE`, `ERRS` written, `CKV` cleared on ChecksumMismatch, and the response of value 0. -/
def Obligations.ErrorChangesNothingButStatus : Prop :=
  ∀ (w : CommandWord) (s t : State), execWord w s = .next t →
    ∃ (code : BitVec 8) (v : BitVec 32), t.responses = s.responses ++ [reply code v] ∧
      (causeOf code ≠ 0 → t = err s code)

/-- R32: at the end of every command word but a successful `STATUS_GET`, `LAST` is the cause, `LASTDE` the `DE` bit of the
response, and `ERRS` is set when the cause is not OK, else kept, but for `STATUS_CLR` and `RESET`, which clear it; a
`STATUS_GET` that succeeds leaves `STATUS` as it is. An undecodable word is a command for this rule. -/
def Obligations.StatusUpdateOfEveryCommand : Prop :=
  ∀ (w : CommandWord) (s t : State) (code : BitVec 8) (v : BitVec 32),
    execWord w s = .next t → t.responses = s.responses ++ [reply code v] →
      (decode w = .ok .statusGet → t.status = s.status) ∧
      (decode w ≠ .ok .statusGet →
        t.status.last = causeOf code ∧ t.status.lastDE = code.msb ∧
        (t.status.errs = true ↔ causeOf code ≠ 0 ∨
          (s.status.errs = true ∧ decode w ≠ .ok .statusClr ∧ decode w ≠ .ok .reset)))

/-- R31: what every command does to `CKV`: on success set by the four checksum commands, cleared by every other command that
writes `FB` or `FLEN` and by `RESET`, else kept; on an error cleared by ChecksumMismatch, else kept. -/
def Obligations.CkvUpdateOfEveryCommand : Prop :=
  ∀ (i : Instr) (s t : State) (code : BitVec 8) (v : BitVec 32),
    exec i s = .next t → t.responses = s.responses ++ [reply code v] →
      (causeOf code = 0 → t.status.ckv = (effects i).ckv.getD s.status.ckv) ∧
      (causeOf code = 3 → t.status.ckv = false) ∧
      (causeOf code ≠ 0 → causeOf code ≠ 3 → t.status.ckv = s.status.ckv)

/-! ### Reset and invariants -/

/-- R37: the reset state, under any parameters whose `CFG_FULL` is the default 0, the default parameters among them: the nine
fields of `HR` zero, which is `CFG_FULL`, `BC` and `DB` empty, `FLEN = 0`, every field of `STATUS` zero. -/
def Obligations.ResetStateIsAllZero : Prop :=
  ∀ s : State, s = State.reset ∨ (∃ c : Config, c.cfgFull = 0 ∧ s = State.resetWith c) →
    s.hr = ⟨0, 0, 0, 0, 0, 0, 0, 0, 0⟩ ∧ s.hr.cfgHdr = cfgOf s .full ∧ s.bc = [] ∧
    s.db = [] ∧ s.flen = 0 ∧ s.status = ⟨0, false, false, false⟩

/-- The reset state meets the invariant, under the default parameters and under any legal ones (R10, R11, R110). -/
def Obligations.ResetMeetsTheInvariant : Prop :=
  Inv State.reset ∧ ∀ c : Config, c.Legal → Inv (State.resetWith c)

/-- R10, R11, R24, R27 to R29, R110, R230, R232: every step keeps the invariant: the parameters legal, the frame buffer canonical
and listed only below `FLEN`, the capacities respected, every block's `len` a 16-bit number, `LAST` a code the core produces,
and the sticky flag and the wrapper bit consistent with it. The canonical form and the cut at `FLEN` are the model's representation (assumption log 5 and 6). -/
def Obligations.StepKeepsTheInvariant : Prop := ∀ s t : State, Inv s → step s = .next t → Inv t

/-- R31: every step keeps the meaning of `CKV`: when it is 1 the frame carries a correct checksum under some class. -/
def Obligations.CkvMeansTheEmbeddedChecksumIsRight : Prop :=
  ∀ s t : State, CkvSound s → step s = .next t → CkvSound t

/-- R29: no command reads a byte of `FB` at or above `FLEN` and no rule depends on it: two states that differ only in such bytes
step to two states that differ only in such bytes, with the same responses. -/
def Obligations.BytesAboveFlenAreNeverObserved : Prop :=
  ∀ s s' t : State, AgreeBelowFlen s s' → step s = .next t → ∃ t', step s' = .next t' ∧ AgreeBelowFlen t t'

/-- R21, R26, R27, R31: which commands write which part of the state; any other command leaves the part, `FB` with `FLEN`
byte for byte, as it was. No command writes the parameters (R10, R11, R12; assumption log 4). -/
def Obligations.OnlyTheListedCommandsWrite : Prop :=
  ∀ (i : Instr) (s t : State), exec i s = .next t →
    t.commands = s.commands ∧ t.config = s.config ∧
    ((effects i).hr = false → t.hr = s.hr) ∧
    ((effects i).bc = false → t.bc = s.bc) ∧
    ((effects i).db = false → t.db = s.db) ∧
    ((effects i).fb = false → t.flen = s.flen ∧ ∀ a, t.fb.read a = s.fb.read a)

/-! ### Tables and byte order -/

/-- R9, R10, R11, R12, R150, R230: the per-class constants (in both classes the checksum is the last two bytes of the header),
the field address table, the numbers of the causes, and the defaults of the parameters, which the reset state has and which are legal. -/
def Obligations.ConstantsAreTheTables : Prop :=
  (State.reset.config =
      { fbSize := 65551, dbMax := 65535, nblkMax := 10922, bcDataMax := 65535, checksum := .crc16, cfgFull := 0b00,
        cfgMicro := 0b01 } ∧
    State.reset.config.Legal) ∧
  (headerWidth .full = 16 ∧ headerWidth .micro = 10 ∧ checksumOffset .full = 14 ∧ checksumOffset .micro = 8 ∧
    subHeaderWidth .full = 6 ∧ subHeaderWidth .micro = 2 ∧ lenMax .full = 65535 ∧ lenMax .micro = 255 ∧
    blockTypeWidth .full = 2 ∧ blockTypeWidth .micro = 1 ∧ blockLenWidth .full = 2 ∧ blockLenWidth .micro = 1 ∧
    ∀ m, checksumOffset m + 2 = headerWidth m) ∧
  (fieldAt .hopLimit .full = (0, 1) ∧ fieldAt .hopLimit .micro = (0, 1) ∧
    fieldAt .byte1 .full = (1, 1) ∧ fieldAt .byte1 .micro = (1, 1) ∧
    fieldAt .heartRate .full = (2, 2) ∧ fieldAt .heartRate .micro = (2, 1) ∧
    fieldAt .srcId .full = (4, 4) ∧ fieldAt .srcId .micro = (3, 2) ∧
    fieldAt .dstId .full = (8, 4) ∧ fieldAt .dstId .micro = (5, 2) ∧
    fieldAt .len .full = (12, 2) ∧ fieldAt .len .micro = (7, 1) ∧
    fieldAt .checkSum .full = (14, 2) ∧ fieldAt .checkSum .micro = (8, 2)) ∧
  (Cause.code .malformedHeader = 1 ∧ Cause.code .truncatedBlock = 2 ∧ Cause.code .checksumMismatch = 3 ∧
    Cause.code .invalidPriority = 4 ∧ Cause.code .malformedPayload = 5 ∧ Cause.code .rangeError = 6 ∧
    Cause.code .illegalCommand = 7)

/-- R40: `MemRead` is the sum of the bytes, the first the most significant; `MemWrite` stores byte `k` of `n` as
`(v >> (8*(n-1-k))) & 0xFF` and touches no other byte; for `n` in 1, 2, 4. -/
def Obligations.MultiByteAccessIsBigEndian : Prop :=
  ∀ (s : State) (addr v n : Nat), n = 1 ∨ n = 2 ∨ n = 4 →
    s.memRead addr n = ((List.range n).map fun k => (s.fb.read (addr + k)).toNat <<< (8 * (n - 1 - k))).sum ∧
    ∃ mem : Memory, s.memWrite addr n v = { s with fb := mem } ∧
      Stores s.fb mem addr ((List.range n).map fun k => BitVec.ofNat 8 ((v >>> (8 * (n - 1 - k))) &&& 0xFF))

/-! ### System commands -/

/-- R200, R201, R202, R203: `NOP` succeeds with value 0 and writes only `LAST` and `LASTDE`; `RESET` leaves `HR`
zero, `BC` and `DB` empty, `FLEN = 0` and `STATUS` zero, whatever they were, and answers 0; `STATUS_GET` returns
`CKV << 6 | ERRS << 5 | LASTDE << 4 | LAST` and changes no state; `STATUS_CLR` clears `ERRS`, `LAST` and `LASTDE`, keeps
`CKV` and answers 0. Of the bytes of `FB` after `RESET` nothing is said (R29, R37). That `RESET` keeps the words presented,
the responses given and the parameters, which are fields of the model's own, is the model's choice (assumption log 1, 2
and 4). -/
def Obligations.SystemCommandResults : Prop :=
  encode .nop = word 0x00 0 0 0 ∧ encode .reset = word 0x01 0 0 0 ∧
  encode .statusGet = word 0x02 0 0 0 ∧ encode .statusClr = word 0x03 0 0 0 ∧
  ∀ s : State,
    exec .nop s = .next (ok s 0) ∧
    (∃ mem : Memory, exec .reset s = .next { s with
      hr := ⟨0, 0, 0, 0, 0, 0, 0, 0, 0⟩, bc := [], db := [], fb := mem, flen := 0, status := ⟨0, false, false, false⟩,
      responses := s.responses ++ [reply 0x00 0] }) ∧
    exec .statusGet s = .next { s with responses := s.responses ++ [reply 0x00
      (BitVec.ofNat 32 (s.status.ckv.toNat <<< 6 ||| s.status.errs.toNat <<< 5 ||| s.status.lastDE.toNat <<< 4
        ||| s.status.last.toNat))] } ∧
    exec .statusClr s = .next { s with
      status := ⟨0, false, false, s.status.ckv⟩, responses := s.responses ++ [reply 0x00 0] }

/-- R204: `SYS_GET` returns `FLEN`, `DLEN` or `NBLK` and writes only `STATUS`; the word of a selector of 3 or above does not
decode (so it is IllegalCommand, R73 item 6). Of the value of an `NBLK` that 32 bits do not hold nothing is said. -/
def Obligations.SysGetReturnsTheLengths : Prop :=
  ∀ (s : State) (sel : BitVec 20),
    encode (.sysGet sel) = word 0x04 0 sel.toNat 0 ∧
    (sel.toNat = 0 → exec (.sysGet sel) s = .next (ok s (BitVec.ofNat 32 s.flen))) ∧
    (sel.toNat = 1 → exec (.sysGet sel) s = .next (ok s (BitVec.ofNat 32 s.db.length))) ∧
    (sel.toNat = 2 → ∃ v : BitVec 32, (s.bc.length < 2 ^ 32 → v.toNat = s.bc.length) ∧
      exec (.sysGet sel) s = .next (ok s v)) ∧
    (3 ≤ sel.toNat → ∀ i, decode (encode (.sysGet sel)) ≠ .ok i)

/-! ### Header codec -/

/-- R90, R43 to R46: `pack`, byte by byte, in both classes. -/
def Obligations.PackIsTheWireLayout : Prop :=
  ∀ h : Header,
    pack h .full =
      [h.hopLimit, BitVec.ofNat 8 (h.earmark.toNat <<< 5 ||| h.cfgHdr.toNat <<< 3 ||| h.priority.toNat),
       h.heartRate.extractLsb' 8 8, h.heartRate.extractLsb' 0 8,
       h.srcId.extractLsb' 24 8, h.srcId.extractLsb' 16 8, h.srcId.extractLsb' 8 8, h.srcId.extractLsb' 0 8,
       h.dstId.extractLsb' 24 8, h.dstId.extractLsb' 16 8, h.dstId.extractLsb' 8 8, h.dstId.extractLsb' 0 8,
       h.len.extractLsb' 8 8, h.len.extractLsb' 0 8,
       h.checkSum.extractLsb' 8 8, h.checkSum.extractLsb' 0 8] ∧
    (Fits h .micro → pack h .micro =
      [h.hopLimit, BitVec.ofNat 8 (h.earmark.toNat <<< 5 ||| h.cfgHdr.toNat <<< 3 ||| h.priority.toNat),
       BitVec.ofNat 8 h.heartRate.toNat,
       h.srcId.extractLsb' 8 8, h.srcId.extractLsb' 0 8, h.dstId.extractLsb' 8 8, h.dstId.extractLsb' 0 8,
       BitVec.ofNat 8 h.len.toNat, h.checkSum.extractLsb' 8 8, h.checkSum.extractLsb' 0 8])

/-- R100: `unpack`, field by field, in both classes; narrow fields are zero-extended and bytes after the header ignored. -/
def Obligations.UnpackIsTheWireLayout : Prop :=
  ∀ b : List Byte,
    (16 ≤ b.length → unpack b .full =
      { hopLimit := b.getD 0 0, earmark := (b.getD 1 0).extractLsb' 5 3, cfgHdr := (b.getD 1 0).extractLsb' 3 2,
        priority := (b.getD 1 0).extractLsb' 0 3, heartRate := b.getD 2 0 ++ b.getD 3 0,
        srcId := b.getD 4 0 ++ b.getD 5 0 ++ b.getD 6 0 ++ b.getD 7 0,
        dstId := b.getD 8 0 ++ b.getD 9 0 ++ b.getD 10 0 ++ b.getD 11 0,
        len := b.getD 12 0 ++ b.getD 13 0, checkSum := b.getD 14 0 ++ b.getD 15 0 }) ∧
    (10 ≤ b.length → unpack b .micro =
      { hopLimit := b.getD 0 0, earmark := (b.getD 1 0).extractLsb' 5 3, cfgHdr := (b.getD 1 0).extractLsb' 3 2,
        priority := (b.getD 1 0).extractLsb' 0 3, heartRate := (b.getD 2 0).setWidth 16,
        srcId := (b.getD 3 0 ++ b.getD 4 0).setWidth 32, dstId := (b.getD 5 0 ++ b.getD 6 0).setWidth 32,
        len := (b.getD 7 0).setWidth 16, checkSum := b.getD 8 0 ++ b.getD 9 0 })

/-- R92, R102: `pack` and `unpack` are inverse to each other between the headers that fit class `m` and the strings of `HW(m)`
bytes; so `pack` is injective on those headers. -/
def Obligations.PackAndUnpackAreInverse : Prop :=
  ∀ m : SizeClass,
    (∀ h : Header, Fits h m → (pack h m).length = headerWidth m ∧ unpack (pack h m) m = h) ∧
    (∀ h h' : Header, Fits h m → Fits h' m → pack h m = pack h' m → h = h') ∧
    (∀ b : List Byte, b.length = headerWidth m → Fits (unpack b m) m ∧ pack (unpack b m) m = b)

/-- R91: `HDR_PACK m`: MalformedHeader when `HR.cfg_hdr` does not name `m`, RangeError when a field does not fit, else
`pack(HR, m)` is stored from address 0, every other byte kept, `FLEN` raised to `HW(m)` if it was less, `CKV <- 0`, value `HW(m)`. -/
def Obligations.HdrPackResults : Prop :=
  ∀ (m : SizeClass) (s : State), CodesDistinct s →
    encode (.hdrPack m) = word 0x10 (num m) 0 0 ∧
    (s.hr.cfgHdr ≠ cfgOf s m → exec (.hdrPack m) s = .next (err s 0x01)) ∧
    (s.hr.cfgHdr = cfgOf s m → ¬ Fits s.hr m → exec (.hdrPack m) s = .next (err s 0x06)) ∧
    (s.hr.cfgHdr = cfgOf s m → Fits s.hr m →
      ∃ mem : Memory, Stores s.fb mem 0 (pack s.hr m) ∧
        exec (.hdrPack m) s = .next (ok (ckvTo { s with fb := mem, flen := max s.flen (headerWidth m) } false)
          (BitVec.ofNat 32 (headerWidth m))))

/-- R101: `HDR_UNPACK m`: MalformedHeader on a short buffer or a discriminator that does not name `m`, else all nine fields of
`HR` are those of the header bytes, value 0; nothing else changes. -/
def Obligations.HdrUnpackResults : Prop :=
  ∀ (m : SizeClass) (s : State), CodesDistinct s →
    encode (.hdrUnpack m) = word 0x11 (num m) 0 0 ∧
    (s.flen < headerWidth m → exec (.hdrUnpack m) s = .next (err s 0x01)) ∧
    (headerWidth m ≤ s.flen → wireCfg s ≠ cfgOf s m → exec (.hdrUnpack m) s = .next (err s 0x01)) ∧
    (headerWidth m ≤ s.flen → wireCfg s = cfgOf s m →
      exec (.hdrUnpack m) s = .next (ok { s with hr := unpack (bytesAt s 0 (headerWidth m)) m } 0))

/-! ### Checksum -/

/-- R112: the default `CKSUM` is the serial register of the generator `x^16 + x^12 + x^5 + 1` started at 0xFFFF and fed the bits of the bytes,
most significant bit of each byte first. -/
def Obligations.CksumIsTheSerialRegister : Prop :=
  ∀ c : Config, c.checksum = .crc16 → ∀ b : List Byte, c.cksum b = (bitsOf b).foldl serialBit 0xFFFF

/-- Under legal parameters `CKSUM`, the default of R112 or another, has the two properties that the model reads in R110
(assumption log 4): it depends on the order of the bytes, in that some byte sequence has a rearrangement with another value,
and it changes with every single bit of every byte sequence. For a replacement `Config.Legal` demands them. -/
def Obligations.LegalChecksumHasTheProperties : Prop :=
  ∀ c : Config, c.Legal → Config.OrderSensitive c.cksum ∧ Config.DetectsBitFlips c.cksum

/-- R113, R115: `CKSUM_COMPUTE m` returns the checksum of the region and changes nothing but `STATUS`; `CKSUM_VERIFY m` returns 1
and sets `CKV` when that is the embedded checksum, and is ChecksumMismatch with `CKV <- 0` when it is not; both are
MalformedHeader on a short buffer and neither writes `FB`. -/
def Obligations.CksumComputeAndVerifyResults : Prop :=
  ∀ (m : SizeClass) (s : State),
    encode (.cksumCompute m) = word 0x20 (num m) 0 0 ∧ encode (.cksumVerify m) = word 0x22 (num m) 0 0 ∧
    (s.flen < headerWidth m →
      exec (.cksumCompute m) s = .next (err s 0x01) ∧ exec (.cksumVerify m) s = .next (err s 0x01)) ∧
    (headerWidth m ≤ s.flen →
      exec (.cksumCompute m) s = .next (ok s ((s.config.cksum (checked m s)).setWidth 32))) ∧
    (headerWidth m ≤ s.flen → s.config.cksum (checked m s) = embedded m s →
      exec (.cksumVerify m) s = .next (ok (ckvTo s true) 1)) ∧
    (headerWidth m ≤ s.flen → s.config.cksum (checked m s) ≠ embedded m s →
      exec (.cksumVerify m) s = .next (err s 0x03))

/-- R114: `CKSUM_STAMP m` stores the checksum of the region, high byte first, at `CO(m)`, keeps every other byte, sets `CKV`
and returns the checksum; MalformedHeader on a short buffer. -/
def Obligations.CksumStampResults : Prop :=
  ∀ (m : SizeClass) (s : State),
    encode (.cksumStamp m) = word 0x21 (num m) 0 0 ∧
    (s.flen < headerWidth m → exec (.cksumStamp m) s = .next (err s 0x01)) ∧
    (headerWidth m ≤ s.flen →
      ∃ mem : Memory,
        Stores s.fb mem (checksumOffset m)
          [(s.config.cksum (checked m s)).extractLsb' 8 8, (s.config.cksum (checked m s)).extractLsb' 0 8] ∧
        exec (.cksumStamp m) s =
          .next (ok (ckvTo { s with fb := mem } true) ((s.config.cksum (checked m s)).setWidth 32)))

/-- R114 (corner case): after a stamp `CKSUM_VERIFY` with the same class succeeds, and a second stamp stores the same bytes. -/
def Obligations.StampThenVerifySucceeds : Prop :=
  ∀ (m : SizeClass) (s t : State), headerWidth m ≤ s.flen → exec (.cksumStamp m) s = .next t →
    exec (.cksumVerify m) t = .next (ok t 1) ∧
    ∃ u : State, exec (.cksumStamp m) t = .next u ∧ ∀ a, u.fb.read a = t.fb.read a

/-- R116, with the default `CKSUM` and with any other of which two byte sequences that differ in exactly one bit never have the
same value: two buffers of the same `FLEN >= HW(m)` that differ in exactly one bit, outside the checksum field, have different
checksums; and where `CKSUM_VERIFY m` succeeds on one of two that differ in exactly one bit, inside the field or outside, it
raises ChecksumMismatch on the other. -/
def Obligations.SingleBitFlipIsDetected : Prop :=
  ∀ (m : SizeClass) (s : State) (mem : Memory) (a k : Nat),
    s.config.checksum = .crc16 ∨ Config.DetectsBitFlips s.config.cksum →
    headerWidth m ≤ s.flen → a < s.flen → k < 8 → Stores s.fb mem a [s.fb.read a ^^^ (1#8 <<< k)] →
      (a ≠ checksumOffset m → a ≠ checksumOffset m + 1 →
        s.config.cksum (checked m { s with fb := mem }) ≠ s.config.cksum (checked m s)) ∧
      (exec (.cksumVerify m) s = .next (ok (ckvTo s true) 1) →
        exec (.cksumVerify m) { s with fb := mem } = .next (err { s with fb := mem } 0x03))

/-! ### Blocks -/

/-- R131: `BLK_APPEND` moves `DB` into a new tail block of the given type and returns the new count, if 32 bits hold it (of the
value of a larger one nothing is said); RangeError, with `DB` kept, for a type above 16 bits, a full store or too much data. R132: `BLK_CLEAR` empties the chain and returns 0. -/
def Obligations.BlkAppendAndBlkClearResults : Prop :=
  ∀ (v : BitVec 32) (s : State),
    encode (.blkAppend v) = word 0x30 0 0 v.toNat ∧ encode .blkClear = word 0x31 0 0 0 ∧
    exec .blkClear s = .next (ok { s with bc := [] } 0) ∧
    (65536 ≤ v.toNat ∨ s.bc.length = s.config.nblkMax ∨ s.config.bcDataMax < dataTotal s.bc + s.db.length →
      exec (.blkAppend v) s = .next (err s 0x06)) ∧
    (v.toNat < 65536 → s.bc.length ≠ s.config.nblkMax →
      dataTotal s.bc + s.db.length ≤ s.config.bcDataMax →
      ∃ n : BitVec 32, (s.bc.length + 1 < 2 ^ 32 → n.toNat = s.bc.length + 1) ∧
        exec (.blkAppend v) s = .next (ok { s with bc := s.bc ++ [⟨v.setWidth 16, s.db⟩], db := [] } n))

/-- R49 to R52, R133: in `ser` the block after `pre` stands at the serialized length of `pre`: its sub-header, whose `next` is the
offset of the following block or 0 when it is the last, then its data; the whole has the length `L`. -/
def Obligations.SerPlacesEveryBlock : Prop :=
  ∀ (m : SizeClass) (pre post : List Block) (b : Block),
    (ser m (pre ++ b :: post)).length = payloadLength m (pre ++ b :: post) ∧
    ((ser m (pre ++ b :: post)).drop (payloadLength m pre)).take (subHeaderWidth m + b.data.length) =
      subHeaderBytes m b
        (if post = [] then 0 else payloadLength m pre + subHeaderWidth m + b.data.length) ++ b.data

/-- R133: `BLK_SERIALIZE m`: RangeError when a block or the length does not fit, else the serialized chain stands from `HW(m)`,
the valid header bytes are kept and missing ones are zero, `FLEN` is exactly `HW(m) + L` (no address at or above it holds a
value, R29), `CKV <- 0`, value `L`. -/
def Obligations.BlkSerializeResults : Prop :=
  ∀ (m : SizeClass) (s : State),
    encode (.blkSerialize m) = word 0x32 (num m) 0 0 ∧
    (¬ BlocksFit s.bc m ∨ ¬ LengthFits s.config s.bc m → exec (.blkSerialize m) s = .next (err s 0x06)) ∧
    (BlocksFit s.bc m → LengthFits s.config s.bc m →
      ∃ mem : Memory,
        (∀ a, a < headerWidth m + payloadLength m s.bc → mem.read a =
          if headerWidth m ≤ a then (ser m s.bc).getD (a - headerWidth m) 0
          else if a < s.flen then s.fb.read a else 0) ∧
        exec (.blkSerialize m) s =
          .next (ok (ckvTo { s with fb := mem, flen := headerWidth m + payloadLength m s.bc } false)
            (BitVec.ofNat 32 (payloadLength m s.bc))))

/-- R134: under any capacities `parse` ends as the block walk does: the checks of one block in the rule's order, the blocks in
address order. -/
def Obligations.ParseIsTheBlockWalk : Prop :=
  ∀ (c : Config) (m : SizeClass) (p : List Byte) (r : Except Cause (List Block)), parse c m p = r ↔ Walk c m p 0 0 [] r

/-- R135: `BLK_DESERIALIZE m`: MalformedHeader, TruncatedBlock, MalformedPayload or the cause of `parse`, in that order, else `BC`
is the parsed chain and the value its number of blocks; nothing else changes. -/
def Obligations.BlkDeserializeResults : Prop :=
  ∀ (m : SizeClass) (s : State),
    encode (.blkDeserialize m) = word 0x33 (num m) 0 0 ∧
    (s.flen < headerWidth m → exec (.blkDeserialize m) s = .next (err s 0x01)) ∧
    (headerWidth m ≤ s.flen → s.flen < headerWidth m + declaredLen m s →
      exec (.blkDeserialize m) s = .next (err s 0x02)) ∧
    (headerWidth m ≤ s.flen → headerWidth m + declaredLen m s < s.flen →
      exec (.blkDeserialize m) s = .next (err s 0x05)) ∧
    (s.flen = headerWidth m + declaredLen m s →
      (∀ e, parse s.config m (bytesAt s (headerWidth m) (declaredLen m s)) = .error e →
        exec (.blkDeserialize m) s = .next (err s (e.code.setWidth 8))) ∧
      (∀ bc, parse s.config m (bytesAt s (headerWidth m) (declaredLen m s)) = .ok bc →
        exec (.blkDeserialize m) s = .next (ok { s with bc := bc } (BitVec.ofNat 32 bc.length))))

/-- R136: what can be serialized, of a chain within the capacities (R24), parses back to the same chain, and what parses is the
serialization of the chain it gives. A chain that can be serialized is within the default capacities (R134, its last sentence). -/
def Obligations.SerAndParseAreInverse : Prop :=
  (∀ (c : Config) (m : SizeClass) (bc : List Block), ChainFits c bc → BlocksFit bc m → payloadLength m bc ≤ lenMax m →
    parse c m (ser m bc) = .ok bc) ∧
  (∀ (c : Config) (m : SizeClass) (p : List Byte) (bc : List Block), p.length ≤ lenMax m → parse c m p = .ok bc →
    ser m bc = p) ∧
  (∀ (m : SizeClass) (bc : List Block), payloadLength m bc ≤ lenMax m → ChainFits Config.defaults bc)

/-! ### Frame accessor -/

/-- R153, R155, R157, R159, R161, R163: the six `GET_*` commands of whole-byte fields. -/
def Obligations.FieldGetters : Prop :=
  Getter 0x42 .hopLimit .getHopLimit ∧ Getter 0x44 .heartRate .getHeartRate ∧ Getter 0x46 .srcId .getSrc ∧
  Getter 0x48 .dstId .getDst ∧ Getter 0x4A .len .getLen ∧ Getter 0x4C .checkSum .getChecksum

/-- R156, R158, R160, R162, R164: the five `SET_*` commands of whole-byte fields. -/
def Obligations.FieldSetters : Prop :=
  Setter 0x45 .heartRate .setHeartRate ∧ Setter 0x47 .srcId .setSrc ∧ Setter 0x49 .dstId .setDst ∧
  Setter 0x4B .len .setLen ∧ Setter 0x4D .checkSum .setChecksum

/-- R42, R54, R150: a value set by an accessor is read back by the accessor of the same field. -/
def Obligations.GetAfterSetReturnsTheValue : Prop :=
  ReadsBack .setHeartRate .getHeartRate ∧ ReadsBack .setSrc .getSrc ∧ ReadsBack .setDst .getDst ∧
  ReadsBack .setLen .getLen ∧ ReadsBack .setChecksum .getChecksum

/-- R151, R152: `GET_PRIORITY` returns `FB[1] & 0x07`; `SET_PRIORITY` stores `v & 0x7` in those bits for every `v`, keeps the
other five bits of the byte and every other byte, `CKV <- 0`, value 0; both are MalformedHeader on a short buffer. -/
def Obligations.PriorityIsMasked : Prop :=
  ∀ (m : SizeClass) (v : BitVec 32) (s : State),
    encode (.getPriority m) = word 0x40 (num m) 0 0 ∧ encode (.setPriority m v) = word 0x41 (num m) 0 v.toNat ∧
    (s.flen < headerWidth m →
      exec (.getPriority m) s = .next (err s 0x01) ∧ exec (.setPriority m v) s = .next (err s 0x01)) ∧
    (headerWidth m ≤ s.flen →
      exec (.getPriority m) s = .next (ok s ((s.fb.read 1 &&& 0x07).setWidth 32)) ∧
      ∃ mem : Memory, Stores s.fb mem 1 [(s.fb.read 1 &&& 0xF8) ||| (v &&& 0x07).setWidth 8] ∧
        exec (.setPriority m v) s = .next (ok (ckvTo { s with fb := mem } false) 0))

/-- R154: `ADD_HOP_LIMIT` stores `(FB[0] + 1) mod 256` at address 0, keeps every other byte, `CKV <- 0`, and returns the new
value; MalformedHeader on a short buffer. -/
def Obligations.AddHopLimitWraps : Prop :=
  ∀ (m : SizeClass) (s : State),
    encode (.addHopLimit m) = word 0x43 (num m) 0 0 ∧
    (s.flen < headerWidth m → exec (.addHopLimit m) s = .next (err s 0x01)) ∧
    (headerWidth m ≤ s.flen →
      ∃ mem : Memory, Stores s.fb mem 0 [BitVec.ofNat 8 (((s.fb.read 0).toNat + 1) % 256)] ∧
        exec (.addHopLimit m) s = .next (ok (ckvTo { s with fb := mem } false)
          (BitVec.ofNat 32 (((s.fb.read 0).toNat + 1) % 256))))

/-- R165: `IS_MICRO` classifies the frame by its `cfg_hdr` bits alone: 1 for `CFG_MICRO`, 0 for `CFG_FULL` (by default 0b01 and
0b00), MalformedHeader for any other code and for a frame of fewer than two bytes. -/
def Obligations.IsMicroReadsOnlyCfgHdr : Prop :=
  encode .isMicro = word 0x4E 0 0 0 ∧
  ∀ s : State, CodesDistinct s →
    (s.flen < 2 → exec .isMicro s = .next (err s 0x01)) ∧
    (2 ≤ s.flen → wireCfg s = cfgOf s .micro → exec .isMicro s = .next (ok s 1)) ∧
    (2 ≤ s.flen → wireCfg s = cfgOf s .full → exec .isMicro s = .next (ok s 0)) ∧
    (2 ≤ s.flen → (∀ m, wireCfg s ≠ cfgOf s m) → exec .isMicro s = .next (err s 0x01))

/-- R166: the three block accessors are MalformedHeader without a whole header and TruncatedBlock without a whole sub-header at
the offset. -/
def Obligations.BlockAccessorsNeedASubHeader : Prop :=
  ∀ (m : SizeClass) (off : BitVec 20) (s : State) (i : Instr),
    i = .getBlockNext m off ∨ i = .getBlockLen m off ∨ i = .getBlockData m off →
      (s.flen < headerWidth m → exec i s = .next (err s 0x01)) ∧
      (headerWidth m ≤ s.flen → presentLen m s < off.toNat + subHeaderWidth m →
        exec i s = .next (err s 0x02))

/-- R167: `GET_BLOCK_NEXT`: the stored `next` in the full class; in the micro class the end of the block, 0 when that is the end
of the declared payload, TruncatedBlock when it is beyond. -/
def Obligations.GetBlockNextResults : Prop :=
  ∀ (m : SizeClass) (off : BitVec 20) (s : State),
    encode (.getBlockNext m off) = word 0x50 (num m) off.toNat 0 ∧
    (headerWidth m ≤ s.flen → off.toNat + subHeaderWidth m ≤ presentLen m s →
      (m = .full → exec (.getBlockNext m off) s =
        .next (ok s (BitVec.ofNat 32 (s.memRead (16 + off.toNat + 4) 2)))) ∧
      (m = .micro → declaredLen m s < off.toNat + 2 + s.memRead (10 + off.toNat + 1) 1 →
        exec (.getBlockNext m off) s = .next (err s 0x02)) ∧
      (m = .micro → off.toNat + 2 + s.memRead (10 + off.toNat + 1) 1 = declaredLen m s →
        exec (.getBlockNext m off) s = .next (ok s 0)) ∧
      (m = .micro → off.toNat + 2 + s.memRead (10 + off.toNat + 1) 1 < declaredLen m s →
        exec (.getBlockNext m off) s =
          .next (ok s (BitVec.ofNat 32 (off.toNat + 2 + s.memRead (10 + off.toNat + 1) 1)))))

/-- R168, R169: `GET_BLOCK_LEN` returns the `len` field of the sub-header; `GET_BLOCK_DATA` returns the address of the first data
byte, or TruncatedBlock when the data is not all present. -/
def Obligations.GetBlockLenAndDataResults : Prop :=
  ∀ (m : SizeClass) (off : BitVec 20) (s : State) (n : Nat),
    n = (match m with
      | .full => s.memRead (16 + off.toNat + 2) 2
      | .micro => s.memRead (10 + off.toNat + 1) 1) →
    encode (.getBlockLen m off) = word 0x51 (num m) off.toNat 0 ∧
    encode (.getBlockData m off) = word 0x52 (num m) off.toNat 0 ∧
    (headerWidth m ≤ s.flen → off.toNat + subHeaderWidth m ≤ presentLen m s →
      exec (.getBlockLen m off) s = .next (ok s (BitVec.ofNat 32 n)) ∧
      (off.toNat + subHeaderWidth m + n ≤ presentLen m s → exec (.getBlockData m off) s =
        .next (ok s (BitVec.ofNat 32 (headerWidth m + off.toNat + subHeaderWidth m)))) ∧
      (presentLen m s < off.toNat + subHeaderWidth m + n →
        exec (.getBlockData m off) s = .next (err s 0x02)))

/-! ### Composite commands -/

/-- R190, the errors: MalformedHeader for a `cfg_hdr` that names no class, then RangeError; nothing but `STATUS` changes. -/
def Obligations.DumpErrors : Prop :=
  ∀ s : State,
    ((∀ m, s.hr.cfgHdr ≠ cfgOf s m) → exec .dump s = .next (err s 0x01)) ∧
    ∀ m : SizeClass, CodesDistinct s → s.hr.cfgHdr = cfgOf s m →
      ¬ BlocksFit s.bc m ∨ ¬ LengthFits s.config s.bc m ∨ ¬ IdsFit s.hr m → exec .dump s = .next (err s 0x06)

/-- R190, the result: `FB[0 .. HW(m)+L-1]` is the packed header, its `len` the serialized length `L`, and the serialized chain,
with the checksum of the region in the two checksum bytes; `FLEN` is exactly `HW(m) + L` (no address at or above it holds a
value, R29); `HR.len` and `HR.check_sum` receive `L` and the checksum; `CKV <- 1`; the value is `FLEN`. -/
def Obligations.DumpBuildsTheFrame : Prop :=
  ∀ (s : State) (m : SizeClass) (raw : List Byte) (c : BitVec 16),
    CodesDistinct s → s.hr.cfgHdr = cfgOf s m → BlocksFit s.bc m → LengthFits s.config s.bc m → IdsFit s.hr m →
    raw = pack { s.hr with len := BitVec.ofNat 16 (payloadLength m s.bc) } m ++ ser m s.bc →
    c = s.config.cksum (raw.take (checksumOffset m) ++ raw.drop (headerWidth m)) →
      encode .dump = word 0x60 0 0 0 ∧
      ∃ mem : Memory,
        (∀ a, a < headerWidth m + payloadLength m s.bc → mem.read a =
          if a = checksumOffset m then c.extractLsb' 8 8
          else if a = checksumOffset m + 1 then c.extractLsb' 0 8 else raw.getD a 0) ∧
        exec .dump s =
          .next (ok (ckvTo { s with
              hr := { s.hr with len := BitVec.ofNat 16 (payloadLength m s.bc), checkSum := c },
              fb := mem, flen := headerWidth m + payloadLength m s.bc } true)
            (BitVec.ofNat 32 (headerWidth m + payloadLength m s.bc)))

/-- R192, the errors in their order, each wrapped: MalformedHeader, TruncatedBlock, ChecksumMismatch, MalformedPayload, then the
cause of `parse`; `HR`, `BC` and `FB` keep their values. -/
def Obligations.LoadErrors : Prop :=
  ∀ s : State,
    (s.flen < 2 → exec .load s = .next (err s 0x81)) ∧
    (2 ≤ s.flen → (∀ m, wireCfg s ≠ cfgOf s m) → exec .load s = .next (err s 0x81)) ∧
    ∀ m : SizeClass, CodesDistinct s → 2 ≤ s.flen → wireCfg s = cfgOf s m →
      (s.flen < headerWidth m → exec .load s = .next (err s 0x81)) ∧
      (headerWidth m ≤ s.flen → s.flen < headerWidth m + declaredLen m s → exec .load s = .next (err s 0x82)) ∧
      (headerWidth m + declaredLen m s ≤ s.flen → s.config.cksum (checked m s) ≠ embedded m s →
        exec .load s = .next (err s 0x83)) ∧
      (headerWidth m + declaredLen m s < s.flen → s.config.cksum (checked m s) = embedded m s →
        exec .load s = .next (err s 0x85)) ∧
      (∀ e, s.flen = headerWidth m + declaredLen m s → s.config.cksum (checked m s) = embedded m s →
        parse s.config m (bytesAt s (headerWidth m) (declaredLen m s)) = .error e →
        exec .load s = .next (err s (0x80 ||| e.code.setWidth 8)))

/-- R192, the result: on a valid frame all nine fields of `HR` are unpacked, `BC` is the parsed chain, `CKV <- 1`, and the value is
the number of blocks; `FB`, `FLEN` and `DB` are unchanged. -/
def Obligations.LoadUnpacksAValidFrame : Prop :=
  encode .load = word 0x61 0 0 0 ∧
  ∀ (s : State) (m : SizeClass) (bc : List Block),
    CodesDistinct s → 2 ≤ s.flen → wireCfg s = cfgOf s m → s.flen = headerWidth m + declaredLen m s →
    s.config.cksum (checked m s) = embedded m s →
    parse s.config m (bytesAt s (headerWidth m) (declaredLen m s)) = .ok bc →
      exec .load s = .next (ok (ckvTo { s with hr := unpack (bytesAt s 0 (headerWidth m)) m, bc := bc } true)
        (BitVec.ofNat 32 bc.length))

/-- R22: after every successful `DUMP` and `LOAD` the class is the one `HR.cfg_hdr` names, `HR.len` is the sum of the serialized
block lengths of `BC`, and `HR.check_sum` is the checksum of the frame. -/
def Obligations.DumpAndLoadEstablishTheHeaderInvariants : Prop :=
  ∀ (i : Instr) (s t : State) (v : BitVec 32), i = .dump ∨ i = .load →
    exec i s = .next t → t.responses = s.responses ++ [reply 0x00 v] →
      ∃ m : SizeClass, t.hr.cfgHdr = cfgOf t m ∧ t.hr.len.toNat = payloadLength m t.bc ∧
        t.flen = headerWidth m + payloadLength m t.bc ∧ t.hr.checkSum = t.config.cksum (checked m t)

/-- R193, first part, for a chain within the capacities (R24; `Inv` has it): after a successful `DUMP` an immediately following
`LOAD` succeeds with value `NBLK` and leaves `HR` and `BC` as they were; so what was dumped is `HR` with `len` and `check_sum` as
`DUMP` wrote them back. -/
def Obligations.LoadAfterDumpRestoresTheMessage : Prop :=
  ∀ (s t : State) (v : BitVec 32), ChainFits s.config s.bc → exec .dump s = .next t → t.responses = s.responses ++ [reply 0x00 v] →
    t.bc = s.bc ∧ t.hr = { s.hr with len := t.hr.len, checkSum := t.hr.checkSum } ∧
    exec .load t = .next (ok t (BitVec.ofNat 32 s.bc.length))

/-- R193, second part, for a frame within the buffer (R28; `Inv` has it): after a successful `LOAD` an immediately following `DUMP`
succeeds and rewrites exactly the same bytes. -/
def Obligations.DumpAfterLoadRewritesTheFrame : Prop :=
  ∀ (s t : State) (v : BitVec 32), s.flen ≤ s.config.fbSize → exec .load s = .next t → t.responses = s.responses ++ [reply 0x00 v] →
    ∃ u : State, exec .dump t = .next u ∧ u.responses = t.responses ++ [reply 0x00 (BitVec.ofNat 32 s.flen)] ∧
      u.flen = s.flen ∧ ∀ a, a < s.flen → u.fb.read a = s.fb.read a

/-! ### Host access -/

/-- R205: `HR_GET` returns the selected field of `HR`, zero-extended, and writes only `STATUS`; the word of a selector
of 9 or above does not decode (so it is IllegalCommand, R73 item 6). -/
def Obligations.HrGetReturnsTheField : Prop :=
  ∀ (s : State) (sel : BitVec 20),
    encode (.hrGet sel) = word 0x70 0 sel.toNat 0 ∧
    (∀ h : sel.toNat < 9, exec (.hrGet sel) s = .next (ok s
      ([s.hr.hopLimit.setWidth 32, s.hr.earmark.setWidth 32, s.hr.cfgHdr.setWidth 32, s.hr.priority.setWidth 32,
        s.hr.heartRate.setWidth 32, s.hr.srcId, s.hr.dstId, s.hr.len.setWidth 32,
        s.hr.checkSum.setWidth 32][sel.toNat]))) ∧
    (9 ≤ sel.toNat → ∀ i, decode (encode (.hrGet sel)) ≠ .ok i)

/-- R206: `HR_SET` writes the selected field when the value fits its width, RangeError when it does not; `priority` (selector 3)
takes the low three bits of any value; every other field of `HR` is kept; the word of a selector of 9
or above does not decode (so it is IllegalCommand, R73 item 6). -/
def Obligations.HrSetWritesTheField : Prop :=
  ∀ (s : State) (sel : BitVec 20) (v : BitVec 32),
    encode (.hrSet sel v) = word 0x71 0 sel.toNat v.toNat ∧
    (∀ h : sel.toNat < 9, sel.toNat = 3 ∨ v.toNat < 2 ^ [8, 3, 2, 3, 16, 32, 32, 16, 16][sel.toNat] →
      exec (.hrSet sel v) s = .next (ok { s with hr :=
        [{ s.hr with hopLimit := v.setWidth 8 }, { s.hr with earmark := v.setWidth 3 },
         { s.hr with cfgHdr := v.setWidth 2 }, { s.hr with priority := v.extractLsb' 0 3 },
         { s.hr with heartRate := v.setWidth 16 }, { s.hr with srcId := v }, { s.hr with dstId := v },
         { s.hr with len := v.setWidth 16 }, { s.hr with checkSum := v.setWidth 16 }][sel.toNat] } 0)) ∧
    (∀ h : sel.toNat < 9, sel.toNat ≠ 3 → 2 ^ [8, 3, 2, 3, 16, 32, 32, 16, 16][sel.toNat] ≤ v.toNat →
      exec (.hrSet sel v) s = .next (err s 0x06)) ∧
    (9 ≤ sel.toNat → ∀ i, decode (encode (.hrSet sel v)) ≠ .ok i)

/-- R207: `FB_READ` returns a valid byte, RangeError at or above `FLEN`. -/
def Obligations.FbReadResults : Prop :=
  ∀ (addr : BitVec 20) (s : State),
    encode (.fbRead addr) = word 0x72 0 addr.toNat 0 ∧
    (addr.toNat < s.flen → exec (.fbRead addr) s = .next (ok s ((s.fb.read addr.toNat).setWidth 32))) ∧
    (s.flen ≤ addr.toNat → exec (.fbRead addr) s = .next (err s 0x06))

/-- R208, R209: `FB_WRITE` stores one byte at an address up to `FLEN` inside the buffer, keeps every other byte, and at `FLEN`
lengthens the frame by one; `FB_SETLEN` shortens the valid part to `n` bytes and keeps those bytes (no address at or above `n`
holds a value then, R29); both clear `CKV` and answer 0, and both are RangeError otherwise. -/
def Obligations.FbWriteAndFbSetlenResults : Prop :=
  ∀ (addr n : BitVec 20) (v : BitVec 32) (s : State),
    encode (.fbWrite addr v) = word 0x73 0 addr.toNat v.toNat ∧ encode (.fbSetlen n) = word 0x74 0 n.toNat 0 ∧
    (s.flen < addr.toNat ∨ s.config.fbSize ≤ addr.toNat ∨ 0xFF < v.toNat →
      exec (.fbWrite addr v) s = .next (err s 0x06)) ∧
    (addr.toNat ≤ s.flen → addr.toNat < s.config.fbSize → v.toNat ≤ 0xFF →
      ∃ mem : Memory, Stores s.fb mem addr.toNat [v.setWidth 8] ∧
        exec (.fbWrite addr v) s = .next (ok (ckvTo { s with
          fb := mem, flen := if addr.toNat = s.flen then s.flen + 1 else s.flen } false) 0)) ∧
    (s.flen < n.toNat → exec (.fbSetlen n) s = .next (err s 0x06)) ∧
    (n.toNat ≤ s.flen →
      ∃ mem : Memory, (∀ a, a < n.toNat → mem.read a = s.fb.read a) ∧
        exec (.fbSetlen n) s = .next (ok (ckvTo { s with fb := mem, flen := n.toNat } false) 0))

/-- R210, R211: `DB_CLEAR` empties the staging buffer; `DB_PUSH` appends one byte and returns the new length, RangeError when the
value is no byte or the buffer is full. -/
def Obligations.StagingBufferCommands : Prop :=
  ∀ (v : BitVec 32) (s : State),
    encode .dbClear = word 0x75 0 0 0 ∧ encode (.dbPush v) = word 0x76 0 0 v.toNat ∧
    exec .dbClear s = .next (ok { s with db := [] } 0) ∧
    (0xFF < v.toNat ∨ s.db.length = s.config.dbMax → exec (.dbPush v) s = .next (err s 0x06)) ∧
    (v.toNat ≤ 0xFF → s.db.length ≠ s.config.dbMax →
      exec (.dbPush v) s =
        .next (ok { s with db := s.db ++ [v.setWidth 8] } (BitVec.ofNat 32 (s.db.length + 1))))

/-- R212 to R214: `BLK_TYPE`, `BLK_LEN` and `BLK_BYTE` read block `idx` of the chain and write only `STATUS`; RangeError outside the
chain or the block's data. -/
def Obligations.ChainReadOut : Prop :=
  ∀ (idx : BitVec 20) (i : BitVec 32) (s : State),
    encode (.blkType idx) = word 0x77 0 idx.toNat 0 ∧ encode (.blkLen idx) = word 0x78 0 idx.toNat 0 ∧
    encode (.blkByte idx i) = word 0x79 0 idx.toNat i.toNat ∧
    (∀ h : idx.toNat < s.bc.length,
      exec (.blkType idx) s = .next (ok s ((s.bc[idx.toNat]).type.setWidth 32)) ∧
      exec (.blkLen idx) s = .next (ok s (BitVec.ofNat 32 (s.bc[idx.toNat]).data.length)) ∧
      (∀ h' : i.toNat < (s.bc[idx.toNat]).data.length,
        exec (.blkByte idx i) s = .next (ok s ((s.bc[idx.toNat]).data[i.toNat].setWidth 32))) ∧
      ((s.bc[idx.toNat]).data.length ≤ i.toNat → exec (.blkByte idx i) s = .next (err s 0x06))) ∧
    (s.bc.length ≤ idx.toNat →
      exec (.blkType idx) s = .next (err s 0x06) ∧ exec (.blkLen idx) s = .next (err s 0x06) ∧
      exec (.blkByte idx i) s = .next (err s 0x06))
end

