-- ==== Sys2Proof/Laws/Memory.lean ====
section
/-!
SUPPORT. The laws of the frame buffer's memory: a read after a write, a run of writes, or a truncation; every memory
operation keeps the canonical form; and memories in the canonical form that read the same are equal.
-/

namespace Sys2Proof.Machine

/-! ### Reads -/

@[simp] theorem Memory.read_nil (x : Nat) : Memory.read [] x = Memory.unlisted := rfl

theorem Memory.read_cons (k : Nat) (c : Byte) (rest : Memory) (x : Nat) :
    Memory.read ((k, c) :: rest) x = if k = x then c else Memory.read rest x := rfl

/-- A filter on the addresses keeps the bytes it lets through and makes the others unlisted. -/
theorem Memory.read_filter (p : Nat → Bool) (mem : Memory) (x : Nat) :
    Memory.read (mem.filter fun c => p c.1) x = if p x then mem.read x else Memory.unlisted := by
  induction mem with
  | nil => simp
  | cons c rest ih =>
    obtain ⟨k, b⟩ := c
    by_cases hk : p k = true <;> by_cases hx : k = x
    · subst hx; simp [hk, Memory.read_cons]
    · simp [hk, Memory.read_cons, hx, ih]
    · subst hx; simp [hk, ih]
    · simp [hk, Memory.read_cons, hx, ih]

theorem Memory.read_erase (mem : Memory) (a x : Nat) :
    (mem.erase a).read x = if x = a then Memory.unlisted else mem.read x := by
  rw [Memory.erase, Memory.read_filter (fun k => k != a)]
  by_cases h : x = a <;> simp [h]

/-- No entry for `a` is left after `erase a`. -/
theorem Memory.not_mem_erase (mem : Memory) (a : Nat) : ∀ c ∈ mem.erase a, c.1 ≠ a := by
  intro c hc
  simpa using (List.mem_filter.mp hc).2

theorem Memory.read_insert (a : Nat) (b : Byte) (mem : Memory) (h : ∀ c ∈ mem, c.1 ≠ a) (x : Nat) :
    (mem.insert a b).read x = if x = a then b else mem.read x := by
  induction mem with
  | nil => by_cases hx : a = x <;> simp [Memory.insert, Memory.read_cons, hx, eq_comm]
  | cons c rest ih =>
    obtain ⟨k, d⟩ := c
    have hk : k ≠ a := h (k, d) (by simp)
    have ih' := ih fun c hc => h c (by simp [hc])
    unfold Memory.insert
    by_cases hx : x = a
    · subst hx
      split <;> simp [Memory.read_cons, hk, ih']
    · have hx' : a ≠ x := fun e => hx e.symm
      split <;> simp [Memory.read_cons, hx, hx', ih']

/-- Read after write: the byte written at its address, every other address as before. -/
theorem Memory.read_write (mem : Memory) (a : Nat) (b : Byte) (x : Nat) :
    (mem.write a b).read x = if x = a then b else mem.read x := by
  unfold Memory.write
  split
  · rename_i h
    rw [Memory.read_erase, h]
  · rw [Memory.read_insert _ _ _ (Memory.not_mem_erase mem a), Memory.read_erase]
    by_cases hx : x = a <;> simp [hx]

/-- Read after a run of writes. -/
theorem Memory.read_writeBytes (bs : List Byte) : ∀ (mem : Memory) (a x : Nat),
    (mem.writeBytes a bs).read x =
      if a ≤ x ∧ x < a + bs.length then bs.getD (x - a) 0#8 else mem.read x := by
  induction bs with
  | nil => intro mem a x; simp [Memory.writeBytes]
  | cons b rest ih =>
    intro mem a x
    rw [Memory.writeBytes, ih, Memory.read_write, List.length_cons]
    by_cases h1 : a + 1 ≤ x ∧ x < a + 1 + rest.length
    · have h2 : a ≤ x ∧ x < a + (rest.length + 1) := by omega
      have h3 : x - a = (x - (a + 1)) + 1 := by omega
      rw [if_pos h1, if_pos h2, h3, List.getD_cons_succ]
    · rw [if_neg h1]
      by_cases hx : x = a
      · subst hx; simp
      · have h2 : ¬ (a ≤ x ∧ x < a + (rest.length + 1)) := by omega
        rw [if_neg hx, if_neg h2]

/-- Read after a truncation. -/
theorem Memory.read_truncate (mem : Memory) (n x : Nat) :
    (mem.truncate n).read x = if x < n then mem.read x else Memory.unlisted := by
  rw [Memory.truncate, Memory.read_filter (fun k => decide (k < n))]
  by_cases h : x < n <;> simp [h]

/-- An address without an entry reads as the unlisted byte. -/
theorem Memory.read_of_not_mem {mem : Memory} {x : Nat} (h : ∀ c ∈ mem, c.1 ≠ x) :
    mem.read x = Memory.unlisted := by
  induction mem with
  | nil => rfl
  | cons c rest ih =>
    obtain ⟨k, b⟩ := c
    have hk : k ≠ x := h (k, b) (by simp)
    simp [Memory.read_cons, hk, ih fun c hc => h c (by simp [hc])]

/-! ### Which entries an operation leaves -/

theorem Memory.mem_insert {a : Nat} {b : Byte} {mem : Memory} {c : Host.Cell} (h : c ∈ mem.insert a b) :
    c = (a, b) ∨ c ∈ mem := by
  induction mem with
  | nil => simpa [Memory.insert] using h
  | cons d rest ih =>
    obtain ⟨k, e⟩ := d
    unfold Memory.insert at h
    split at h
    · simpa using h
    · rcases List.mem_cons.mp h with rfl | h
      · simp
      · rcases ih h with h | h <;> simp [h]

theorem Memory.mem_write {mem : Memory} {a : Nat} {b : Byte} {c : Host.Cell} (h : c ∈ mem.write a b) :
    c.1 = a ∨ c ∈ mem := by
  unfold Memory.write at h
  split at h
  · exact .inr (List.mem_filter.mp h).1
  · rcases Memory.mem_insert h with rfl | h
    · exact .inl rfl
    · exact .inr (List.mem_filter.mp h).1

/-- An entry after a run of writes is an old one or stands inside the run. -/
theorem Memory.mem_writeBytes {bs : List Byte} : ∀ {mem : Memory} {a : Nat} {c : Host.Cell},
    c ∈ mem.writeBytes a bs → (a ≤ c.1 ∧ c.1 < a + bs.length) ∨ c ∈ mem := by
  induction bs with
  | nil => intro mem a c h; exact .inr h
  | cons b rest ih =>
    intro mem a c h
    rcases ih h with h | h
    · exact .inl ⟨by omega, by rw [List.length_cons]; omega⟩
    · rcases Memory.mem_write h with h | h
      · exact .inl ⟨by omega, by rw [List.length_cons]; omega⟩
      · exact .inr h

theorem Memory.mem_truncate {mem : Memory} {n : Nat} {c : Host.Cell} (h : c ∈ mem.truncate n) :
    c ∈ mem ∧ c.1 < n := by
  simpa [Memory.truncate] using h

/-! ### The canonical form -/

theorem Memory.wf_nil : Memory.wf [] := ⟨.nil, by simp⟩

/-- A filter keeps the canonical form. -/
theorem Memory.wf_filter (p : Host.Cell → Bool) {mem : Memory} (h : mem.wf) : Memory.wf (mem.filter p) :=
  ⟨h.1.filter p, fun c hc => h.2 c (List.mem_filter.mp hc).1⟩

theorem Memory.wf_erase {mem : Memory} (h : mem.wf) (a : Nat) : (mem.erase a).wf := Memory.wf_filter _ h

theorem Memory.wf_truncate {mem : Memory} (h : mem.wf) (n : Nat) : (mem.truncate n).wf := Memory.wf_filter _ h

/-- Inserting keeps the addresses strictly rising when the address was not listed. -/
theorem Memory.sorted_insert {a : Nat} {b : Byte} {mem : Memory} (h : mem.Pairwise fun c d => c.1 < d.1)
    (hn : ∀ c ∈ mem, c.1 ≠ a) : (mem.insert a b).Pairwise fun c d => c.1 < d.1 := by
  induction mem with
  | nil => simp [Memory.insert]
  | cons d rest ih =>
    obtain ⟨k, e⟩ := d
    have hk : k ≠ a := hn (k, e) (by simp)
    obtain ⟨h1, h2⟩ := List.pairwise_cons.mp h
    unfold Memory.insert
    split
    · rename_i hlt
      refine List.pairwise_cons.mpr ⟨fun c hc => ?_, h⟩
      rcases List.mem_cons.mp hc with rfl | hc
      · exact hlt
      · exact Nat.lt_trans hlt (h1 c hc)
    · rename_i hge
      refine List.pairwise_cons.mpr ⟨fun c hc => ?_, ih h2 fun c hc => hn c (by simp [hc])⟩
      rcases Memory.mem_insert hc with rfl | hc
      · show k < a
        omega
      · exact h1 c hc

theorem Memory.wf_write {mem : Memory} (h : mem.wf) (a : Nat) (b : Byte) : (mem.write a b).wf := by
  unfold Memory.write
  split
  · exact Memory.wf_erase h a
  · rename_i hb
    have he := Memory.wf_erase h a
    refine ⟨Memory.sorted_insert he.1 (Memory.not_mem_erase mem a), fun c hc => ?_⟩
    rcases Memory.mem_insert hc with rfl | hc
    · exact hb
    · exact he.2 c hc

theorem Memory.wf_writeBytes {bs : List Byte} : ∀ {mem : Memory}, mem.wf → ∀ a, (mem.writeBytes a bs).wf := by
  induction bs with
  | nil => intro mem h a; exact h
  | cons b rest ih => intro mem h a; exact ih (Memory.wf_write h a b) (a + 1)

/-- A listed byte of a canonical memory reads as it is listed. -/
theorem Memory.read_of_mem {mem : Memory} (h : mem.wf) {c : Host.Cell} (hc : c ∈ mem) : mem.read c.1 = c.2 := by
  induction mem with
  | nil => simp at hc
  | cons d rest ih =>
    obtain ⟨k, e⟩ := d
    obtain ⟨h1, h2⟩ := List.pairwise_cons.mp h.1
    rcases List.mem_cons.mp hc with rfl | hc
    · simp [Memory.read_cons]
    · have : k ≠ c.1 := Nat.ne_of_lt (h1 c hc)
      simp [Memory.read_cons, this, ih ⟨h2, fun c hc => h.2 c (by simp [hc])⟩ hc]

/-- A canonical memory is determined by its reads: memories that no read tells apart are equal data. -/
theorem Memory.eq_of_read_eq : ∀ {m n : Memory}, m.wf → n.wf → (∀ x, m.read x = n.read x) → m = n
  | [], [], _, _, _ => rfl
  | [], (k, b) :: rest, _, hn, h => by
    have := h k
    rw [Memory.read_of_mem hn (c := (k, b)) (by simp)] at this
    exact absurd this.symm (hn.2 (k, b) (by simp))
  | (k, b) :: rest, [], hm, _, h => by
    have := h k
    rw [Memory.read_of_mem hm (c := (k, b)) (by simp)] at this
    exact absurd this (hm.2 (k, b) (by simp))
  | (k, b) :: rest, (l, d) :: more, hm, hn, h => by
    obtain ⟨hm1, hm2⟩ := List.pairwise_cons.mp hm.1
    obtain ⟨hn1, hn2⟩ := List.pairwise_cons.mp hn.1
    have hb := Memory.read_of_mem hm (c := (k, b)) (by simp)
    have hd := Memory.read_of_mem hn (c := (l, d)) (by simp)
    have hkl : k = l := by
      rcases Nat.lt_trichotomy k l with hlt | he | hgt
      · have : Memory.read ((l, d) :: more) k = Memory.unlisted := Memory.read_of_not_mem fun c hc => by
          rcases List.mem_cons.mp hc with rfl | hc
          · exact (Nat.ne_of_lt hlt).symm
          · exact (Nat.ne_of_lt (Nat.lt_trans hlt (hn1 c hc))).symm
        exact absurd (hb.symm.trans ((h k).trans this)) (hm.2 (k, b) (by simp))
      · exact he
      · have : Memory.read ((k, b) :: rest) l = Memory.unlisted := Memory.read_of_not_mem fun c hc => by
          rcases List.mem_cons.mp hc with rfl | hc
          · exact (Nat.ne_of_lt hgt).symm
          · exact (Nat.ne_of_lt (Nat.lt_trans hgt (hm1 c hc))).symm
        exact absurd (hd.symm.trans ((h l).symm.trans this)) (hn.2 (l, d) (by simp))
    subst hkl
    have hbd : b = d := hb.symm.trans ((h k).trans hd)
    subst hbd
    congr 1
    refine Memory.eq_of_read_eq ⟨hm2, fun c hc => hm.2 c (by simp [hc])⟩
      ⟨hn2, fun c hc => hn.2 c (by simp [hc])⟩ fun x => ?_
    by_cases hx : k = x
    · subst hx
      rw [Memory.read_of_not_mem fun c hc => (Nat.ne_of_lt (hm1 c hc)).symm,
        Memory.read_of_not_mem fun c hc => (Nat.ne_of_lt (hn1 c hc)).symm]
    · simpa [Memory.read_cons, hx] using h x

end Sys2Proof.Machine
end

