-- ==== Sys2Proof/Laws/Bytes.lean ====
section
/-!
SUPPORT. Big-endian sequences (R40) and runs of bytes of the frame buffer: their lengths, that writing a value and
reading it back gives the value, and what a run reads after a store or a truncation.
-/

namespace Sys2Proof.Machine

/-! ### Big-endian -/

@[simp] theorem beBytes_length (n v : Nat) : (beBytes n v).length = n := by simp [beBytes]

theorem beBytes_getElem {n v k : Nat} (h : k < (beBytes n v).length) :
    (beBytes n v)[k] = BitVec.ofNat 8 (v >>> (8 * (n - 1 - k))) := by simp [beBytes]

/-- The first byte is the most significant one. -/
theorem beBytes_succ (n v : Nat) : beBytes (n + 1) v = BitVec.ofNat 8 (v >>> (8 * n)) :: beBytes n v := by
  unfold beBytes
  rw [List.range_succ_eq_map, List.map_cons, List.map_map]
  congr 1
  refine List.map_congr_left fun k _ => ?_
  show BitVec.ofNat 8 (v >>> (8 * (n + 1 - 1 - (k + 1)))) = _
  congr 3
  omega

@[simp] theorem beNat_nil : beNat [] = 0 := rfl

theorem beNat_concat (bs : List Byte) (b : Byte) : beNat (bs ++ [b]) = beNat bs * 256 + b.toNat := by
  simp [beNat]

/-- `n` bytes hold a value below `2^(8n)`. -/
theorem beNat_lt (bs : List Byte) : beNat bs < 256 ^ bs.length := by
  induction bs using List.reverseRecOn with
  | nil => simp
  | append_singleton l b ih =>
    have := b.isLt
    rw [beNat_concat, List.length_append, List.length_singleton, Nat.pow_succ]
    omega

/-- The last byte is the least significant one. -/
theorem beBytes_concat (n v : Nat) : beBytes (n + 1) v = beBytes n (v / 256) ++ [BitVec.ofNat 8 v] := by
  unfold beBytes
  rw [List.range_succ, List.map_append, List.map_singleton]
  congr 1
  · refine List.map_congr_left fun k hk => ?_
    have hk := List.mem_range.mp hk
    congr 1
    rw [show 8 * (n + 1 - 1 - k) = 8 + 8 * (n - 1 - k) by omega, Nat.shiftRight_add,
      Nat.shiftRight_eq_div_pow v 8]
  · simp

/-- Writing a value and reading it back (R40, R42). -/
theorem beNat_beBytes (n : Nat) : ∀ v, beNat (beBytes n v) = v % 256 ^ n := by
  induction n with
  | zero => intro v; simp [beBytes, Nat.mod_one]
  | succ n ih =>
    intro v
    rw [beBytes_concat, beNat_concat, ih, Nat.pow_succ, Nat.mul_comm (256 ^ n), Nat.mod_mul, BitVec.toNat_ofNat]
    show _ + v % 256 = _
    ring

/-- Reading bytes and writing them back (R40, R42). -/
theorem beBytes_beNat (bs : List Byte) : beBytes bs.length (beNat bs) = bs := by
  induction bs using List.reverseRecOn with
  | nil => rfl
  | append_singleton l b ih =>
    have hb := b.isLt
    rw [List.length_append, List.length_singleton, beBytes_concat, beNat_concat]
    have h1 : (beNat l * 256 + b.toNat) / 256 = beNat l := by omega
    have h2 : BitVec.ofNat 8 (beNat l * 256 + b.toNat) = b := by
      apply BitVec.eq_of_toNat_eq
      rw [BitVec.toNat_ofNat]
      omega
    rw [h1, h2, ih]

/-! ### Runs of the frame buffer -/

@[simp] theorem State.fbBytes_length (s : State) (lo n : Nat) : (s.fbBytes lo n).length = n := by
  simp [State.fbBytes]

@[simp] theorem State.fbBytes_getElem (s : State) (lo n k : Nat) (h : k < (s.fbBytes lo n).length) :
    (s.fbBytes lo n)[k] = s.fb.read (lo + k) := by simp [State.fbBytes]

theorem State.fbBytes_getD (s : State) (lo n k : Nat) (h : k < n) :
    (s.fbBytes lo n).getD k 0#8 = s.fb.read (lo + k) := by
  rw [List.getD_eq_getElem _ _ (by simpa using h), State.fbBytes_getElem]

/-- Two states whose frame buffers read alike on a run have the same run. -/
theorem State.fbBytes_congr {s t : State} {lo n : Nat} (h : ∀ a, lo ≤ a → a < lo + n → s.fb.read a = t.fb.read a) :
    s.fbBytes lo n = t.fbBytes lo n := by
  refine List.map_congr_left fun k hk => ?_
  have hk := List.mem_range.mp hk
  exact h _ (by omega) (by omega)

theorem State.memRead_congr {s t : State} {lo n : Nat} (h : ∀ a, lo ≤ a → a < lo + n → s.fb.read a = t.fb.read a) :
    s.memRead lo n = t.memRead lo n := by rw [State.memRead, State.memRead, State.fbBytes_congr h]

theorem State.memRead_lt (s : State) (lo n : Nat) : s.memRead lo n < 256 ^ n := by
  simpa [State.memRead] using beNat_lt (s.fbBytes lo n)

/-- A run whose bytes are those of a list is that list. -/
theorem State.fbBytes_eq {s : State} {lo : Nat} {bs : List Byte}
    (h : ∀ k, k < bs.length → s.fb.read (lo + k) = bs.getD k 0#8) : s.fbBytes lo bs.length = bs := by
  refine List.ext_getElem (by simp) fun k h1 h2 => ?_
  rw [State.fbBytes_getElem, h k h2, List.getD_eq_getElem _ _ h2]

/-- Two adjoining runs are one run. -/
theorem State.fbBytes_append (s : State) (lo n k : Nat) :
    s.fbBytes lo (n + k) = s.fbBytes lo n ++ s.fbBytes (lo + n) k := by
  unfold State.fbBytes
  rw [List.range_add, List.map_append, List.map_map]
  congr 1
  exact List.map_congr_left fun j _ => by simp [Nat.add_assoc]

/-- A part of a run is a run. -/
theorem slice_fbBytes (s : State) (lo n i k : Nat) (h : i + k ≤ n) :
    slice (s.fbBytes lo n) i k = s.fbBytes (lo + i) k := by
  refine List.ext_getElem (by simp [slice]; omega) fun j h1 h2 => ?_
  simp [slice, Nat.add_assoc]

@[simp] theorem State.frame_length (s : State) : s.frame.length = s.flen := by simp [State.frame]

/-- A byte of the frame is the byte of the frame buffer at its address. -/
@[simp] theorem State.frame_getElem (s : State) (k : Nat) (h : k < s.frame.length) : s.frame[k] = s.fb.read k := by
  simp [State.frame]

/-- Read after a store of bytes. -/
theorem State.fbStore_read (s : State) (a : Nat) (bs : List Byte) (x : Nat) :
    (s.fbStore a bs).fb.read x = if a ≤ x ∧ x < a + bs.length then bs.getD (x - a) 0#8 else s.fb.read x :=
  Memory.read_writeBytes bs s.fb a x

/-- What was stored is read back. -/
theorem State.fbBytes_fbStore (s : State) (a : Nat) (bs : List Byte) :
    (s.fbStore a bs).fbBytes a bs.length = bs := by
  refine State.fbBytes_eq fun k hk => ?_
  rw [State.fbStore_read, if_pos (by omega)]
  congr 1
  omega

/-- A run that a store does not touch is as before. -/
theorem State.fbBytes_fbStore_other (s : State) (a lo n : Nat) (bs : List Byte)
    (h : lo + n ≤ a ∨ a + bs.length ≤ lo) : (s.fbStore a bs).fbBytes lo n = s.fbBytes lo n :=
  State.fbBytes_congr fun x h1 h2 => by rw [State.fbStore_read, if_neg (by omega)]

/-- Read after write of several bytes: the value written (R40, R42). -/
theorem State.memRead_memWrite (s : State) (a n v : Nat) (h : v < 256 ^ n) : (s.memWrite a n v).memRead a n = v := by
  have := State.fbBytes_fbStore s a (beBytes n v)
  rw [beBytes_length] at this
  rw [State.memRead, State.memWrite, this, beNat_beBytes, Nat.mod_eq_of_lt h]

/-- Read after a change of `FLEN` that drops bytes. -/
theorem State.cutFlen_read (s : State) (n x : Nat) :
    (s.cutFlen n).fb.read x = if x < n then s.fb.read x else Memory.unlisted := Memory.read_truncate s.fb n x

/-- Read after the zero fill of R133. -/
theorem State.zeroFill_read (s : State) (n x : Nat) :
    (s.zeroFill n).fb.read x = if s.flen ≤ x ∧ x < n then 0#8 else s.fb.read x := by
  rw [State.zeroFill, State.fbStore_read, List.length_replicate]
  by_cases h : s.flen ≤ x ∧ x < n
  · rw [if_pos h, if_pos (by omega), List.getD_replicate _ (by omega)]
  · rw [if_neg h, if_neg (by omega)]

end Sys2Proof.Machine
end

