-- ==== Sys2Proof/Laws/State.lean ====
section
/-!
SUPPORT. What every named update of the state does to every field of it: one lemma per update and field, so that no
proof unfolds a record update.
-/

namespace Sys2Proof.Machine

variable (s : State)

/-! `setCkv` -/

@[simp] theorem State.setCkv_hr (b : Bool) : (s.setCkv b).hr = s.hr := rfl
@[simp] theorem State.setCkv_bc (b : Bool) : (s.setCkv b).bc = s.bc := rfl
@[simp] theorem State.setCkv_db (b : Bool) : (s.setCkv b).db = s.db := rfl
@[simp] theorem State.setCkv_fb (b : Bool) : (s.setCkv b).fb = s.fb := rfl
@[simp] theorem State.setCkv_flen (b : Bool) : (s.setCkv b).flen = s.flen := rfl
@[simp] theorem State.setCkv_status (b : Bool) : (s.setCkv b).status = { s.status with ckv := b } := rfl
@[simp] theorem State.setCkv_config (b : Bool) : (s.setCkv b).config = s.config := rfl
@[simp] theorem State.setCkv_commands (b : Bool) : (s.setCkv b).commands = s.commands := rfl
@[simp] theorem State.setCkv_responses (b : Bool) : (s.setCkv b).responses = s.responses := rfl

/-! `record` -/

@[simp] theorem State.record_hr (de : Bool) (c : BitVec 4) : (s.record de c).hr = s.hr := rfl
@[simp] theorem State.record_bc (de : Bool) (c : BitVec 4) : (s.record de c).bc = s.bc := rfl
@[simp] theorem State.record_db (de : Bool) (c : BitVec 4) : (s.record de c).db = s.db := rfl
@[simp] theorem State.record_fb (de : Bool) (c : BitVec 4) : (s.record de c).fb = s.fb := rfl
@[simp] theorem State.record_flen (de : Bool) (c : BitVec 4) : (s.record de c).flen = s.flen := rfl
@[simp] theorem State.record_status (de : Bool) (c : BitVec 4) : (s.record de c).status = s.status.record de c := rfl
@[simp] theorem State.record_config (de : Bool) (c : BitVec 4) : (s.record de c).config = s.config := rfl
@[simp] theorem State.record_commands (de : Bool) (c : BitVec 4) : (s.record de c).commands = s.commands := rfl
@[simp] theorem State.record_responses (de : Bool) (c : BitVec 4) : (s.record de c).responses = s.responses := rfl

/-! `respond` -/

@[simp] theorem State.respond_hr (de : Bool) (c : BitVec 4) (v : BitVec 32) : (s.respond de c v).hr = s.hr := rfl
@[simp] theorem State.respond_bc (de : Bool) (c : BitVec 4) (v : BitVec 32) : (s.respond de c v).bc = s.bc := rfl
@[simp] theorem State.respond_db (de : Bool) (c : BitVec 4) (v : BitVec 32) : (s.respond de c v).db = s.db := rfl
@[simp] theorem State.respond_fb (de : Bool) (c : BitVec 4) (v : BitVec 32) : (s.respond de c v).fb = s.fb := rfl
@[simp] theorem State.respond_flen (de : Bool) (c : BitVec 4) (v : BitVec 32) :
    (s.respond de c v).flen = s.flen := rfl
@[simp] theorem State.respond_status (de : Bool) (c : BitVec 4) (v : BitVec 32) :
    (s.respond de c v).status = s.status := rfl
@[simp] theorem State.respond_config (de : Bool) (c : BitVec 4) (v : BitVec 32) :
    (s.respond de c v).config = s.config := rfl
@[simp] theorem State.respond_commands (de : Bool) (c : BitVec 4) (v : BitVec 32) :
    (s.respond de c v).commands = s.commands := rfl
@[simp] theorem State.respond_responses (de : Bool) (c : BitVec 4) (v : BitVec 32) :
    (s.respond de c v).responses = s.responses ++ [responseWord de c v] := rfl

/-! `succeed` -/

@[simp] theorem State.succeed_hr (v : BitVec 32) : (s.succeed v).hr = s.hr := rfl
@[simp] theorem State.succeed_bc (v : BitVec 32) : (s.succeed v).bc = s.bc := rfl
@[simp] theorem State.succeed_db (v : BitVec 32) : (s.succeed v).db = s.db := rfl
@[simp] theorem State.succeed_fb (v : BitVec 32) : (s.succeed v).fb = s.fb := rfl
@[simp] theorem State.succeed_flen (v : BitVec 32) : (s.succeed v).flen = s.flen := rfl
@[simp] theorem State.succeed_status (v : BitVec 32) : (s.succeed v).status = s.status.record false 0 := rfl
@[simp] theorem State.succeed_config (v : BitVec 32) : (s.succeed v).config = s.config := rfl
@[simp] theorem State.succeed_commands (v : BitVec 32) : (s.succeed v).commands = s.commands := rfl
@[simp] theorem State.succeed_responses (v : BitVec 32) :
    (s.succeed v).responses = s.responses ++ [responseWord false 0 v] := rfl

/-! `refute` -/

@[simp] theorem State.refute_hr (e : Cause) : (s.refute e).hr = s.hr := by unfold State.refute; split <;> rfl
@[simp] theorem State.refute_bc (e : Cause) : (s.refute e).bc = s.bc := by unfold State.refute; split <;> rfl
@[simp] theorem State.refute_db (e : Cause) : (s.refute e).db = s.db := by unfold State.refute; split <;> rfl
@[simp] theorem State.refute_fb (e : Cause) : (s.refute e).fb = s.fb := by unfold State.refute; split <;> rfl
@[simp] theorem State.refute_flen (e : Cause) : (s.refute e).flen = s.flen := by unfold State.refute; split <;> rfl
@[simp] theorem State.refute_status (e : Cause) :
    (s.refute e).status =
      if e = .checksumMismatch then { s.status with ckv := false } else s.status := by unfold State.refute; split <;> rfl
@[simp] theorem State.refute_config (e : Cause) :
    (s.refute e).config = s.config := by unfold State.refute; split <;> rfl
@[simp] theorem State.refute_commands (e : Cause) :
    (s.refute e).commands = s.commands := by unfold State.refute; split <;> rfl
@[simp] theorem State.refute_responses (e : Cause) :
    (s.refute e).responses = s.responses := by unfold State.refute; split <;> rfl

/-! `raise` -/

@[simp] theorem State.raise_hr (de : Bool) (e : Cause) : (s.raise de e).hr = s.hr := by simp [State.raise]
@[simp] theorem State.raise_bc (de : Bool) (e : Cause) : (s.raise de e).bc = s.bc := by simp [State.raise]
@[simp] theorem State.raise_db (de : Bool) (e : Cause) : (s.raise de e).db = s.db := by simp [State.raise]
@[simp] theorem State.raise_fb (de : Bool) (e : Cause) : (s.raise de e).fb = s.fb := by simp [State.raise]
@[simp] theorem State.raise_flen (de : Bool) (e : Cause) : (s.raise de e).flen = s.flen := by simp [State.raise]
@[simp] theorem State.raise_status (de : Bool) (e : Cause) :
    (s.raise de e).status = (s.refute e).status.record de e.code := rfl
@[simp] theorem State.raise_config (de : Bool) (e : Cause) : (s.raise de e).config = s.config := by simp [State.raise]
@[simp] theorem State.raise_commands (de : Bool) (e : Cause) :
    (s.raise de e).commands = s.commands := by simp [State.raise]
@[simp] theorem State.raise_responses (de : Bool) (e : Cause) :
    (s.raise de e).responses = s.responses ++ [responseWord de e.code 0] := by simp [State.raise]

/-! `fbStore` -/

@[simp] theorem State.fbStore_hr (a : Nat) (bs : List Byte) : (s.fbStore a bs).hr = s.hr := rfl
@[simp] theorem State.fbStore_bc (a : Nat) (bs : List Byte) : (s.fbStore a bs).bc = s.bc := rfl
@[simp] theorem State.fbStore_db (a : Nat) (bs : List Byte) : (s.fbStore a bs).db = s.db := rfl
@[simp] theorem State.fbStore_fb (a : Nat) (bs : List Byte) : (s.fbStore a bs).fb = s.fb.writeBytes a bs := rfl
@[simp] theorem State.fbStore_flen (a : Nat) (bs : List Byte) : (s.fbStore a bs).flen = s.flen := rfl
@[simp] theorem State.fbStore_status (a : Nat) (bs : List Byte) : (s.fbStore a bs).status = s.status := rfl
@[simp] theorem State.fbStore_config (a : Nat) (bs : List Byte) : (s.fbStore a bs).config = s.config := rfl
@[simp] theorem State.fbStore_commands (a : Nat) (bs : List Byte) : (s.fbStore a bs).commands = s.commands := rfl
@[simp] theorem State.fbStore_responses (a : Nat) (bs : List Byte) : (s.fbStore a bs).responses = s.responses := rfl

/-! `memWrite` -/

@[simp] theorem State.memWrite_hr (a n v : Nat) : (s.memWrite a n v).hr = s.hr := rfl
@[simp] theorem State.memWrite_bc (a n v : Nat) : (s.memWrite a n v).bc = s.bc := rfl
@[simp] theorem State.memWrite_db (a n v : Nat) : (s.memWrite a n v).db = s.db := rfl
@[simp] theorem State.memWrite_fb (a n v : Nat) : (s.memWrite a n v).fb = s.fb.writeBytes a (beBytes n v) := rfl
@[simp] theorem State.memWrite_flen (a n v : Nat) : (s.memWrite a n v).flen = s.flen := rfl
@[simp] theorem State.memWrite_status (a n v : Nat) : (s.memWrite a n v).status = s.status := rfl
@[simp] theorem State.memWrite_config (a n v : Nat) : (s.memWrite a n v).config = s.config := rfl
@[simp] theorem State.memWrite_commands (a n v : Nat) : (s.memWrite a n v).commands = s.commands := rfl
@[simp] theorem State.memWrite_responses (a n v : Nat) : (s.memWrite a n v).responses = s.responses := rfl

/-! `writeField` -/

@[simp] theorem State.writeField_hr (f : WireField) (m : SizeClass) (v : Nat) : (s.writeField f m v).hr = s.hr := rfl
@[simp] theorem State.writeField_bc (f : WireField) (m : SizeClass) (v : Nat) : (s.writeField f m v).bc = s.bc := rfl
@[simp] theorem State.writeField_db (f : WireField) (m : SizeClass) (v : Nat) : (s.writeField f m v).db = s.db := rfl
@[simp] theorem State.writeField_fb (f : WireField) (m : SizeClass) (v : Nat) :
    (s.writeField f m v).fb = s.fb.writeBytes (fieldAt f m).1 (beBytes (fieldAt f m).2 v) := rfl
@[simp] theorem State.writeField_flen (f : WireField) (m : SizeClass) (v : Nat) :
    (s.writeField f m v).flen = s.flen := rfl
@[simp] theorem State.writeField_status (f : WireField) (m : SizeClass) (v : Nat) :
    (s.writeField f m v).status = s.status := rfl
@[simp] theorem State.writeField_config (f : WireField) (m : SizeClass) (v : Nat) :
    (s.writeField f m v).config = s.config := rfl
@[simp] theorem State.writeField_commands (f : WireField) (m : SizeClass) (v : Nat) :
    (s.writeField f m v).commands = s.commands := rfl
@[simp] theorem State.writeField_responses (f : WireField) (m : SizeClass) (v : Nat) :
    (s.writeField f m v).responses = s.responses := rfl

/-! `growFlen` -/

@[simp] theorem State.growFlen_hr (n : Nat) : (s.growFlen n).hr = s.hr := rfl
@[simp] theorem State.growFlen_bc (n : Nat) : (s.growFlen n).bc = s.bc := rfl
@[simp] theorem State.growFlen_db (n : Nat) : (s.growFlen n).db = s.db := rfl
@[simp] theorem State.growFlen_fb (n : Nat) : (s.growFlen n).fb = s.fb := rfl
@[simp] theorem State.growFlen_flen (n : Nat) : (s.growFlen n).flen = n := rfl
@[simp] theorem State.growFlen_status (n : Nat) : (s.growFlen n).status = s.status := rfl
@[simp] theorem State.growFlen_config (n : Nat) : (s.growFlen n).config = s.config := rfl
@[simp] theorem State.growFlen_commands (n : Nat) : (s.growFlen n).commands = s.commands := rfl
@[simp] theorem State.growFlen_responses (n : Nat) : (s.growFlen n).responses = s.responses := rfl

/-! `cutFlen` -/

@[simp] theorem State.cutFlen_hr (n : Nat) : (s.cutFlen n).hr = s.hr := rfl
@[simp] theorem State.cutFlen_bc (n : Nat) : (s.cutFlen n).bc = s.bc := rfl
@[simp] theorem State.cutFlen_db (n : Nat) : (s.cutFlen n).db = s.db := rfl
@[simp] theorem State.cutFlen_fb (n : Nat) : (s.cutFlen n).fb = s.fb.truncate n := rfl
@[simp] theorem State.cutFlen_flen (n : Nat) : (s.cutFlen n).flen = n := rfl
@[simp] theorem State.cutFlen_status (n : Nat) : (s.cutFlen n).status = s.status := rfl
@[simp] theorem State.cutFlen_config (n : Nat) : (s.cutFlen n).config = s.config := rfl
@[simp] theorem State.cutFlen_commands (n : Nat) : (s.cutFlen n).commands = s.commands := rfl
@[simp] theorem State.cutFlen_responses (n : Nat) : (s.cutFlen n).responses = s.responses := rfl

/-! `zeroFill` -/

@[simp] theorem State.zeroFill_hr (n : Nat) : (s.zeroFill n).hr = s.hr := rfl
@[simp] theorem State.zeroFill_bc (n : Nat) : (s.zeroFill n).bc = s.bc := rfl
@[simp] theorem State.zeroFill_db (n : Nat) : (s.zeroFill n).db = s.db := rfl
@[simp] theorem State.zeroFill_fb (n : Nat) :
    (s.zeroFill n).fb = s.fb.writeBytes s.flen (List.replicate (n - s.flen) 0#8) := rfl
@[simp] theorem State.zeroFill_flen (n : Nat) : (s.zeroFill n).flen = s.flen := rfl
@[simp] theorem State.zeroFill_status (n : Nat) : (s.zeroFill n).status = s.status := rfl
@[simp] theorem State.zeroFill_config (n : Nat) : (s.zeroFill n).config = s.config := rfl
@[simp] theorem State.zeroFill_commands (n : Nat) : (s.zeroFill n).commands = s.commands := rfl
@[simp] theorem State.zeroFill_responses (n : Nat) : (s.zeroFill n).responses = s.responses := rfl

/-! `extendAt` -/

@[simp] theorem State.extendAt_hr (a : Nat) : (s.extendAt a).hr = s.hr := by unfold State.extendAt; split <;> rfl
@[simp] theorem State.extendAt_bc (a : Nat) : (s.extendAt a).bc = s.bc := by unfold State.extendAt; split <;> rfl
@[simp] theorem State.extendAt_db (a : Nat) : (s.extendAt a).db = s.db := by unfold State.extendAt; split <;> rfl
@[simp] theorem State.extendAt_fb (a : Nat) : (s.extendAt a).fb = s.fb := by unfold State.extendAt; split <;> rfl
@[simp] theorem State.extendAt_flen (a : Nat) :
    (s.extendAt a).flen = if a = s.flen then s.flen + 1 else s.flen := by unfold State.extendAt; split <;> rfl
@[simp] theorem State.extendAt_status (a : Nat) :
    (s.extendAt a).status = s.status := by unfold State.extendAt; split <;> rfl
@[simp] theorem State.extendAt_config (a : Nat) :
    (s.extendAt a).config = s.config := by unfold State.extendAt; split <;> rfl
@[simp] theorem State.extendAt_commands (a : Nat) :
    (s.extendAt a).commands = s.commands := by unfold State.extendAt; split <;> rfl
@[simp] theorem State.extendAt_responses (a : Nat) :
    (s.extendAt a).responses = s.responses := by unfold State.extendAt; split <;> rfl

/-! `coverHeader` -/

@[simp] theorem State.coverHeader_hr (m : SizeClass) :
    (s.coverHeader m).hr = s.hr := by unfold State.coverHeader; split <;> rfl
@[simp] theorem State.coverHeader_bc (m : SizeClass) :
    (s.coverHeader m).bc = s.bc := by unfold State.coverHeader; split <;> rfl
@[simp] theorem State.coverHeader_db (m : SizeClass) :
    (s.coverHeader m).db = s.db := by unfold State.coverHeader; split <;> rfl
@[simp] theorem State.coverHeader_fb (m : SizeClass) :
    (s.coverHeader m).fb =
      if s.flen < headerWidth m then (s.zeroFill (headerWidth m)).fb else s.fb := by unfold State.coverHeader; split <;> rfl
@[simp] theorem State.coverHeader_flen (m : SizeClass) :
    (s.coverHeader m).flen =
      if s.flen < headerWidth m then headerWidth m else s.flen := by unfold State.coverHeader; split <;> rfl
@[simp] theorem State.coverHeader_status (m : SizeClass) :
    (s.coverHeader m).status = s.status := by unfold State.coverHeader; split <;> rfl
@[simp] theorem State.coverHeader_config (m : SizeClass) :
    (s.coverHeader m).config = s.config := by unfold State.coverHeader; split <;> rfl
@[simp] theorem State.coverHeader_commands (m : SizeClass) :
    (s.coverHeader m).commands = s.commands := by unfold State.coverHeader; split <;> rfl
@[simp] theorem State.coverHeader_responses (m : SizeClass) :
    (s.coverHeader m).responses = s.responses := by unfold State.coverHeader; split <;> rfl

/-! `resetCore` -/

@[simp] theorem State.resetCore_hr : (s.resetCore).hr = Header.reset := rfl
@[simp] theorem State.resetCore_bc : (s.resetCore).bc = [] := rfl
@[simp] theorem State.resetCore_db : (s.resetCore).db = [] := rfl
@[simp] theorem State.resetCore_fb : (s.resetCore).fb = [] := rfl
@[simp] theorem State.resetCore_flen : (s.resetCore).flen = 0 := rfl
@[simp] theorem State.resetCore_status : (s.resetCore).status = Status.reset := rfl
@[simp] theorem State.resetCore_config : (s.resetCore).config = s.config := rfl
@[simp] theorem State.resetCore_commands : (s.resetCore).commands = s.commands := rfl
@[simp] theorem State.resetCore_responses : (s.resetCore).responses = s.responses := rfl

/-! `present` -/

@[simp] theorem State.present_hr (ws : List CommandWord) : (s.present ws).hr = s.hr := rfl
@[simp] theorem State.present_bc (ws : List CommandWord) : (s.present ws).bc = s.bc := rfl
@[simp] theorem State.present_db (ws : List CommandWord) : (s.present ws).db = s.db := rfl
@[simp] theorem State.present_fb (ws : List CommandWord) : (s.present ws).fb = s.fb := rfl
@[simp] theorem State.present_flen (ws : List CommandWord) : (s.present ws).flen = s.flen := rfl
@[simp] theorem State.present_status (ws : List CommandWord) : (s.present ws).status = s.status := rfl
@[simp] theorem State.present_config (ws : List CommandWord) : (s.present ws).config = s.config := rfl
@[simp] theorem State.present_commands (ws : List CommandWord) : (s.present ws).commands = s.commands ++ ws := rfl
@[simp] theorem State.present_responses (ws : List CommandWord) : (s.present ws).responses = s.responses := rfl

/-! `withFetchWord` -/

@[simp] theorem State.withFetchWord_hr (n w : Nat) : (s.withFetchWord n w).hr = s.hr := rfl
@[simp] theorem State.withFetchWord_bc (n w : Nat) : (s.withFetchWord n w).bc = s.bc := rfl
@[simp] theorem State.withFetchWord_db (n w : Nat) : (s.withFetchWord n w).db = s.db := rfl
@[simp] theorem State.withFetchWord_fb (n w : Nat) : (s.withFetchWord n w).fb = s.fb := rfl
@[simp] theorem State.withFetchWord_flen (n w : Nat) : (s.withFetchWord n w).flen = s.flen := rfl
@[simp] theorem State.withFetchWord_status (n w : Nat) : (s.withFetchWord n w).status = s.status := rfl
@[simp] theorem State.withFetchWord_config (n w : Nat) : (s.withFetchWord n w).config = s.config := rfl
@[simp] theorem State.withFetchWord_commands (n w : Nat) :
    (s.withFetchWord n w).commands = tableWord n w :: s.commands := rfl
@[simp] theorem State.withFetchWord_responses (n w : Nat) : (s.withFetchWord n w).responses = s.responses := rfl

/-! The status register -/

@[simp] theorem Status.record_last (st : Status) (de : Bool) (c : BitVec 4) : (st.record de c).last = c := rfl
@[simp] theorem Status.record_lastDE (st : Status) (de : Bool) (c : BitVec 4) : (st.record de c).lastDE = de := rfl
@[simp] theorem Status.record_errs (st : Status) (de : Bool) (c : BitVec 4) :
    (st.record de c).errs = (st.errs || c != 0) := rfl
@[simp] theorem Status.record_ckv (st : Status) (de : Bool) (c : BitVec 4) : (st.record de c).ckv = st.ckv := rfl
@[simp] theorem Status.clearErrs_last (st : Status) : st.clearErrs.last = st.last := rfl
@[simp] theorem Status.clearErrs_lastDE (st : Status) : st.clearErrs.lastDE = st.lastDE := rfl
@[simp] theorem Status.clearErrs_errs (st : Status) : st.clearErrs.errs = false := rfl
@[simp] theorem Status.clearErrs_ckv (st : Status) : st.clearErrs.ckv = st.ckv := rfl

/-- No cause has the code of OK. -/
@[simp] theorem Cause.code_ne_zero (e : Cause) : e.code ≠ 0#4 := by cases e <;> decide

/-- The causes have different codes. -/
theorem Cause.code_injective {d e : Cause} (h : d.code = e.code) : d = e := by
  cases d <;> cases e <;> first | rfl | exact absurd h (by decide)

end Sys2Proof.Machine
end

