-- ==== Sys2Proof/Laws/Ops.lean ====
section
/-!
SUPPORT. How a command ends, said once: the checks of its pseudocode, the two ends of a result, and that every command
answers with a next state.
-/

namespace Sys2Proof.Machine

/-! ### Checks -/

section
variable {c : Prop} [Decidable c] {e : Cause} {α : Type}

theorem raiseIf_of (h : c) : raiseIf c e = .error e := if_pos h

theorem raiseIf_of_not (h : ¬ c) : raiseIf c e = .ok () := if_neg h

/-- Everything a check can do to what follows it. -/
theorem raiseIf_bind (f : Unit → Except Cause α) : (raiseIf c e >>= f) = if c then .error e else f () := by
  unfold raiseIf
  split <;> rfl

@[simp] theorem raiseIf_eq_ok {u : Unit} : raiseIf c e = .ok u ↔ ¬ c := by
  unfold raiseIf
  split <;> simp_all

@[simp] theorem raiseIf_eq_error {d : Cause} : raiseIf c e = .error d ↔ c ∧ d = e := by
  unfold raiseIf
  split <;> simp_all [eq_comm]

/-- What follows a computation is reached only where it succeeded. -/
theorem bind_eq_ok {β : Type} {x : Except Cause β} {f : β → Except Cause α} {r : α} :
    (x >>= f) = .ok r ↔ ∃ y, x = .ok y ∧ f y = .ok r := by
  cases x <;> simp [bind, Except.bind]

/-- An error comes from a computation or from what follows it. -/
theorem bind_eq_error {β : Type} {x : Except Cause β} {f : β → Except Cause α} {d : Cause} :
    (x >>= f) = .error d ↔ x = .error d ∨ ∃ y, x = .ok y ∧ f y = .error d := by
  cases x <;> simp [bind, Except.bind]

@[simp] theorem ok_bind {β : Type} (y : β) (f : β → Except Cause α) : (Except.ok y >>= f) = f y := rfl

@[simp] theorem error_bind {β : Type} (d : Cause) (f : β → Except Cause α) :
    ((Except.error d : Except Cause β) >>= f) = .error d := rfl

@[simp] theorem pure_eq_ok (y : α) : (pure y : Except Cause α) = .ok y := rfl

end

/-! ### Ends -/

/-- A count that 32 bits hold is its own value (R72). -/
theorem countValue_of_lt {n : Nat} (h : n < 2 ^ 32) : countValue n = BitVec.ofNat 32 n := if_pos h

/-- A count that 32 bits do not hold has a free value. -/
theorem countValue_of_le {n : Nat} (h : 2 ^ 32 ≤ n) : countValue n = Config.wideCount n := if_neg (Nat.not_lt.mpr h)

@[simp] theorem State.finish_ok (s t : State) (de : Bool) (v : BitVec 32) : s.finish de (.ok (t, v)) = t.succeed v :=
  rfl

@[simp] theorem State.finish_error (s : State) (de : Bool) (e : Cause) : s.finish de (.error e) = s.raise de e := rfl

@[simp] theorem answer_ok (s t : State) (v : BitVec 32) : answer s (.ok (t, v)) = .next (t.succeed v) := rfl

@[simp] theorem answer_error (s : State) (e : Cause) : answer s (.error e) = .next (s.raise false e) := rfl

@[simp] theorem answerWrapped_ok (s t : State) (v : BitVec 32) : answerWrapped s (.ok (t, v)) = .next (t.succeed v) :=
  rfl

@[simp] theorem answerWrapped_error (s : State) (e : Cause) : answerWrapped s (.error e) = .next (s.raise true e) :=
  rfl

/-- Everything the end of a command can be: success with what the command left, or an error on the state it found. -/
theorem State.finish_cases (s : State) (de : Bool) (r : Result) :
    (∃ t v, r = .ok (t, v) ∧ s.finish de r = t.succeed v) ∨ (∃ e, r = .error e ∧ s.finish de r = s.raise de e) := by
  match r with
  | .ok (t, v) => exact .inl ⟨t, v, rfl, rfl⟩
  | .error e => exact .inr ⟨e, rfl, rfl⟩

/-- Inversion of a bare answer. -/
theorem answer_cases {s u : State} {r : Result} (h : answer s r = .next u) :
    (∃ t v, r = .ok (t, v) ∧ u = t.succeed v) ∨ (∃ e, r = .error e ∧ u = s.raise false e) := by
  cases h
  exact s.finish_cases false r

/-- Inversion of a wrapped answer. -/
theorem answerWrapped_cases {s u : State} {r : Result} (h : answerWrapped s r = .next u) :
    (∃ t v, r = .ok (t, v) ∧ u = t.succeed v) ∨ (∃ e, r = .error e ∧ u = s.raise true e) := by
  cases h
  exact s.finish_cases true r

/-! ### The step -/

theorem State.takeCommand_nil {s : State} (h : s.commands = []) : s.takeCommand = none := by
  simp [State.takeCommand, h]

theorem State.takeCommand_cons {s : State} {w : CommandWord} {rest : List CommandWord} (h : s.commands = w :: rest) :
    s.takeCommand = some (w, { s with commands := rest }) := by
  simp [State.takeCommand, h]

/-- The very next step after a word is placed executes it. -/
theorem step_withFetchWord (s : State) (nbits w : Nat) : step (s.withFetchWord nbits w) = execWord (tableWord nbits w) s :=
  rfl

theorem execWord_of_ok {w : CommandWord} {i : Instr} (h : decode w = .ok i) (s : State) : execWord w s = exec i s := by
  simp [execWord, h]

theorem execWord_of_error {w : CommandWord} {e : DecodeReject} (h : decode w = .error e) (s : State) :
    execWord w s = answerIllegal s := by
  simp [execWord, h]

end Sys2Proof.Machine
end

