-- ==== Sys2Proof/Laws/Operands.lean ====
section
/-!
SUPPORT. What every operand form can answer, said once: the field accessors (R150), the class checks (R10, R91, R101, R165),
the selectors (R79), and the payload-relative form of the block accessors (R166).
-/

namespace Sys2Proof.Machine

/-! ### The tables -/

/-- The two checksum bytes are the last two of the header in both classes (R9). -/
theorem checksumOffset_add_two (m : SizeClass) : checksumOffset m + 2 = headerWidth m := by cases m <;> rfl

/-- Every header field lies inside the header (R150). -/
theorem fieldAt_end (f : WireField) (m : SizeClass) : (fieldAt f m).1 + (fieldAt f m).2 ≤ headerWidth m := by
  cases f <;> cases m <;> decide

theorem fieldAt_checkSum (m : SizeClass) : fieldAt .checkSum m = (checksumOffset m, 2) := by cases m <;> rfl

/-- A block's `type` and `len` lie inside its sub-header (R50, R51). -/
theorem blockWidths_le (m : SizeClass) : blockTypeWidth m + blockLenWidth m ≤ subHeaderWidth m := by
  cases m <;> decide

theorem two_le_subHeaderWidth (m : SizeClass) : 2 ≤ subHeaderWidth m := by cases m <;> decide

theorem two_le_headerWidth (m : SizeClass) : 2 ≤ headerWidth m := by cases m <;> decide

/-! ### The header check and the classes -/

@[simp] theorem requireHeader_eq_ok {m : SizeClass} {s : State} {u : Unit} :
    requireHeader m s = .ok u ↔ headerWidth m ≤ s.flen := by
  simp [requireHeader]

@[simp] theorem requireHeader_eq_error {m : SizeClass} {s : State} {e : Cause} :
    requireHeader m s = .error e ↔ s.flen < headerWidth m ∧ e = .malformedHeader := by
  simp [requireHeader]

/-- `class_of` knows exactly the two codes, where they are distinct (R10; `Config.Legal` has it). -/
theorem classOf_eq_ok {c : Config} (h : c.cfgFull ≠ c.cfgMicro) {code : BitVec 2} {m : SizeClass} :
    classOf c code = .ok m ↔ code = (match m with | .full => c.cfgFull | .micro => c.cfgMicro) := by
  unfold classOf
  cases m <;> by_cases h1 : code = c.cfgFull <;> by_cases h2 : code = c.cfgMicro <;> simp_all

theorem classOf_eq_error {c : Config} {code : BitVec 2} {e : Cause} :
    classOf c code = .error e ↔ (code ≠ c.cfgFull ∧ code ≠ c.cfgMicro) ∧ e = .malformedHeader := by
  unfold classOf
  split
  · simp_all
  · split <;> simp_all [eq_comm]

/-- Everything `wireClass` can answer (R165 lines 1 to 5). -/
theorem wireClass_eq_ok {s : State} {m : SizeClass} :
    wireClass s = .ok m ↔ 2 ≤ s.flen ∧ classOf s.config (byte1Cfg (s.fb.read 1)) = .ok m := by
  unfold wireClass
  simp only [bind_eq_ok, raiseIf_eq_ok, Nat.not_lt]
  exact ⟨fun ⟨_, h1, h2⟩ => ⟨h1, h2⟩, fun ⟨h1, h2⟩ => ⟨(), h1, h2⟩⟩

theorem wireClass_eq_error {s : State} {e : Cause} (h : wireClass s = .error e) : e = .malformedHeader := by
  rcases bind_eq_error.mp h with h | ⟨_, _, h⟩
  · exact (raiseIf_eq_error.mp h).2
  · exact (classOf_eq_error.mp h).2

/-! ### The whole-byte fields -/

/-- What a field reads as fits its width. -/
theorem State.readField_lt (s : State) (f : WireField) (m : SizeClass) : s.readField f m < 256 ^ (fieldAt f m).2 :=
  s.memRead_lt _ _

theorem State.wireLen_le (s : State) (m : SizeClass) : s.wireLen m ≤ lenMax m := by
  have := s.readField_lt .len m
  unfold State.wireLen
  cases m <;> simp only [fieldAt, lenMax] at * <;> omega

/-- Two states whose frame buffers agree on the header read the same field. -/
theorem State.readField_congr {s t : State} (f : WireField) (m : SizeClass)
    (h : ∀ a, a < headerWidth m → s.fb.read a = t.fb.read a) : s.readField f m = t.readField f m :=
  State.memRead_congr fun a _ h2 => h a (by have := fieldAt_end f m; omega)

/-- A field reads back what was written to it (R42). -/
theorem State.readField_writeField (s : State) (f : WireField) (m : SizeClass) (v : Nat)
    (h : v < 256 ^ (fieldAt f m).2) : (s.writeField f m v).readField f m = v :=
  s.memRead_memWrite _ _ _ h

/-- Everything `getField` can answer with success (R150). -/
theorem getField_eq_ok {f : WireField} {m : SizeClass} {s t : State} {v : BitVec 32} :
    getField f m s = .ok (t, v) ↔ headerWidth m ≤ s.flen ∧ t = s ∧ v = BitVec.ofNat 32 (s.readField f m) := by
  unfold getField
  simp only [bind_eq_ok, requireHeader_eq_ok, pure_eq_ok, Except.ok.injEq, Prod.mk.injEq]
  exact ⟨fun ⟨_, h1, h2, h3⟩ => ⟨h1, h2.symm, h3.symm⟩, fun ⟨h1, h2, h3⟩ => ⟨(), h1, h2.symm, h3.symm⟩⟩

theorem getField_eq_error {f : WireField} {m : SizeClass} {s : State} {e : Cause} :
    getField f m s = .error e ↔ s.flen < headerWidth m ∧ e = .malformedHeader := by
  simp [getField, bind_eq_error]

/-- Everything `setField` can answer with success (R150, R77). -/
theorem setField_eq_ok {f : WireField} {m : SizeClass} {v w : BitVec 32} {s t : State} :
    setField f m v s = .ok (t, w) ↔
      headerWidth m ≤ s.flen ∧ v.toNat < 2 ^ (8 * (fieldAt f m).2) ∧
      t = (s.writeField f m v.toNat).setCkv false ∧ w = 0 := by
  unfold setField
  simp only [bind_eq_ok, requireHeader_eq_ok, raiseIf_eq_ok, Nat.not_le, pure_eq_ok, Except.ok.injEq, Prod.mk.injEq]
  exact ⟨fun ⟨_, h1, _, h2, h3, h4⟩ => ⟨h1, h2, h3.symm, h4.symm⟩,
    fun ⟨h1, h2, h3, h4⟩ => ⟨(), h1, (), h2, h3.symm, h4.symm⟩⟩

/-- Every error of `setField`: MalformedHeader before RangeError (R150). -/
theorem setField_eq_error {f : WireField} {m : SizeClass} {v : BitVec 32} {s : State} {e : Cause} :
    setField f m v s = .error e ↔
      (s.flen < headerWidth m ∧ e = .malformedHeader) ∨
      (headerWidth m ≤ s.flen ∧ 2 ^ (8 * (fieldAt f m).2) ≤ v.toNat ∧ e = .rangeError) := by
  simp [setField, bind_eq_error]

/-! ### Selectors and indices -/

theorem hrField_eq_error {sel : BitVec 20} {e : Cause} (h : hrField sel = .error e) :
    9 ≤ sel.toNat ∧ e = .illegalCommand := by
  unfold hrField at h
  split at h <;> simp_all
  omega

@[simp] theorem blockAt_eq_ok {idx : BitVec 20} {s : State} {b : Block} :
    blockAt idx s = .ok b ↔ s.bc[idx.toNat]? = some b := by
  unfold blockAt
  split <;> simp_all

theorem blockAt_eq_error {idx : BitVec 20} {s : State} {e : Cause} :
    blockAt idx s = .error e ↔ s.bc.length ≤ idx.toNat ∧ e = .rangeError := by
  unfold blockAt
  split
  · rename_i b h
    have := (List.getElem?_eq_some_iff.mp h).1
    simp
    omega
  · simp_all [eq_comm]

@[simp] theorem byteAt_eq_ok {i : BitVec 32} {b : Block} {x : Byte} :
    byteAt i b = .ok x ↔ b.data[i.toNat]? = some x := by
  unfold byteAt
  split <;> simp_all

theorem byteAt_eq_error {i : BitVec 32} {b : Block} {e : Cause} :
    byteAt i b = .error e ↔ b.data.length ≤ i.toNat ∧ e = .rangeError := by
  unfold byteAt
  split
  · rename_i x h
    have := (List.getElem?_eq_some_iff.mp h).1
    simp
    omega
  · simp_all [eq_comm]

/-! ### The payload-relative form -/

/-- Everything `blk` can answer with success (R166). -/
theorem blk_eq_ok {m : SizeClass} {off : Nat} {s : State} {b : SubHeader} (h : blk m off s = .ok b) :
    headerWidth m ≤ s.flen ∧ b.declared = s.wireLen m ∧ b.present = min (s.wireLen m) (s.flen - headerWidth m) ∧
    off + subHeaderWidth m ≤ b.present ∧
    b.len = s.memRead (headerWidth m + off + blockTypeWidth m) (blockLenWidth m) ∧
    (m = .full → b.next = s.memRead (headerWidth m + off + 4) 2) := by
  simp only [blk, bind_eq_ok, requireHeader_eq_ok, raiseIf_eq_ok, pure_eq_ok, Except.ok.injEq] at h
  obtain ⟨_, h1, _, h2, rfl⟩ := h
  refine ⟨h1, rfl, rfl, Nat.not_lt.mp h2, rfl, ?_⟩
  rintro rfl
  rfl

/-- Where `blk` succeeds (R166). -/
theorem blk_succeeds {m : SizeClass} {off : Nat} {s : State} (h1 : headerWidth m ≤ s.flen)
    (h2 : off + subHeaderWidth m ≤ min (s.wireLen m) (s.flen - headerWidth m)) : ∃ b, blk m off s = .ok b := by
  simp only [blk, bind_eq_ok, requireHeader_eq_ok, raiseIf_eq_ok, pure_eq_ok, Except.ok.injEq]
  exact ⟨_, (), h1, (), Nat.not_lt.mpr h2, rfl⟩

/-- Every error of `blk`: MalformedHeader before TruncatedBlock (R166). -/
theorem blk_eq_error {m : SizeClass} {off : Nat} {s : State} {e : Cause} :
    blk m off s = .error e ↔
      (s.flen < headerWidth m ∧ e = .malformedHeader) ∨
      (headerWidth m ≤ s.flen ∧ min (s.wireLen m) (s.flen - headerWidth m) < off + subHeaderWidth m ∧
        e = .truncatedBlock) := by
  simp [blk, bind_eq_error]

/-- Everything `nextOffset` can answer in the micro class (R167 lines 3 to 6). -/
theorem nextOffset_micro (off : Nat) (b : SubHeader) :
    nextOffset .micro off b =
      if b.declared < off + 2 + b.len then .error .truncatedBlock
      else if off + 2 + b.len = b.declared then .ok 0
      else .ok (off + 2 + b.len) := rfl

@[simp] theorem nextOffset_full (off : Nat) (b : SubHeader) : nextOffset .full off b = .ok b.next := rfl

end Sys2Proof.Machine
end

