-- ==== Sys2Proof/Laws/Codec.lean ====
section
/-!
SUPPORT. The header codec: the big-endian bytes of the field widths, the length of a packed header, the class check, and
what the frame buffer reads after the cover of R91 line 3.
-/

namespace Sys2Proof.Machine

/-! ### Bytes of one field -/

theorem beBytes_one (v : Nat) : beBytes 1 v = [BitVec.ofNat 8 v] := by simp [beBytes]

theorem beBytes_two (v : Nat) : beBytes 2 v = [BitVec.ofNat 8 (v / 256), BitVec.ofNat 8 v] := by
  rw [beBytes_succ, beBytes_one, Nat.shiftRight_eq_div_pow]

/-- The two bytes of a 16-bit field. -/
theorem beBytes_two_toNat16 (x : BitVec 16) : beBytes 2 x.toNat = [x.extractLsb' 8 8, x.extractLsb' 0 8] := by
  rw [beBytes_succ, beBytes_one]
  congr 2

/-- The low two bytes of a 32-bit field, the micro form of `src_id` and `dst_id`. -/
theorem beBytes_two_toNat32 (x : BitVec 32) : beBytes 2 x.toNat = [x.extractLsb' 8 8, x.extractLsb' 0 8] := by
  rw [beBytes_succ, beBytes_one]
  congr 2

/-- The four bytes of a 32-bit field. -/
theorem beBytes_four_toNat32 (x : BitVec 32) :
    beBytes 4 x.toNat = [x.extractLsb' 24 8, x.extractLsb' 16 8, x.extractLsb' 8 8, x.extractLsb' 0 8] := by
  rw [beBytes_succ, beBytes_succ, beBytes_succ, beBytes_one]
  congr 4

/-- An appended vector as a number. -/
theorem toNat_append_mul {n k : Nat} (a : BitVec n) (b : BitVec k) : (a ++ b).toNat = a.toNat * 2 ^ k + b.toNat := by
  rw [BitVec.toNat_append, ← Nat.shiftLeft_add_eq_or_of_lt b.isLt, Nat.shiftLeft_eq]

theorem ofNat_beNat_two (a b : Byte) : BitVec.ofNat 16 (beNat [a, b]) = a ++ b := by
  have h : (a ++ b : BitVec 16).toNat = a.toNat * 2 ^ 8 + b.toNat := toNat_append_mul a b
  have ha := a.isLt
  have hb := b.isLt
  apply BitVec.eq_of_toNat_eq
  rw [h, BitVec.toNat_ofNat]
  simp only [beNat, List.foldl_cons, List.foldl_nil]
  omega

theorem ofNat_beNat_four (a b c d : Byte) : BitVec.ofNat 32 (beNat [a, b, c, d]) = a ++ b ++ c ++ d := by
  have h1 : (a ++ b ++ c ++ d : BitVec 32).toNat = (a ++ b ++ c).toNat * 2 ^ 8 + d.toNat := toNat_append_mul _ d
  have h2 : (a ++ b ++ c).toNat = (a ++ b).toNat * 2 ^ 8 + c.toNat := toNat_append_mul _ c
  have h3 : (a ++ b).toNat = a.toNat * 2 ^ 8 + b.toNat := toNat_append_mul a b
  have ha := a.isLt
  have hb := b.isLt
  have hc := c.isLt
  have hd := d.isLt
  apply BitVec.eq_of_toNat_eq
  rw [h1, h2, h3, BitVec.toNat_ofNat]
  simp only [beNat, List.foldl_cons, List.foldl_nil]
  omega

/-! ### Parts of a byte sequence -/

theorem slice_length {p : List Byte} {o n : Nat} (h : o + n ≤ p.length) : (slice p o n).length = n := by
  simp [slice]
  omega

theorem slice_getElem {p : List Byte} {o n k : Nat} (h : k < (slice p o n).length) :
    (slice p o n)[k] = p[o + k]'(by simp [slice] at h; omega) := by
  simp [slice]

/-- The middle part of three. -/
theorem slice_append {a b c : List Byte} {o n : Nat} (ha : a.length = o) (hb : b.length = n) :
    slice (a ++ b ++ c) o n = b := by
  subst ha hb
  simp [slice]

/-- What is left from an offset on is two adjoining parts and the rest. -/
theorem drop_eq_slice_append (p : List Byte) (o n k : Nat) :
    p.drop o = slice p o n ++ slice p (o + n) k ++ p.drop (o + n + k) := by
  unfold slice
  rw [List.append_assoc, ← List.drop_drop (i := k) (j := o + n), List.take_append_drop, ← List.drop_drop,
    List.take_append_drop]

/-! ### pack -/

@[simp] theorem pack_length (h : Header) (m : SizeClass) : (pack h m).length = headerWidth m := by
  cases m <;> simp [pack, fieldAt, headerWidth]

/-- `pack` in the full class, field by field. -/
theorem pack_full (h : Header) :
    pack h .full = [h.hopLimit, packByte1 h] ++ beBytes 2 h.heartRate.toNat ++ beBytes 4 h.srcId.toNat
      ++ beBytes 4 h.dstId.toNat ++ beBytes 2 h.len.toNat ++ beBytes 2 h.checkSum.toNat := rfl

/-- `pack` in the micro class, field by field. -/
theorem pack_micro (h : Header) :
    pack h .micro = [h.hopLimit, packByte1 h] ++ beBytes 1 h.heartRate.toNat ++ beBytes 2 h.srcId.toNat
      ++ beBytes 2 h.dstId.toNat ++ beBytes 1 h.len.toNat ++ beBytes 2 h.checkSum.toNat := rfl

/-- The three bit fields of byte 1 are read back from it (R44). -/
theorem byte1_fields (e : BitVec 3) (c : BitVec 2) (p : BitVec 3) :
    byte1Earmark (e ++ c ++ p) = e ∧ byte1Cfg (e ++ c ++ p) = c ∧ byte1Priority (e ++ c ++ p) = p := by
  revert e c p; decide

/-- Byte 1 is made of its three bit fields (R44). -/
theorem byte1_eq_fields (b : Byte) : byte1Earmark b ++ byte1Cfg b ++ byte1Priority b = b := by
  revert b; decide

/-! ### The commands' checks -/

/-- Everything `requireClass` can answer (R91 line 1, R101 line 3). -/
@[simp] theorem requireClass_eq_ok {c : Config} {code : BitVec 2} {m : SizeClass} {u : Unit} :
    requireClass c code m = .ok u ↔ classOf c code = .ok m := by
  simp only [requireClass, bind_eq_ok, raiseIf_eq_ok, ne_eq, not_not]
  constructor
  · rintro ⟨k, h, rfl⟩
    exact h
  · exact fun h => ⟨m, h, rfl⟩

theorem requireClass_eq_error {c : Config} {code : BitVec 2} {m : SizeClass} {e : Cause} (h : requireClass c code m = .error e) :
    e = .malformedHeader := by
  rcases bind_eq_error.mp h with h | ⟨_, _, h⟩
  · exact (classOf_eq_error.mp h).2
  · exact (raiseIf_eq_error.mp h).2

/-- The cover of R91 line 3 changes no byte at or above the header. -/
theorem State.coverHeader_read (s : State) (m : SizeClass) {x : Nat} (h : headerWidth m ≤ x) :
    (s.coverHeader m).fb.read x = s.fb.read x := by
  rw [State.coverHeader_fb]
  split
  · rw [State.zeroFill_read, if_neg (by omega)]
  · rfl

/-- Read after `HDR_PACK` stored a packed header: its bytes, and every byte from `HW(m)` up as before. -/
theorem State.storeHeader_read (s : State) (m : SizeClass) (h : Header) (x : Nat) :
    ((s.coverHeader m).fbStore 0 (pack h m)).fb.read x =
      if x < headerWidth m then (pack h m).getD x 0#8 else s.fb.read x := by
  rw [State.fbStore_read, pack_length]
  by_cases hx : x < headerWidth m
  · rw [if_pos (by omega), if_pos hx, Nat.sub_zero]
  · rw [if_neg (by omega), if_neg hx, State.coverHeader_read s m (by omega)]

end Sys2Proof.Machine
end

