-- ==== Sys2Proof/Laws/Checksum.lean ====
section
/-!
SUPPORT. The checksum generator: one shift and one byte of the register lose nothing, the shift is linear, and the checksum
region of the frame in `FB` byte by byte (R111, R112).
-/

namespace Sys2Proof.Machine

/-! ### The register -/

/-- One shift of the register loses nothing: the generator's constant term is 1. -/
theorem crcShift_injective {c d : BitVec 16} (h : crcShift c = crcShift d) : c = d := by
  have hb : ∀ x : BitVec 16, (crcShift x).getLsbD 0 = x.msb := by
    intro x
    unfold crcShift
    split <;> simp_all
  have hm : c.msb = d.msb := by rw [← hb c, ← hb d, h]
  have hs : c <<< 1 = d <<< 1 := by
    unfold crcShift at h
    rw [hm] at h
    split at h
    · have := congrArg (fun x => x ^^^ 0x1021#16) h
      simpa [BitVec.xor_assoc] using this
    · exact h
  apply BitVec.eq_of_getLsbD_eq
  intro i hi
  by_cases h15 : i = 15
  · subst h15
    simpa [BitVec.msb_eq_getLsbD_last] using hm
  · have := congrArg (fun x => x.getLsbD (i + 1)) hs
    simpa [show i + 1 < 16 by omega, BitVec.getLsbD_eq_getElem hi] using this

/-- The shift is linear over exclusive-or. -/
theorem crcShift_xor (c d : BitVec 16) : crcShift (c ^^^ d) = crcShift c ^^^ crcShift d := by
  unfold crcShift
  rw [BitVec.msb_xor, BitVec.shiftLeft_xor_distrib]
  cases c.msb <;> cases d.msb <;> simp only [Bool.xor_false, Bool.xor_true, Bool.not_false, Bool.not_true, if_true,
    Bool.false_eq_true, if_false]
  · rw [BitVec.xor_assoc]
  · rw [BitVec.xor_assoc, BitVec.xor_assoc, BitVec.xor_comm (0x1021#16)]
  · rw [BitVec.xor_assoc, BitVec.xor_comm (0x1021#16), BitVec.xor_assoc, BitVec.xor_self, BitVec.xor_zero]

theorem crcByte_injective {c d : BitVec 16} {b e : Byte} (h : crcByte c b = crcByte d e) :
    c ^^^ (b.setWidth 16 <<< 8) = d ^^^ (e.setWidth 16 <<< 8) := by
  unfold crcByte at h
  iterate 8 replace h := crcShift_injective h
  exact h

/-- Two different registers stay different under the same bytes. -/
theorem foldl_crcByte_injective (bytes : List Byte) : ∀ {c d : BitVec 16},
    bytes.foldl crcByte c = bytes.foldl crcByte d → c = d := by
  induction bytes with
  | nil => intro c d h; exact h
  | cons b rest ih =>
    intro c d h
    have := congrArg (fun x => x ^^^ (b.setWidth 16 <<< 8)) (crcByte_injective (ih h))
    simpa [BitVec.xor_assoc] using this

/-- Two different bytes give different registers. -/
theorem crcByte_ne {c : BitVec 16} {b e : Byte} (h : b ≠ e) : crcByte c b ≠ crcByte c e := by
  intro hc
  have h1 := congrArg (fun x => c ^^^ x) (crcByte_injective hc)
  simp only [← BitVec.xor_assoc, BitVec.xor_self, BitVec.zero_xor] at h1
  refine h (BitVec.eq_of_getLsbD_eq fun i hi => ?_)
  have := congrArg (fun x => x.getLsbD (i + 8)) h1
  simpa [show i + 8 < 16 by omega, show i < 16 by omega] using this

/-- The default checksum function (R12, R112). -/
theorem cksum_of_crc16 {c : Config} (h : c.checksum = .crc16) : c.cksum = crc16 := by
  funext bytes
  unfold Config.cksum
  rw [h]

/-- An implementation's own checksum function is the free one of its number (R12). -/
theorem cksum_of_other {c : Config} {k : Nat} (h : c.checksum = .other k) : c.cksum = Config.otherCksum k := by
  funext bytes
  unfold Config.cksum
  rw [h]

/-- Everything a legal core's checksum function can be: the default, or an own one with the properties of R110. -/
theorem cksum_cases {c : Config} (h : c.Legal) :
    c.cksum = crc16 ∨ ∃ k, c.cksum = Config.otherCksum k ∧ Config.ChecksumProperties (Config.otherCksum k) := by
  cases hc : c.checksum with
  | crc16 => exact .inl (cksum_of_crc16 hc)
  | other k => exact .inr ⟨k, cksum_of_other hc, h.checksum_properties k hc⟩

/-- With the default checksum function the constraints on the parameters are those of R11 and R10. -/
theorem legal_of_crc16 {c : Config} (hc : c.checksum = .crc16) (h1 : 16 ≤ c.fbSize) (h2 : c.dbMax ≤ 65535)
    (h3 : 1 ≤ c.nblkMax) (h4 : c.cfgFull ≠ c.cfgMicro) : c.Legal :=
  ⟨h1, h2, h3, fun k hk => absurd (hc.symm.trans hk) (by simp), h4⟩

theorem crc16_append (a b : List Byte) : crc16 (a ++ b) = b.foldl crcByte (crc16 a) := List.foldl_append

/-! ### The region -/

/-- The checksum of the frame does not look at the two checksum bytes nor above `FLEN` (R111). -/
theorem State.computedChecksum_congr {s t : State} {m : SizeClass} (hc : s.config = t.config)
    (hf : s.flen = t.flen) (h : ∀ a, a < s.flen → a ≠ checksumOffset m → a ≠ checksumOffset m + 1 → s.fb.read a = t.fb.read a) :
    s.computedChecksum m = t.computedChecksum m := by
  unfold State.computedChecksum region
  rw [hc]
  congr 2
  · refine List.ext_getElem (by simp [hf]) fun j h1 h2 => ?_
    simp only [List.length_take, State.frame_length] at h1
    simp only [List.getElem_take, State.frame_getElem]
    exact h j (by omega) (by omega) (by omega)
  · refine List.ext_getElem (by simp [hf]) fun j h1 h2 => ?_
    simp only [List.length_drop, State.frame_length] at h1
    simp only [List.getElem_drop, State.frame_getElem]
    exact h _ (by omega) (by omega) (by omega)

/-- The region of a frame with at least a header is two bytes shorter than the frame. -/
theorem region_length {m : SizeClass} {frame : List Byte} (h : headerWidth m ≤ frame.length) :
    (region m frame).length = frame.length - 2 := by
  have := checksumOffset_add_two m
  simp [region]
  omega

/-- The embedded checksum is the two bytes at `CO(m)`, the high one first (R114 line 3). -/
theorem State.storedChecksum_eq (s : State) (m : SizeClass) :
    s.storedChecksum m = s.fb.read (checksumOffset m) ++ s.fb.read (checksumOffset m + 1) := by
  unfold State.storedChecksum State.readField State.memRead State.fbBytes
  rw [fieldAt_checkSum, ← ofNat_beNat_two]
  simp [List.range_succ]

end Sys2Proof.Machine
end

