-- ==== Sys2Proof/Laws/Blocks.lean ====
section
/-!
SUPPORT. The payload block serializer: lengths of `ser` (R133), what one turn and the whole of the loop of `parse` can answer
(R134), and what the frame buffer reads after `BLK_SERIALIZE`.
-/

namespace Sys2Proof.Machine

/-! ### Lengths -/

@[simp] theorem payloadLength_nil (m : SizeClass) : payloadLength m [] = 0 := rfl

@[simp] theorem payloadLength_cons (m : SizeClass) (b : Block) (bc : List Block) :
    payloadLength m (b :: bc) = subHeaderWidth m + b.data.length + payloadLength m bc := by
  simp [payloadLength]

@[simp] theorem dataTotal_nil : dataTotal [] = 0 := rfl

@[simp] theorem dataTotal_cons (b : Block) (bc : List Block) : dataTotal (b :: bc) = b.data.length + dataTotal bc := by
  simp [dataTotal]

theorem dataTotal_append (a b : List Block) : dataTotal (a ++ b) = dataTotal a + dataTotal b := by
  simp [dataTotal]

/-- The sub-headers and the data together are the payload (R133 line 2). -/
theorem payloadLength_eq (m : SizeClass) (bc : List Block) :
    payloadLength m bc = subHeaderWidth m * bc.length + dataTotal bc := by
  induction bc with
  | nil => rfl
  | cons b rest ih =>
    rw [payloadLength_cons, dataTotal_cons, List.length_cons, ih]
    ring

@[simp] theorem subHeader_length (m : SizeClass) (b : Block) (next : Nat) :
    (subHeader m b next).length = subHeaderWidth m := by
  cases m <;> simp [subHeader, blockTypeWidth, blockLenWidth, subHeaderWidth]

@[simp] theorem serFrom_length (m : SizeClass) (bc : List Block) : ∀ o, (serFrom m o bc).length = payloadLength m bc := by
  induction bc with
  | nil => intro o; rfl
  | cons b rest ih =>
    intro o
    rw [serFrom, List.length_append, List.length_append, subHeader_length, ih, payloadLength_cons]

@[simp] theorem ser_length (m : SizeClass) (bc : List Block) : (ser m bc).length = payloadLength m bc :=
  serFrom_length m bc 0

/-- The blocks after a prefix of the chain are serialized from the end of the prefix. -/
theorem serFrom_append (m : SizeClass) (pre : List Block) (b : Block) (post : List Block) : ∀ o, ∃ head : List Byte,
    head.length = payloadLength m pre ∧
    serFrom m o (pre ++ b :: post) = head ++ serFrom m (o + payloadLength m pre) (b :: post) := by
  induction pre with
  | nil => intro o; exact ⟨[], rfl, rfl⟩
  | cons a rest ih =>
    intro o
    obtain ⟨head, h1, h2⟩ := ih (o + subHeaderWidth m + a.data.length)
    refine ⟨subHeader m a (if (rest ++ b :: post).isEmpty then 0 else o + subHeaderWidth m + a.data.length) ++ a.data
      ++ head, by simp [h1]; omega, ?_⟩
    rw [List.cons_append, serFrom, h2, payloadLength_cons]
    simp only [List.append_assoc]
    congr 4
    omega

/-! ### Checks -/

/-- Everything that holds of a chain that can be serialized (R133 lines 1 and 2). -/
theorem requireSerializable_eq_ok {cfg : Config} {m : SizeClass} {bc : List Block} {u : Unit} :
    requireSerializable cfg m bc = .ok u ↔
      blocksFit m bc ∧ payloadLength m bc ≤ lenMax m ∧ headerWidth m + payloadLength m bc ≤ cfg.fbSize := by
  simp only [requireSerializable, bind_eq_ok, raiseIf_eq_ok, not_not, not_or, Nat.not_lt]
  exact ⟨fun ⟨_, h1, h2⟩ => ⟨h1, h2⟩, fun ⟨h1, h2⟩ => ⟨(), h1, h2⟩⟩

theorem requireSerializable_eq_error {cfg : Config} {m : SizeClass} {bc : List Block} {e : Cause}
    (h : requireSerializable cfg m bc = .error e) : e = .rangeError := by
  rcases bind_eq_error.mp h with h | ⟨_, _, h⟩ <;> exact (raiseIf_eq_error.mp h).2

/-! ### parse -/

/-- Everything one turn of the loop can answer with success (R134). -/
theorem parseBlock_eq_ok {cfg : Config} {m : SizeClass} {p : List Byte} {o total count : Nat} {b : Block}
    (h : parseBlock cfg m p o total count = .ok b) :
    b.data.length = beNat (slice p (o + blockTypeWidth m) (blockLenWidth m)) ∧
    b.type = BitVec.ofNat 16 (beNat (slice p o (blockTypeWidth m))) ∧
    b.data = slice p (o + subHeaderWidth m) b.data.length ∧
    o + subHeaderWidth m + b.data.length ≤ p.length ∧
    (m = .full → beNat (slice p (o + 4) 2) =
      if o + subHeaderWidth m + b.data.length < p.length then o + subHeaderWidth m + b.data.length else 0) ∧
    count ≠ cfg.nblkMax ∧ total + b.data.length ≤ cfg.bcDataMax := by
  simp only [parseBlock, bind_eq_ok, raiseIf_eq_ok, pure_eq_ok, Except.ok.injEq] at h
  obtain ⟨_, h1, _, h2, _, h3, _, h4, rfl⟩ := h
  have hl : (slice p (o + subHeaderWidth m) (beNat (slice p (o + blockTypeWidth m) (blockLenWidth m)))).length =
      beNat (slice p (o + blockTypeWidth m) (blockLenWidth m)) := slice_length (by omega)
  push Not at h3 h4
  simp only [hl]
  exact ⟨trivial, trivial, trivial, by omega, h3, h4.1, h4.2⟩

/-- Every error of one turn (R134). -/
theorem parseBlock_eq_error {cfg : Config} {m : SizeClass} {p : List Byte} {o total count : Nat} {e : Cause}
    (h : parseBlock cfg m p o total count = .error e) :
    e = .truncatedBlock ∨ e = .malformedPayload ∨ e = .rangeError := by
  simp only [parseBlock, bind_eq_error, raiseIf_eq_error, pure_eq_ok] at h
  rcases h with h | ⟨_, _, h | ⟨_, _, h | ⟨_, _, h | ⟨_, _, h⟩⟩⟩⟩
  · exact .inl h.2
  · exact .inl h.2
  · exact .inr (.inl h.2)
  · exact .inr (.inr h.2)
  · simp at h

/-- The loop ends at the end of the region. -/
theorem parseFrom_of_le {cfg : Config} {m : SizeClass} {p : List Byte} {o : Nat} (h : p.length ≤ o) (fuel total : Nat)
    (out : List Block) : parseFrom cfg m p fuel o total out = .ok out := by
  cases fuel with
  | zero => rfl
  | succ n => rw [parseFrom, if_neg (by omega)]

/-- One turn of the loop. -/
theorem parseFrom_of_lt {cfg : Config} {m : SizeClass} {p : List Byte} {o : Nat} (h : o < p.length) (fuel total : Nat)
    (out : List Block) :
    parseFrom cfg m p (fuel + 1) o total out =
      (parseBlock cfg m p o total out.length >>= fun b =>
        parseFrom cfg m p fuel (o + subHeaderWidth m + b.data.length) (total + b.data.length) (out ++ [b])) := by
  rw [parseFrom, if_pos h]

/-- Every error of `parse` (R134). -/
theorem parseFrom_eq_error {cfg : Config} {m : SizeClass} {p : List Byte} {e : Cause} : ∀ {fuel o total : Nat} {out : List Block},
    parseFrom cfg m p fuel o total out = .error e → e = .truncatedBlock ∨ e = .malformedPayload ∨ e = .rangeError := by
  intro fuel
  induction fuel with
  | zero => intro o total out h; simp [parseFrom] at h
  | succ n ih =>
    intro o total out h
    by_cases ho : o < p.length
    · rw [parseFrom_of_lt ho] at h
      rcases bind_eq_error.mp h with h | ⟨_, _, h⟩
      · exact parseBlock_eq_error h
      · exact ih h
    · rw [parseFrom_of_le (by omega)] at h
      simp at h

/-- The chain the loop gives continues the blocks found before and keeps the capacities (R134 check 4). -/
theorem parseFrom_eq_ok {cfg : Config} {m : SizeClass} {p : List Byte} {bc : List Block} : ∀ {fuel o total : Nat} {out : List Block},
    parseFrom cfg m p fuel o total out = .ok bc → total = dataTotal out → out.length ≤ cfg.nblkMax →
      total ≤ cfg.bcDataMax →
      (∃ rest, bc = out ++ rest) ∧ bc.length ≤ cfg.nblkMax ∧ dataTotal bc ≤ cfg.bcDataMax := by
  intro fuel
  induction fuel with
  | zero =>
    intro o total out h h1 h2 h3
    cases h
    exact ⟨⟨[], by simp⟩, h2, by omega⟩
  | succ n ih =>
    intro o total out h h1 h2 h3
    by_cases ho : o < p.length
    · rw [parseFrom_of_lt ho] at h
      obtain ⟨b, hb, h⟩ := bind_eq_ok.mp h
      obtain ⟨-, -, -, -, -, hc, ht⟩ := parseBlock_eq_ok hb
      obtain ⟨⟨rest, rfl⟩, h5, h6⟩ := ih h (by rw [dataTotal_append, dataTotal_cons, dataTotal_nil]; omega)
        (by rw [List.length_append, List.length_singleton]; omega) ht
      exact ⟨⟨b :: rest, by simp⟩, h5, h6⟩
    · rw [parseFrom_of_le (by omega)] at h
      cases h
      exact ⟨⟨[], by simp⟩, h2, by omega⟩

theorem parse_eq_error {cfg : Config} {m : SizeClass} {p : List Byte} {e : Cause} (h : parse cfg m p = .error e) :
    e = .truncatedBlock ∨ e = .malformedPayload ∨ e = .rangeError := parseFrom_eq_error h

theorem parse_eq_ok {cfg : Config} {m : SizeClass} {p : List Byte} {bc : List Block} (h : parse cfg m p = .ok bc) :
    bc.length ≤ cfg.nblkMax ∧ dataTotal bc ≤ cfg.bcDataMax :=
  (parseFrom_eq_ok h rfl (by simp) (by simp)).2

/-! ### BLK_SERIALIZE -/

/-- Read after `BLK_SERIALIZE`, below the new `FLEN`: the payload, the header bytes kept, missing ones zero (R133). -/
theorem State.storePayload_read (s : State) (m : SizeClass) (bc : List Block) {x : Nat}
    (h : x < headerWidth m + payloadLength m bc) :
    (((s.zeroFill (headerWidth m)).fbStore (headerWidth m) (ser m bc)).cutFlen
      (headerWidth m + payloadLength m bc)).fb.read x =
      if headerWidth m ≤ x then (ser m bc).getD (x - headerWidth m) 0#8
      else if x < s.flen then s.fb.read x else 0#8 := by
  rw [State.cutFlen_read, if_pos h, State.fbStore_read, State.zeroFill_read, ser_length]
  by_cases h1 : headerWidth m ≤ x
  · rw [if_pos ⟨h1, h⟩, if_pos h1]
  · rw [if_neg (fun c => h1 c.1), if_neg h1]
    by_cases h2 : x < s.flen
    · rw [if_neg (by omega), if_pos h2]
    · rw [if_pos (by omega), if_neg h2]

end Sys2Proof.Machine
end

