-- ==== Sys2Proof/Laws/Composite.lean ====
section
/-!
SUPPORT. The composite commands: the frame `DUMP` builds, byte by byte (R190), and the one shape every command's meaning has.
-/

namespace Sys2Proof.Machine

@[simp] theorem rawFrame_length (h : Header) (m : SizeClass) (bc : List Block) :
    (rawFrame h m bc).length = headerWidth m + payloadLength m bc := by
  rw [rawFrame, List.length_append, pack_length, ser_length]

@[simp] theorem stampFrame_length (m : SizeClass) (frame : List Byte) (c : BitVec 16) :
    (stampFrame m frame c).length = frame.length := by simp [stampFrame]

/-- A stamped frame: the two checksum bytes, every other byte as before. -/
theorem stampFrame_getD (m : SizeClass) (frame : List Byte) (c : BitVec 16) {a : Nat} (h : a < frame.length) :
    (stampFrame m frame c).getD a 0#8 =
      if a = checksumOffset m then c.extractLsb' 8 8
      else if a = checksumOffset m + 1 then c.extractLsb' 0 8 else frame.getD a 0#8 := by
  rw [List.getD_eq_getElem _ _ (by simpa using h), List.getD_eq_getElem _ _ h]
  simp only [stampFrame, List.getElem_set]
  by_cases h1 : a = checksumOffset m
  · rw [if_neg (by omega), if_pos h1.symm, if_pos h1]
  · rw [if_neg h1]
    by_cases h2 : a = checksumOffset m + 1
    · rw [if_pos h2.symm, if_pos h2]
    · rw [if_neg (Ne.symm h2), if_neg (Ne.symm h1), if_neg h2]

/-- Read after `DUMP` stored its frame, below the new `FLEN` (R190 lines 8 and 9). -/
theorem State.storeFrame_read (s : State) (m : SizeClass) (frame : List Byte) (c : BitVec 16) {x : Nat}
    (h : x < frame.length) :
    ((s.fbStore 0 (stampFrame m frame c)).cutFlen frame.length).fb.read x =
      if x = checksumOffset m then c.extractLsb' 8 8
      else if x = checksumOffset m + 1 then c.extractLsb' 0 8 else frame.getD x 0#8 := by
  rw [State.cutFlen_read, if_pos h, State.fbStore_read, stampFrame_length, if_pos (by omega), Nat.sub_zero,
    stampFrame_getD m frame c h]

end Sys2Proof.Machine
end

