-- ==== Sys2Proof/Laws/Decode.lean ====
section
/-!
SUPPORT. The fields of an encoded word (R71, R83) and the shape of the decoder.
-/

namespace Sys2Proof

variable (op : BitVec 8) (m : BitVec 1) (a : BitVec 20) (v : BitVec 32)

/-! ### The fields of a word -/

/-- The word as a number: `op << 56 | m << 55 | a << 32 | v` (R83), the fields not overlapping. -/
theorem commandWord_toNat :
    (commandWord op m a v).toNat = op.toNat * 2 ^ 56 + m.toNat * 2 ^ 55 + a.toNat * 2 ^ 32 + v.toNat := by
  have hm := m.isLt
  have ha := a.isLt
  have hv := v.isLt
  show (op ++ m ++ 0#3 ++ a ++ v).toNat = _
  rw [BitVec.toNat_append, BitVec.toNat_append, BitVec.toNat_append, BitVec.toNat_append,
    ← Nat.shiftLeft_add_eq_or_of_lt hv, ← Nat.shiftLeft_add_eq_or_of_lt ha,
    ← Nat.shiftLeft_add_eq_or_of_lt (by decide : (0#3).toNat < 2 ^ 3), ← Nat.shiftLeft_add_eq_or_of_lt hm]
  simp only [Nat.shiftLeft_eq, BitVec.toNat_ofNat]
  omega

theorem commandOp_toNat (w : CommandWord) : (commandOp w).toNat = w.toNat / 2 ^ 56 := by
  have := w.isLt
  rw [commandOp, BitVec.extractLsb'_toNat, Nat.shiftRight_eq_div_pow]
  omega

theorem commandM_toNat (w : CommandWord) : (commandM w).toNat = w.toNat / 2 ^ 55 % 2 := by
  rw [commandM, BitVec.extractLsb'_toNat, Nat.shiftRight_eq_div_pow]

theorem commandZero_toNat (w : CommandWord) : (commandZero w).toNat = w.toNat / 2 ^ 52 % 8 := by
  rw [commandZero, BitVec.extractLsb'_toNat, Nat.shiftRight_eq_div_pow]

theorem commandA_toNat (w : CommandWord) : (commandA w).toNat = w.toNat / 2 ^ 32 % 2 ^ 20 := by
  rw [commandA, BitVec.extractLsb'_toNat, Nat.shiftRight_eq_div_pow]

theorem commandV_toNat (w : CommandWord) : (commandV w).toNat = w.toNat % 2 ^ 32 := by
  rw [commandV, BitVec.extractLsb'_toNat, Nat.shiftRight_zero]

@[simp] theorem commandOp_commandWord : commandOp (commandWord op m a v) = op := by
  have hm := m.isLt
  have ha := a.isLt
  have hv := v.isLt
  apply BitVec.eq_of_toNat_eq
  rw [commandOp_toNat, commandWord_toNat]
  omega

@[simp] theorem commandM_commandWord : commandM (commandWord op m a v) = m := by
  have hm := m.isLt
  have ha := a.isLt
  have hv := v.isLt
  apply BitVec.eq_of_toNat_eq
  rw [commandM_toNat, commandWord_toNat]
  omega

@[simp] theorem commandZero_commandWord : commandZero (commandWord op m a v) = 0#3 := by
  have hm := m.isLt
  have ha := a.isLt
  have hv := v.isLt
  apply BitVec.eq_of_toNat_eq
  rw [commandZero_toNat, commandWord_toNat]
  simp only [BitVec.toNat_ofNat]
  omega

@[simp] theorem commandA_commandWord : commandA (commandWord op m a v) = a := by
  have ha := a.isLt
  have hv := v.isLt
  apply BitVec.eq_of_toNat_eq
  rw [commandA_toNat, commandWord_toNat]
  omega

@[simp] theorem commandV_commandWord : commandV (commandWord op m a v) = v := by
  have hv := v.isLt
  apply BitVec.eq_of_toNat_eq
  rw [commandV_toNat, commandWord_toNat]
  omega

/-- A word whose zero field is zero is the word of its own fields. -/
theorem commandWord_fields (w : CommandWord) (h : commandZero w = 0#3) :
    commandWord (commandOp w) (commandM w) (commandA w) (commandV w) = w := by
  have hz := congrArg BitVec.toNat h
  rw [commandZero_toNat] at hz
  simp only [BitVec.toNat_ofNat] at hz
  apply BitVec.eq_of_toNat_eq
  rw [commandWord_toNat, commandOp_toNat, commandM_toNat, commandA_toNat, commandV_toNat]
  omega

/-! ### Classes -/

@[simp] theorem classOfBit_classBit (k : SizeClass) : classOfBit (classBit k) = k := by cases k <;> rfl

@[simp] theorem classBit_classOfBit (b : BitVec 1) : classBit (classOfBit b) = b := by
  revert b; decide

/-! ### The decoder -/

/-- Everything that holds of a word a row accepts. -/
theorem decodeRow_eq_ok {r : OpcodeRow} {w : CommandWord} {i : Instr} :
    decodeRow r w = .ok i ↔
      commandZero w = 0 ∧ (r.usesM = false → commandM w = 0) ∧ (r.usesA = false → commandA w = 0) ∧
      (r.usesV = false → commandV w = 0) ∧
      i = r.build (classOfBit (commandM w)) (commandA w) (commandV w) ∧ i.wellFormed = true := by
  unfold decodeRow
  simp only []
  split
  · simp_all
  · split
    · simp_all
    · split
      · simp_all
      · split
        · simp_all
        · split <;> grind

/-- Everything that holds of a word the decoder accepts. -/
theorem decode_eq_ok {w : CommandWord} {i : Instr} :
    decode w = .ok i ↔ ∃ r, opcodeMap.find? (fun r => r.op == commandOp w) = some r ∧ decodeRow r w = .ok i := by
  unfold decode
  cases opcodeMap.find? (fun r => r.op == commandOp w) <;> simp

end Sys2Proof
end

