-- ==== Sys2Proof/Laws/Exec.lean ====
section
/-!
SUPPORT. The one shape of every meaning: all commands but `STATUS_GET` end in the success or the error of a result, `LOAD`
alone with its errors wrapped (R233), so that the step always answers with a next state.
-/

namespace Sys2Proof.Machine

/-- `STATUS_GET`, the one command whose success updates nothing (R32, R202). -/
theorem exec_statusGet (s : State) : exec .statusGet s = .next (s.respond false 0 s.status.word) := rfl

/-- `LOAD`, the one command whose errors are wrapped (R233). -/
theorem exec_load_eq_answerWrapped (s : State) : ∃ r, exec .load s = answerWrapped s r := ⟨_, rfl⟩

/-- Every other command answers bare. -/
theorem exec_eq_answer (i : Instr) (s : State) (h1 : i ≠ .statusGet) (h2 : i ≠ .load) : ∃ r, exec i s = answer s r := by
  cases i with
  | statusGet => exact absurd rfl h1
  | load => exact absurd rfl h2
  | nop | reset | statusClr | sysGet | hdrPack | hdrUnpack | cksumCompute | cksumStamp | cksumVerify | blkAppend
  | blkClear | blkSerialize | blkDeserialize | getPriority | setPriority | getHopLimit | addHopLimit | getHeartRate
  | setHeartRate | getSrc | setSrc | getDst | setDst | getLen | setLen | getChecksum | setChecksum | isMicro
  | getBlockNext | getBlockLen | getBlockData | dump | hrGet | hrSet | fbRead | fbWrite | fbSetlen | dbClear | dbPush
  | blkType | blkLen | blkByte => exact ⟨_, rfl⟩

/-- Everything a command can end in: a successful `STATUS_GET`, the success of a result, or an error, bare but for
`LOAD`. -/
theorem exec_cases {i : Instr} {s u : State} (h : exec i s = .next u) :
    (i = .statusGet ∧ u = s.respond false 0 s.status.word) ∨
    (i ≠ .statusGet ∧ ∃ (t : State) (v : BitVec 32), u = t.succeed v) ∨
    (i ≠ .statusGet ∧ ∃ e, u = s.raise (decide (i = .load)) e) := by
  by_cases h1 : i = .statusGet
  · subst h1
    cases h
    exact .inl ⟨rfl, rfl⟩
  · by_cases h2 : i = .load
    · subst h2
      obtain ⟨r, hr⟩ := exec_load_eq_answerWrapped s
      rcases answerWrapped_cases (hr ▸ h) with ⟨t, v, -, hu⟩ | ⟨e, -, hu⟩
      · exact .inr (.inl ⟨h1, t, v, hu⟩)
      · exact .inr (.inr ⟨h1, e, by simpa using hu⟩)
    · obtain ⟨r, hr⟩ := exec_eq_answer i s h1 h2
      rcases answer_cases (hr ▸ h) with ⟨t, v, -, hu⟩ | ⟨e, -, hu⟩
      · exact .inr (.inl ⟨h1, t, v, hu⟩)
      · exact .inr (.inr ⟨h1, e, by simpa [h2] using hu⟩)

/-- Every command answers with a next state. -/
theorem exec_next (i : Instr) (s : State) : ∃ t, exec i s = .next t := by
  by_cases h1 : i = .statusGet
  · exact ⟨_, h1 ▸ exec_statusGet s⟩
  · by_cases h2 : i = .load
    · exact h2 ▸ ⟨_, (exec_load_eq_answerWrapped s).choose_spec⟩
    · exact ⟨_, (exec_eq_answer i s h1 h2).choose_spec⟩

/-- Every command word answers with a next state. -/
theorem execWord_next (w : CommandWord) (s : State) : ∃ t, execWord w s = .next t := by
  unfold execWord
  split
  · exact exec_next _ _
  · exact ⟨_, rfl⟩

/-- Every step is safe: the core neither faults nor refuses (93_implementation_defined.md part 1). -/
theorem step_safe (s : State) : SafeStep s := by
  unfold SafeStep step
  split
  · exact ⟨_, rfl⟩
  · exact execWord_next _ _

end Sys2Proof.Machine
end

