-- ==== Sys2Proof/Laws/PerInstr.lean ====
section
/-!
SUPPORT. A statement about every command as syntax, one lemma per constructor: the row of the opcode map R74 that the
decoder finds for the command's word, and that the word holds exactly the operands of that row.
-/

namespace Sys2Proof.Laws.EncodesItsRow

/-- R74, R83: the decoder finds a row for the opcode of the command's word; the zero field and every field the row does
not use are zero; and the row builds the command back from the word's fields. -/
def Statement (i : Instr) : Prop :=
  ∃ r, opcodeMap.find? (fun r => r.op == commandOp (encode i)) = some r ∧ commandZero (encode i) = 0#3 ∧
    (r.usesM = false → commandM (encode i) = 0#1) ∧ (r.usesA = false → commandA (encode i) = 0#20) ∧
    (r.usesV = false → commandV (encode i) = 0#32) ∧
    r.build (classOfBit (commandM (encode i))) (commandA (encode i)) (commandV (encode i)) = i

/-- A row the decoder finds for the opcode of a word gives the statement for the commands of that row. -/
theorem of_row {i : Instr} {m : BitVec 1} {a : BitVec 20} {v : BitVec 32} (r : OpcodeRow)
    (hw : encode i = commandWord r.op m a v) (hr : opcodeMap.find? (fun q => q.op == r.op) = some r)
    (hm : r.usesM = false → m = 0#1) (ha : r.usesA = false → a = 0#20) (hv : r.usesV = false → v = 0#32)
    (hi : r.build (classOfBit m) a v = i) : Statement i := by
  refine ⟨r, ?_, ?_, ?_, ?_, ?_, ?_⟩ <;> simp only [hw, commandOp_commandWord, commandZero_commandWord,
    commandM_commandWord, commandA_commandWord, commandV_commandWord]
  all_goals assumption

theorem nop : Statement .nop :=
  of_row (rowPlain 0x00 .nop) rfl rfl (fun _ => rfl) (fun _ => rfl) (fun _ => rfl) rfl

theorem reset : Statement .reset :=
  of_row (rowPlain 0x01 .reset) rfl rfl (fun _ => rfl) (fun _ => rfl) (fun _ => rfl) rfl

theorem statusGet : Statement .statusGet :=
  of_row (rowPlain 0x02 .statusGet) rfl rfl (fun _ => rfl) (fun _ => rfl) (fun _ => rfl) rfl

theorem statusClr : Statement .statusClr :=
  of_row (rowPlain 0x03 .statusClr) rfl rfl (fun _ => rfl) (fun _ => rfl) (fun _ => rfl) rfl

theorem sysGet (sel : BitVec 20) : Statement (.sysGet sel) :=
  of_row (rowA 0x04 .sysGet) rfl rfl (fun _ => rfl) (fun h => nomatch h) (fun _ => rfl) rfl

theorem hdrPack (m : SizeClass) : Statement (.hdrPack m) :=
  of_row (rowM 0x10 .hdrPack) rfl rfl (fun h => nomatch h) (fun _ => rfl) (fun _ => rfl) (by simp [rowM])

theorem hdrUnpack (m : SizeClass) : Statement (.hdrUnpack m) :=
  of_row (rowM 0x11 .hdrUnpack) rfl rfl (fun h => nomatch h) (fun _ => rfl) (fun _ => rfl) (by simp [rowM])

theorem cksumCompute (m : SizeClass) : Statement (.cksumCompute m) :=
  of_row (rowM 0x20 .cksumCompute) rfl rfl (fun h => nomatch h) (fun _ => rfl) (fun _ => rfl) (by simp [rowM])

theorem cksumStamp (m : SizeClass) : Statement (.cksumStamp m) :=
  of_row (rowM 0x21 .cksumStamp) rfl rfl (fun h => nomatch h) (fun _ => rfl) (fun _ => rfl) (by simp [rowM])

theorem cksumVerify (m : SizeClass) : Statement (.cksumVerify m) :=
  of_row (rowM 0x22 .cksumVerify) rfl rfl (fun h => nomatch h) (fun _ => rfl) (fun _ => rfl) (by simp [rowM])

theorem blkAppend (type : BitVec 32) : Statement (.blkAppend type) :=
  of_row (rowV 0x30 .blkAppend) rfl rfl (fun _ => rfl) (fun _ => rfl) (fun h => nomatch h) rfl

theorem blkClear : Statement .blkClear :=
  of_row (rowPlain 0x31 .blkClear) rfl rfl (fun _ => rfl) (fun _ => rfl) (fun _ => rfl) rfl

theorem blkSerialize (m : SizeClass) : Statement (.blkSerialize m) :=
  of_row (rowM 0x32 .blkSerialize) rfl rfl (fun h => nomatch h) (fun _ => rfl) (fun _ => rfl) (by simp [rowM])

theorem blkDeserialize (m : SizeClass) : Statement (.blkDeserialize m) :=
  of_row (rowM 0x33 .blkDeserialize) rfl rfl (fun h => nomatch h) (fun _ => rfl) (fun _ => rfl) (by simp [rowM])

theorem getPriority (m : SizeClass) : Statement (.getPriority m) :=
  of_row (rowM 0x40 .getPriority) rfl rfl (fun h => nomatch h) (fun _ => rfl) (fun _ => rfl) (by simp [rowM])

theorem setPriority (m : SizeClass) (v : BitVec 32) : Statement (.setPriority m v) :=
  of_row (rowMV 0x41 .setPriority) rfl rfl (fun h => nomatch h) (fun _ => rfl) (fun h => nomatch h) (by simp [rowMV])

theorem getHopLimit (m : SizeClass) : Statement (.getHopLimit m) :=
  of_row (rowM 0x42 .getHopLimit) rfl rfl (fun h => nomatch h) (fun _ => rfl) (fun _ => rfl) (by simp [rowM])

theorem addHopLimit (m : SizeClass) : Statement (.addHopLimit m) :=
  of_row (rowM 0x43 .addHopLimit) rfl rfl (fun h => nomatch h) (fun _ => rfl) (fun _ => rfl) (by simp [rowM])

theorem getHeartRate (m : SizeClass) : Statement (.getHeartRate m) :=
  of_row (rowM 0x44 .getHeartRate) rfl rfl (fun h => nomatch h) (fun _ => rfl) (fun _ => rfl) (by simp [rowM])

theorem setHeartRate (m : SizeClass) (v : BitVec 32) : Statement (.setHeartRate m v) :=
  of_row (rowMV 0x45 .setHeartRate) rfl rfl (fun h => nomatch h) (fun _ => rfl) (fun h => nomatch h) (by simp [rowMV])

theorem getSrc (m : SizeClass) : Statement (.getSrc m) :=
  of_row (rowM 0x46 .getSrc) rfl rfl (fun h => nomatch h) (fun _ => rfl) (fun _ => rfl) (by simp [rowM])

theorem setSrc (m : SizeClass) (v : BitVec 32) : Statement (.setSrc m v) :=
  of_row (rowMV 0x47 .setSrc) rfl rfl (fun h => nomatch h) (fun _ => rfl) (fun h => nomatch h) (by simp [rowMV])

theorem getDst (m : SizeClass) : Statement (.getDst m) :=
  of_row (rowM 0x48 .getDst) rfl rfl (fun h => nomatch h) (fun _ => rfl) (fun _ => rfl) (by simp [rowM])

theorem setDst (m : SizeClass) (v : BitVec 32) : Statement (.setDst m v) :=
  of_row (rowMV 0x49 .setDst) rfl rfl (fun h => nomatch h) (fun _ => rfl) (fun h => nomatch h) (by simp [rowMV])

theorem getLen (m : SizeClass) : Statement (.getLen m) :=
  of_row (rowM 0x4A .getLen) rfl rfl (fun h => nomatch h) (fun _ => rfl) (fun _ => rfl) (by simp [rowM])

theorem setLen (m : SizeClass) (v : BitVec 32) : Statement (.setLen m v) :=
  of_row (rowMV 0x4B .setLen) rfl rfl (fun h => nomatch h) (fun _ => rfl) (fun h => nomatch h) (by simp [rowMV])

theorem getChecksum (m : SizeClass) : Statement (.getChecksum m) :=
  of_row (rowM 0x4C .getChecksum) rfl rfl (fun h => nomatch h) (fun _ => rfl) (fun _ => rfl) (by simp [rowM])

theorem setChecksum (m : SizeClass) (v : BitVec 32) : Statement (.setChecksum m v) :=
  of_row (rowMV 0x4D .setChecksum) rfl rfl (fun h => nomatch h) (fun _ => rfl) (fun h => nomatch h) (by simp [rowMV])

theorem isMicro : Statement .isMicro :=
  of_row (rowPlain 0x4E .isMicro) rfl rfl (fun _ => rfl) (fun _ => rfl) (fun _ => rfl) rfl

theorem getBlockNext (m : SizeClass) (off : BitVec 20) : Statement (.getBlockNext m off) :=
  of_row (rowMA 0x50 .getBlockNext) rfl rfl (fun h => nomatch h) (fun h => nomatch h) (fun _ => rfl) (by simp [rowMA])

theorem getBlockLen (m : SizeClass) (off : BitVec 20) : Statement (.getBlockLen m off) :=
  of_row (rowMA 0x51 .getBlockLen) rfl rfl (fun h => nomatch h) (fun h => nomatch h) (fun _ => rfl) (by simp [rowMA])

theorem getBlockData (m : SizeClass) (off : BitVec 20) : Statement (.getBlockData m off) :=
  of_row (rowMA 0x52 .getBlockData) rfl rfl (fun h => nomatch h) (fun h => nomatch h) (fun _ => rfl) (by simp [rowMA])

theorem dump : Statement .dump :=
  of_row (rowPlain 0x60 .dump) rfl rfl (fun _ => rfl) (fun _ => rfl) (fun _ => rfl) rfl

theorem load : Statement .load :=
  of_row (rowPlain 0x61 .load) rfl rfl (fun _ => rfl) (fun _ => rfl) (fun _ => rfl) rfl

theorem hrGet (sel : BitVec 20) : Statement (.hrGet sel) :=
  of_row (rowA 0x70 .hrGet) rfl rfl (fun _ => rfl) (fun h => nomatch h) (fun _ => rfl) rfl

theorem hrSet (sel : BitVec 20) (v : BitVec 32) : Statement (.hrSet sel v) :=
  of_row (rowAV 0x71 .hrSet) rfl rfl (fun _ => rfl) (fun h => nomatch h) (fun h => nomatch h) rfl

theorem fbRead (addr : BitVec 20) : Statement (.fbRead addr) :=
  of_row (rowA 0x72 .fbRead) rfl rfl (fun _ => rfl) (fun h => nomatch h) (fun _ => rfl) rfl

theorem fbWrite (addr : BitVec 20) (v : BitVec 32) : Statement (.fbWrite addr v) :=
  of_row (rowAV 0x73 .fbWrite) rfl rfl (fun _ => rfl) (fun h => nomatch h) (fun h => nomatch h) rfl

theorem fbSetlen (n : BitVec 20) : Statement (.fbSetlen n) :=
  of_row (rowA 0x74 .fbSetlen) rfl rfl (fun _ => rfl) (fun h => nomatch h) (fun _ => rfl) rfl

theorem dbClear : Statement .dbClear :=
  of_row (rowPlain 0x75 .dbClear) rfl rfl (fun _ => rfl) (fun _ => rfl) (fun _ => rfl) rfl

theorem dbPush (v : BitVec 32) : Statement (.dbPush v) :=
  of_row (rowV 0x76 .dbPush) rfl rfl (fun _ => rfl) (fun _ => rfl) (fun h => nomatch h) rfl

theorem blkType (idx : BitVec 20) : Statement (.blkType idx) :=
  of_row (rowA 0x77 .blkType) rfl rfl (fun _ => rfl) (fun h => nomatch h) (fun _ => rfl) rfl

theorem blkLen (idx : BitVec 20) : Statement (.blkLen idx) :=
  of_row (rowA 0x78 .blkLen) rfl rfl (fun _ => rfl) (fun h => nomatch h) (fun _ => rfl) rfl

theorem blkByte (idx : BitVec 20) (i : BitVec 32) : Statement (.blkByte idx i) :=
  of_row (rowAV 0x79 .blkByte) rfl rfl (fun _ => rfl) (fun h => nomatch h) (fun h => nomatch h) rfl

end Sys2Proof.Laws.EncodesItsRow
end

