-- ==== Sys2Proof/Tests/Slice0.lean ====
section
/-!
SUPPORT. The model's own tests: ill-formed terms and illegal words refused; every constructor decoded from a word written out
from R71, R74 and R83; one command on a small state for every command, the expected response and bytes taken from
95_test_vectors.md (part and row named with each test) or computed by hand from the rule named; and, for every statement that has
hypotheses, a concrete state and operands that meet them, at the boundary of each clause.
-/

namespace Sys2Proof.Tests

open Sys2Proof.Machine Sys2Proof.Statement

set_option Elab.async false

/-- A core whose frame buffer holds `bytes`, everything else at reset. -/
def withFrame (bytes : List Byte) : State :=
  { State.reset with fb := Memory.writeBytes [] 0 bytes, flen := bytes.length }

/-- The state after one command word. -/
def after (w : CommandWord) (s : State) : State :=
  match execWord w s with
  | .next t => t
  | .fault _ => s
  | .refused _ => s

/-- The response word of one command word. -/
def answerOf (w : CommandWord) (s : State) : ResponseWord := (after w s).responses.getLastD 0xFFFFFFFFFF#40

/-- Program P1's frame: full class, 32 bytes, two blocks. -/
def fullFrame : List Byte :=
  [0x40, 0xA3, 0x12, 0x34, 0xA1, 0xB2, 0xC3, 0xD4, 0x01, 0x02, 0x03, 0x04, 0x00, 0x10, 0x0D, 0x0E,
   0x00, 0x01, 0x00, 0x03, 0x00, 0x09, 0xDE, 0xAD, 0xBE, 0x00, 0xA0, 0x00, 0x01, 0x00, 0x00, 0x55]

/-- Program P3's frame: micro class, 16 bytes, two blocks. -/
def microFrame : List Byte :=
  [0x07, 0x0C, 0x3C, 0xBE, 0xEF, 0x01, 0x02, 0x06, 0x32, 0x5D, 0x07, 0x02, 0x11, 0x22, 0x09, 0x00]

/-- The two blocks of program P1. -/
def fullChain : List Block := [⟨0x0001, [0xDE, 0xAD, 0xBE]⟩, ⟨0x00A0, [0x55]⟩]

/-- The two blocks of program P3. -/
def microChain : List Block := [⟨0x0007, [0x11, 0x22]⟩, ⟨0x0009, []⟩]

def fullState : State := withFrame fullFrame
def microState : State := withFrame microFrame

/-- The header of V2's first row. -/
def fullHeader : Header := ⟨0x40, 5, 0, 3, 0x1234, 0xA1B2C3D4, 0x01020304, 0x000F, 0xBEEF⟩

/-- The header of V2's fifth row. -/
def microHeader : Header := ⟨0x07, 0, 1, 4, 0x3C, 0xBEEF, 0x0102, 0x06, 0xCAFE⟩

/-- `STATUS` with every field set to a value that is not its reset value. -/
def dirtyStatus : Status := ⟨6, false, true, true⟩

/-! ### Well-formedness: each check with a term it refuses and the last one it takes -/

theorem test_ill_formed_sysGet : (Instr.sysGet 3).wellFormed = false ∧ (Instr.sysGet 2).wellFormed = true := by decide
theorem test_ill_formed_hrGet : (Instr.hrGet 9).wellFormed = false ∧ (Instr.hrGet 8).wellFormed = true := by decide
theorem test_ill_formed_hrSet : (Instr.hrSet 9 0).wellFormed = false ∧ (Instr.hrSet 8 0).wellFormed = true := by decide

/-- V1, the illegal words. -/
theorem test_illegal_words :
    decode 0xFFFFFFFFFFFFFFFF#64 = .error .unassignedOpcode ∧
    decode 0x0500000000000000#64 = .error .unassignedOpcode ∧
    decode 0x4F00000000000000#64 = .error .unassignedOpcode ∧
    decode 0x0000000000000001#64 = .error .unusedValueNotZero ∧
    decode 0x0010000000000000#64 = .error .zeroFieldNotZero ∧
    decode 0x0080000000000000#64 = .error .unusedClassNotZero ∧
    decode 0x4E80000000000000#64 = .error .unusedClassNotZero ∧
    decode 0x4000000100000000#64 = .error .unusedAddressNotZero ∧
    decode 0x7000000900000000#64 = .error .selectorOutOfTable ∧
    decode 0x7100000900000000#64 = .error .selectorOutOfTable ∧
    decode 0x0400000300000000#64 = .error .selectorOutOfTable := by decide +kernel

/-! ### Decoding: every constructor from a word written out from R71, R74, R83 -/

theorem test_decode_system :
    decode 0x0000000000000000#64 = .ok .nop ∧
    decode 0x0100000000000000#64 = .ok .reset ∧
    decode 0x0200000000000000#64 = .ok .statusGet ∧
    decode 0x0300000000000000#64 = .ok .statusClr ∧
    decode 0x0400000200000000#64 = .ok (.sysGet 2) := by decide +kernel

theorem test_decode_codec :
    decode 0x1080000000000000#64 = .ok (.hdrPack .micro) ∧
    decode 0x1100000000000000#64 = .ok (.hdrUnpack .full) := by decide +kernel

theorem test_decode_checksum :
    decode 0x2000000000000000#64 = .ok (.cksumCompute .full) ∧
    decode 0x2180000000000000#64 = .ok (.cksumStamp .micro) ∧
    decode 0x2280000000000000#64 = .ok (.cksumVerify .micro) := by decide +kernel

theorem test_decode_blocks :
    decode 0x300000000000FFFF#64 = .ok (.blkAppend 0xFFFF) ∧
    decode 0x3100000000000000#64 = .ok .blkClear ∧
    decode 0x3200000000000000#64 = .ok (.blkSerialize .full) ∧
    decode 0x3380000000000000#64 = .ok (.blkDeserialize .micro) := by decide +kernel

theorem test_decode_header_fields :
    decode 0x4080000000000000#64 = .ok (.getPriority .micro) ∧
    decode 0x41000000FFFFFFFF#64 = .ok (.setPriority .full 0xFFFFFFFF) ∧
    decode 0x4280000000000000#64 = .ok (.getHopLimit .micro) ∧
    decode 0x4300000000000000#64 = .ok (.addHopLimit .full) ∧
    decode 0x4480000000000000#64 = .ok (.getHeartRate .micro) ∧
    decode 0x4580000000000100#64 = .ok (.setHeartRate .micro 0x100) ∧
    decode 0x4600000000000000#64 = .ok (.getSrc .full) ∧
    decode 0x478000000000BEEF#64 = .ok (.setSrc .micro 0xBEEF) ∧
    decode 0x4880000000000000#64 = .ok (.getDst .micro) ∧
    decode 0x4980000000001234#64 = .ok (.setDst .micro 0x1234) ∧
    decode 0x4A00000000000000#64 = .ok (.getLen .full) ∧
    decode 0x4B0000000000FFFF#64 = .ok (.setLen .full 0xFFFF) ∧
    decode 0x4C80000000000000#64 = .ok (.getChecksum .micro) ∧
    decode 0x4D0000000000ABCD#64 = .ok (.setChecksum .full 0xABCD) ∧
    decode 0x4E00000000000000#64 = .ok .isMicro := by decide +kernel

theorem test_decode_block_fields :
    decode 0x5080000400000000#64 = .ok (.getBlockNext .micro 4) ∧
    decode 0x5100000900000000#64 = .ok (.getBlockLen .full 9) ∧
    decode 0x528FFFFF00000000#64 = .ok (.getBlockData .micro 0xFFFFF) := by decide +kernel

theorem test_decode_composite :
    decode 0x6000000000000000#64 = .ok .dump ∧ decode 0x6100000000000000#64 = .ok .load := by decide +kernel

theorem test_decode_host_access :
    decode 0x7000000800000000#64 = .ok (.hrGet 8) ∧
    decode 0x71000005A1B2C3D4#64 = .ok (.hrSet 5 0xA1B2C3D4) ∧
    decode 0x7200000100000000#64 = .ok (.fbRead 1) ∧
    decode 0x7301000E000000FF#64 = .ok (.fbWrite 65550 0xFF) ∧
    decode 0x7400000F00000000#64 = .ok (.fbSetlen 15) ∧
    decode 0x7500000000000000#64 = .ok .dbClear ∧
    decode 0x76000000000000DE#64 = .ok (.dbPush 0xDE) ∧
    decode 0x7700000100000000#64 = .ok (.blkType 1) ∧
    decode 0x7800000200000000#64 = .ok (.blkLen 2) ∧
    decode 0x7900000100000002#64 = .ok (.blkByte 1 2) := by decide +kernel

/-- The host's two entries, on V1's `HR_SET` word and an illegal one. -/
theorem test_table_word :
    decodeTableWord 64 0x71000005A1B2C3D4 = some (.hrSet 5 0xA1B2C3D4) ∧ decodeTableWord 64 0x0500000000000000 = none ∧
    (State.reset.withFetchWord 64 0x71000005A1B2C3D4).commands = [0x71000005A1B2C3D4#64] := by decide +kernel

/-! ### System commands (V9 and the rules named) -/

/-- V9: `NOP` after an error: `LAST` 0, `ERRS` kept; here `CKV` is kept too (R31, R200). -/
theorem test_nop_clears_last_only :
    (after 0x0000000000000000#64 { State.reset with status := dirtyStatus }).status = ⟨0, false, true, true⟩ := by
  decide +kernel

/-- R201: `RESET` empties a core that holds a message, `ERRS` and `CKV` included. -/
theorem test_reset_empties_the_core :
    after 0x0100000000000000#64 { fullState with bc := fullChain, db := [1], status := dirtyStatus } =
      { State.reset with responses := [0x0000000000#40] } := by decide +kernel

/-- V9: `STATUS` is 0x26 after a RangeError; with `CKV` 0x66 (R30); a `STATUS_GET` changes nothing. -/
theorem test_status_get :
    answerOf 0x0200000000000000#64 { State.reset with status := dirtyStatus } = 0x0000000066#40 ∧
    (after 0x0200000000000000#64 { State.reset with status := dirtyStatus }).status = dirtyStatus := by decide +kernel

/-- R203: `STATUS_CLR` keeps `CKV`. -/
theorem test_status_clr :
    (after 0x0300000000000000#64 { State.reset with status := dirtyStatus }).status = ⟨0, false, false, true⟩ := by
  decide +kernel

/-- V9: the three lengths. -/
theorem test_sys_get :
    answerOf 0x0400000000000000#64 { fullState with bc := fullChain, db := [7] } = 0x0000000020#40 ∧
    answerOf 0x0400000100000000#64 { fullState with bc := fullChain, db := [7] } = 0x0000000001#40 ∧
    answerOf 0x0400000200000000#64 { fullState with bc := fullChain, db := [7] } = 0x0000000002#40 := by decide +kernel

/-- V1: an illegal word is answered with 0x07 and `STATUS` is 0x27 then. -/
theorem test_illegal_word_answer :
    answerOf 0x0500000000000000#64 State.reset = 0x0700000000#40 ∧
    answerOf 0x0200000000000000#64 (after 0x0500000000000000#64 State.reset) = 0x0000000027#40 := by decide +kernel

/-! ### Header codec (V2, V3) -/

/-- V2, pack row 1: the frame, the value 16, `FLEN` 16. -/
theorem test_hdr_pack_full :
    answerOf 0x1000000000000000#64 { State.reset with hr := fullHeader } = 0x0000000010#40 ∧
    (after 0x1000000000000000#64 { State.reset with hr := fullHeader }).frame =
      [0x40, 0xA3, 0x12, 0x34, 0xA1, 0xB2, 0xC3, 0xD4, 0x01, 0x02, 0x03, 0x04, 0x00, 0x0F, 0xBE, 0xEF] := by decide +kernel

/-- V2: micro pack row 5; a full header under `m = 1` and a wide `heart_rate` are refused. -/
theorem test_hdr_pack_micro :
    (after 0x1080000000000000#64 { State.reset with hr := microHeader }).frame =
      [0x07, 0x0C, 0x3C, 0xBE, 0xEF, 0x01, 0x02, 0x06, 0xCA, 0xFE] ∧
    answerOf 0x1080000000000000#64 { State.reset with hr := fullHeader } = 0x0100000000#40 ∧
    answerOf 0x1080000000000000#64 { State.reset with hr := { microHeader with heartRate := 0x100 } } =
      0x0600000000#40 := by decide +kernel

/-- V3, rows 1 and 4 (the frames are V2's), and row 5. -/
theorem test_hdr_unpack :
    (after 0x1100000000000000#64 (withFrame (pack fullHeader .full))).hr = fullHeader ∧
    (after 0x1180000000000000#64
      (withFrame [0x07, 0x0C, 0x3C, 0xBE, 0xEF, 0x01, 0x02, 0x06, 0xCA, 0xFE])).hr = microHeader ∧
    answerOf 0x1100000000000000#64
      (withFrame [0x07, 0x0C, 0x3C, 0xBE, 0xEF, 0x01, 0x02, 0x06, 0xCA, 0xFE]) = 0x0100000000#40 := by decide +kernel

/-! ### Checksum (V4) -/

theorem test_cksum_check_values :
    Config.defaults.cksum [0x31, 0x32, 0x33, 0x34, 0x35, 0x36, 0x37, 0x38, 0x39] = 0x29B1#16 ∧ Config.defaults.cksum [] = 0xFFFF#16 ∧
    Config.defaults.cksum [0x80] = 0x7078#16 ∧ Config.defaults.cksum [0x00, 0x01] = 0x0D2E#16 ∧
    Config.defaults.cksum [0x01, 0x00] = 0x2E3E#16 := by decide +kernel

/-- V4: the full frame, under its own class and under the wrong one. -/
theorem test_cksum_compute :
    answerOf 0x2000000000000000#64 fullState = 0x0000000D0E#40 ∧
    answerOf 0x2080000000000000#64 fullState = 0x00000026FB#40 := by decide +kernel

/-- V4: 10 zero bytes stamped in the micro class; `CKV` becomes 1. -/
theorem test_cksum_stamp :
    (after 0x2180000000000000#64 (withFrame (List.replicate 10 0))).frame =
      [0, 0, 0, 0, 0, 0, 0, 0, 0x31, 0x3E] ∧
    (after 0x2180000000000000#64 (withFrame (List.replicate 10 0))).status.ckv = true := by decide +kernel

/-- V4: verify passes on the frame and fails under the wrong class, clearing `CKV`. -/
theorem test_cksum_verify :
    answerOf 0x2200000000000000#64 fullState = 0x0000000001#40 ∧
    (after 0x2200000000000000#64 fullState).status.ckv = true ∧
    answerOf 0x2280000000000000#64 { fullState with status := ⟨0, false, false, true⟩ } = 0x0300000000#40 ∧
    (after 0x2280000000000000#64 { fullState with status := ⟨0, false, false, true⟩ }).status = ⟨3, false, true, false⟩ := by
  decide +kernel

/-! ### Blocks (V5) -/

/-- V5: `BLK_APPEND v=0xFFFF` moves the staged bytes, `v=0x10000` is out of range. -/
theorem test_blk_append :
    (after 0x300000000000FFFF#64 { State.reset with bc := fullChain, db := [1, 2] }).bc =
      fullChain ++ [⟨0xFFFF, [1, 2]⟩] ∧
    (after 0x300000000000FFFF#64 { State.reset with bc := fullChain, db := [1, 2] }).db = [] ∧
    answerOf 0x3000000000010000#64 State.reset = 0x0600000000#40 := by decide +kernel

/-- R132. -/
theorem test_blk_clear : (after 0x3100000000000000#64 { State.reset with bc := fullChain, db := [1] }).bc = [] ∧
    (after 0x3100000000000000#64 { State.reset with bc := fullChain, db := [1] }).db = [1] := by decide +kernel

/-- V5: `ser` of three blocks in both classes. -/
theorem test_ser :
    ser .full [⟨0x000A, []⟩, ⟨0x000B, [1]⟩, ⟨0x000C, [2, 3]⟩] =
      [0x00, 0x0A, 0, 0, 0, 6, 0x00, 0x0B, 0, 1, 0, 0x0D, 1, 0x00, 0x0C, 0, 2, 0, 0, 2, 3] ∧
    ser .micro [⟨0x000A, []⟩, ⟨0x000B, [1]⟩, ⟨0x000C, [2, 3]⟩] = [0x0A, 0, 0x0B, 1, 1, 0x0C, 2, 2, 3] := by decide +kernel

/-- V5, last row of the corner cases: 30 bytes of EE cut to 13; first row with a block type too wide. -/
theorem test_blk_serialize :
    (after 0x3280000000000000#64 { withFrame (List.replicate 30 0xEE) with bc := [⟨1, [0xDE]⟩] }).frame =
      List.replicate 10 0xEE ++ [0x01, 0x01, 0xDE] ∧
    answerOf 0x3280000000000000#64 { State.reset with bc := [⟨0x0100, []⟩] } = 0x0600000000#40 := by decide +kernel

/-- V5: `BLK_DESERIALIZE`, the micro row of two blocks and the full row whose last `next` is not zero. -/
theorem test_blk_deserialize :
    (after 0x3380000000000000#64 (withFrame [0, 8, 0, 0, 0, 0, 0, 6, 0, 0, 7, 2, 0x11, 0x22, 9, 0])).bc = microChain ∧
    answerOf 0x3300000000000000#64 (withFrame
      [0, 0, 0, 0, 0, 0, 0, 0, 0, 0, 0, 0, 0, 9, 0, 0, 0, 1, 0, 3, 0, 9, 0xDE, 0xAD, 0xBE]) = 0x0500000000#40 := by
  decide +kernel

/-! ### Frame accessor (V6, V7, S3, S4, S7) -/

/-- V6: the full class. -/
theorem test_getters_full :
    answerOf 0x4000000000000000#64 fullState = 0x0000000003#40 ∧ answerOf 0x4200000000000000#64 fullState = 0x0000000040#40 ∧
    answerOf 0x4400000000000000#64 fullState = 0x0000001234#40 ∧ answerOf 0x4600000000000000#64 fullState = 0x00A1B2C3D4#40 ∧
    answerOf 0x4800000000000000#64 fullState = 0x0001020304#40 ∧ answerOf 0x4A00000000000000#64 fullState = 0x0000000010#40 ∧
    answerOf 0x4C00000000000000#64 fullState = 0x0000000D0E#40 := by decide +kernel

/-- V6: the micro class. -/
theorem test_getters_micro :
    answerOf 0x4080000000000000#64 microState = 0x0000000004#40 ∧ answerOf 0x4280000000000000#64 microState = 0x0000000007#40 ∧
    answerOf 0x4480000000000000#64 microState = 0x000000003C#40 ∧ answerOf 0x4680000000000000#64 microState = 0x000000BEEF#40 ∧
    answerOf 0x4880000000000000#64 microState = 0x0000000102#40 ∧ answerOf 0x4A80000000000000#64 microState = 0x0000000006#40 ∧
    answerOf 0x4C80000000000000#64 microState = 0x000000325D#40 := by decide +kernel

/-- S3: 0xA8 becomes 0xAD; V6: 0xFFFFFFFF is masked to 7. -/
theorem test_set_priority :
    (after 0x4100000000000005#64 (withFrame (0 :: 0xA8 :: List.replicate 14 0))).fb.read 1 = 0xAD#8 ∧
    (after 0x41000000FFFFFFFF#64 fullState).fb.read 1 = 0xA7#8 := by decide +kernel

/-- S4: 254, 255, 0. -/
theorem test_add_hop_limit :
    answerOf 0x4300000000000000#64 (withFrame (0xFE :: List.replicate 15 0)) = 0x00000000FF#40 ∧
    answerOf 0x4300000000000000#64 (withFrame (0xFF :: List.replicate 15 0)) = 0x0000000000#40 ∧
    (after 0x4300000000000000#64 (withFrame (0xFF :: List.replicate 15 0))).fb.read 0 = 0#8 := by decide +kernel

/-- V6, micro: `SET_SRC v=0xFFFF`, `SET_DST v=0x1234`, `SET_HEART_RATE v=0`, `SET_LEN v=0xFF`, each at its bytes. -/
theorem test_setters_micro :
    ((after 0x478000000000FFFF#64 microState).fbBytes 2 4) = [0x3C, 0xFF, 0xFF, 0x01] ∧
    ((after 0x4980000000001234#64 microState).fbBytes 4 4) = [0xEF, 0x12, 0x34, 0x06] ∧
    ((after 0x4580000000000000#64 microState).fbBytes 1 3) = [0x0C, 0x00, 0xBE] ∧
    ((after 0x4B800000000000FF#64 microState).fbBytes 6 3) = [0x02, 0xFF, 0x32] := by decide +kernel

/-- V6: 17 bits do not fit; `SET_CHECKSUM v=0xABCD` goes to addresses 14 and 15; V6 short buffers: header before range. -/
theorem test_setters_full :
    answerOf 0x4B00000000010000#64 fullState = 0x0600000000#40 ∧
    ((after 0x4D0000000000ABCD#64 fullState).fbBytes 13 4) = [0x10, 0xAB, 0xCD, 0x00] ∧
    answerOf 0x4500000000010000#64 (withFrame (List.replicate 15 0)) = 0x0100000000#40 := by decide +kernel

/-- S7. -/
theorem test_is_micro :
    answerOf 0x4E00000000000000#64 (withFrame [0xFF, 0xE7]) = 0x0000000000#40 ∧
    answerOf 0x4E00000000000000#64 (withFrame [0xFF, 0xEF]) = 0x0000000001#40 ∧
    answerOf 0x4E00000000000000#64 (withFrame [0x12, 0x10]) = 0x0100000000#40 ∧
    answerOf 0x4E00000000000000#64 (withFrame [0x08]) = 0x0100000000#40 := by decide +kernel

/-- V7, full class, block at 9 and the offset one too high. -/
theorem test_block_accessors_full :
    answerOf 0x5000000000000000#64 fullState = 0x0000000009#40 ∧ answerOf 0x5100000900000000#64 fullState = 0x0000000001#40 ∧
    answerOf 0x5200000900000000#64 fullState = 0x000000001F#40 ∧ answerOf 0x5100000B00000000#64 fullState = 0x0200000000#40 := by
  decide +kernel

/-- V7, micro class. -/
theorem test_block_accessors_micro :
    answerOf 0x5080000000000000#64 microState = 0x0000000004#40 ∧ answerOf 0x5080000400000000#64 microState = 0x0000000000#40 ∧
    answerOf 0x5180000000000000#64 microState = 0x0000000002#40 ∧ answerOf 0x5280000400000000#64 microState = 0x0000000010#40 := by
  decide +kernel

/-! ### Composite commands (V8, P1, P3) -/

/-- P1, command 16: the frame, the value, `HR.len` and `HR.check_sum` written back, `CKV` 1. -/
theorem test_dump_full :
    (after 0x6000000000000000#64 { State.reset with hr := fullHeader, bc := fullChain }).frame = fullFrame ∧
    answerOf 0x6000000000000000#64 { State.reset with hr := fullHeader, bc := fullChain } = 0x0000000020#40 ∧
    (after 0x6000000000000000#64 { State.reset with hr := fullHeader, bc := fullChain }).hr =
      { fullHeader with len := 0x10, checkSum := 0x0D0E } := by decide +kernel

/-- V8: `cfg_hdr` 2 is refused; the micro header with an old `len` of 0xFFFF. -/
theorem test_dump_micro :
    answerOf 0x6000000000000000#64 { State.reset with hr := { Header.reset with cfgHdr := 2 } } = 0x0100000000#40 ∧
    (after 0x6000000000000000#64
      { State.reset with hr := { Header.reset with cfgHdr := 1, len := 0xFFFF } }).frame =
        [0x00, 0x08, 0, 0, 0, 0, 0, 0, 0xA2, 0x93] := by decide +kernel

/-- P3, command 17: the message is restored. -/
theorem test_load_micro :
    (after 0x6100000000000000#64 microState).bc = microChain ∧
    (after 0x6100000000000000#64 microState).hr = { microHeader with checkSum := 0x325D } ∧
    answerOf 0x6100000000000000#64 microState = 0x0000000002#40 := by decide +kernel

/-- V8: one byte short, checksum low byte changed, one byte appended and restamped; each wrapped. -/
theorem test_load_errors :
    answerOf 0x6100000000000000#64 (withFrame (fullFrame.take 31)) = 0x8200000000#40 ∧
    answerOf 0x6100000000000000#64 (withFrame (fullFrame.set 15 0x0F)) = 0x8300000000#40 ∧
    answerOf 0x6100000000000000#64 (withFrame (((fullFrame.set 14 0xDF).set 15 0xAD) ++ [0x00])) = 0x8500000000#40 ∧
    (after 0x6100000000000000#64 (withFrame (fullFrame.take 31))).status = ⟨2, true, true, false⟩ := by decide +kernel

/-! ### Host access (V9, P1, S5) -/

theorem test_hr_get :
    answerOf 0x7000000000000000#64 { State.reset with hr := fullHeader } = 0x0000000040#40 ∧
    answerOf 0x7000000100000000#64 { State.reset with hr := fullHeader } = 0x0000000005#40 ∧
    answerOf 0x7000000500000000#64 { State.reset with hr := fullHeader } = 0x00A1B2C3D4#40 ∧
    answerOf 0x7000000800000000#64 { State.reset with hr := fullHeader } = 0x000000BEEF#40 := by decide +kernel

/-- V9: an invalid discriminator is stored, 4 does not fit, `priority` is masked. -/
theorem test_hr_set :
    (after 0x7100000200000003#64 State.reset).hr = { Header.reset with cfgHdr := 3 } ∧
    answerOf 0x7100000200000004#64 State.reset = 0x0600000000#40 ∧
    (after 0x71000003000000FD#64 State.reset).hr = { Header.reset with priority := 5 } := by decide +kernel

theorem test_fb_read :
    answerOf 0x7200000100000000#64 (withFrame [0xCD, 0xEF]) = 0x00000000EF#40 ∧
    answerOf 0x7200000200000000#64 (withFrame [0xCD, 0xEF]) = 0x0600000000#40 := by decide +kernel

/-- V9: append, overwrite, gap. -/
theorem test_fb_write :
    (after 0x73000001000000EF#64 (withFrame [0xCD])).frame = [0xCD, 0xEF] ∧
    (after 0x73000000000000CD#64 (withFrame [0xAB, 0xEF])).frame = [0xCD, 0xEF] ∧
    answerOf 0x7300000100000000#64 State.reset = 0x0600000000#40 := by decide +kernel

/-- V9; the byte that was cut is gone. -/
theorem test_fb_setlen :
    after 0x7400000100000000#64 (withFrame [0xCD, 0xEF]) = { withFrame [0xCD] with responses := [0#40] } ∧
    answerOf 0x7400000300000000#64 (withFrame [0xCD, 0xEF]) = 0x0600000000#40 := by decide +kernel

theorem test_db_clear : (after 0x7500000000000000#64 { State.reset with db := [1, 2] }).db = [] := by decide +kernel

theorem test_db_push :
    (after 0x76000000000000AD#64 { State.reset with db := [0xDE] }).db = [0xDE, 0xAD] ∧
    answerOf 0x76000000000000AD#64 { State.reset with db := [0xDE] } = 0x0000000002#40 ∧
    answerOf 0x7600000000000100#64 State.reset = 0x0600000000#40 := by decide +kernel

/-- S5, commands 18 to 24, on P1's chain. -/
theorem test_chain_read_out :
    answerOf 0x7700000100000000#64 { State.reset with bc := fullChain } = 0x00000000A0#40 ∧
    answerOf 0x7800000000000000#64 { State.reset with bc := fullChain } = 0x0000000003#40 ∧
    answerOf 0x7900000000000002#64 { State.reset with bc := fullChain } = 0x00000000BE#40 ∧
    answerOf 0x7900000100000001#64 { State.reset with bc := fullChain } = 0x0600000000#40 := by decide +kernel

/-! ### The parameters (R10, R11, R12): other capacities, another checksum function, other `cfg_hdr` codes -/

/-- A state under other parameters. -/
def withConfig (c : Config) (s : State) : State := { s with config := c }

/-- `FB_SIZE = 16`: R208 line 1 at `addr = FLEN = FB_SIZE`, R133 line 2 and R190 line 3 with one block. -/
theorem test_fb_size :
    answerOf 0x7300001000000000#64 (withConfig { Config.defaults with fbSize := 16 } (withFrame (List.replicate 16 0))) =
      0x0600000000#40 ∧
    answerOf 0x3200000000000000#64 (withConfig { Config.defaults with fbSize := 16 } { State.reset with bc := [⟨1, []⟩] }) =
      0x0600000000#40 ∧
    answerOf 0x6000000000000000#64 (withConfig { Config.defaults with fbSize := 16 } { State.reset with bc := [⟨1, []⟩] }) =
      0x0600000000#40 := by decide +kernel

/-- `DB_MAX = 1` (R211); `NBLK_MAX = 1` and `BC_DATA_MAX = 3` (R131 lines 2 and 3). -/
theorem test_db_max_nblk_max_bc_data_max :
    answerOf 0x7600000000000001#64 (withConfig { Config.defaults with dbMax := 1 } { State.reset with db := [7] }) =
      0x0600000000#40 ∧
    answerOf 0x3000000000000001#64 (withConfig { Config.defaults with nblkMax := 1 } { State.reset with bc := [⟨1, []⟩] }) =
      0x0600000000#40 ∧
    answerOf 0x3000000000000001#64 (withConfig { Config.defaults with bcDataMax := 3 }
      { State.reset with bc := [⟨1, [1, 2]⟩], db := [3, 4] }) = 0x0600000000#40 := by decide +kernel

/-- R134 check 4 by way of R192 line 8: two blocks with `NBLK_MAX = 1`, three data bytes with `BC_DATA_MAX = 2`; wrapped. -/
theorem test_load_capacity :
    answerOf 0x6100000000000000#64 (withConfig { Config.defaults with nblkMax := 1 } microState) = 0x8600000000#40 ∧
    answerOf 0x6100000000000000#64 (withConfig { Config.defaults with bcDataMax := 2 } fullState) = 0x8600000000#40 := by
  decide +kernel

/-- The largest count that 32 bits hold, and the next one, whose value is free (assumption log 12). -/
theorem test_count_value :
    countValue (2 ^ 32 - 1) = 0xFFFFFFFF#32 ∧ countValue (2 ^ 32) = Config.wideCount (2 ^ 32) :=
  ⟨by decide +kernel, countValue_of_le (by decide)⟩

/-- R113 with an implementation's own checksum function: its value on the region, whatever that is. -/
theorem test_own_checksum :
    answerOf 0x2080000000000000#64 (withConfig { Config.defaults with checksum := .other 3 } (withFrame (List.replicate 10 7))) =
      responseWord false 0 ((Config.otherCksum 3 (List.replicate 8 7)).setWidth 32) := by rfl

/-- R10 with the codes `CFG_FULL = 0b11`, `CFG_MICRO = 0b10`: R165 on the four values of `cfg_hdr`, 0 to 3, and R91 line 1. -/
theorem test_cfg_codes :
    answerOf 0x4E00000000000000#64 (withConfig { Config.defaults with cfgFull := 3, cfgMicro := 2 } (withFrame [0, 0x00])) =
      0x0100000000#40 ∧
    answerOf 0x4E00000000000000#64 (withConfig { Config.defaults with cfgFull := 3, cfgMicro := 2 } (withFrame [0, 0x08])) =
      0x0100000000#40 ∧
    answerOf 0x4E00000000000000#64 (withConfig { Config.defaults with cfgFull := 3, cfgMicro := 2 } (withFrame [0, 0x10])) =
      0x0000000001#40 ∧
    answerOf 0x4E00000000000000#64 (withConfig { Config.defaults with cfgFull := 3, cfgMicro := 2 } (withFrame [0, 0x18])) =
      0x0000000000#40 ∧
    answerOf 0x1000000000000000#64 (withConfig { Config.defaults with cfgFull := 3, cfgMicro := 2 } State.reset) =
      0x0100000000#40 := by decide +kernel

/-- The model's choice (assumption log 4): `RESET` keeps the parameters. -/
theorem test_reset_keeps_the_parameters :
    (after 0x0100000000000000#64 (withConfig ⟨16, 1, 1, 3, .other 0, 2, 3⟩ fullState)).config = ⟨16, 1, 1, 3, .other 0, 2, 3⟩ := by
  decide +kernel

/-! ### Witnesses: states and operands that meet the hypotheses of the statements, at the boundary of each clause -/

/-- The state after a command, its operands taken as they are. -/
def result (i : Instr) (s : State) : State :=
  match exec i s with
  | .next t => t
  | .fault _ => s
  | .refused _ => s

theorem exec_result (i : Instr) (s : State) : exec i s = .next (result i s) := by
  obtain ⟨t, h⟩ := exec_next i s
  simp [result, h]

theorem execWord_after (w : CommandWord) (s : State) : execWord w s = .next (after w s) := by
  obtain ⟨t, h⟩ := execWord_next w s
  simp [after, h]

/-- A core with `w` presented. -/
def presenting (w : CommandWord) (s : State) : State := { s with commands := [w] }

theorem step_presenting (w : CommandWord) (s : State) :
    step (presenting w s) = execWord w { presenting w s with commands := [] } := rfl

/-- A frame of `n` zero bytes. -/
def zeros (n : Nat) : State := withFrame (List.replicate n 0)

/-- `n` bytes, none of them zero. -/
def ones (n : Nat) : State := withFrame (List.replicate n 0x01)

theorem test_witness_DecodeOfEncodeIsTheInstruction :
    (Instr.sysGet 2).wellFormed = true ∧ (Instr.hrSet 8 0xFFFFFFFF).wellFormed = true ∧
    (Instr.getBlockData .micro 0xFFFFF).wellFormed = true := by decide

theorem test_witness_EncodeOfDecodeIsTheWord : decode 0x7108000200000003#64 ≠ .ok (.hrSet 2 3) ∧
    decode 0x7100000800000003#64 = .ok (.hrSet 8 3) := by decide +kernel

theorem test_witness_StepRunsTheDecodedCommand :
    (presenting 0x6000000000000000#64 State.reset).commands = 0x6000000000000000#64 :: [] ∧
    decode 0x6000000000000000#64 = .ok .dump ∧ microState.commands = [] := by decide +kernel

theorem test_witness_StepAnswersAnIllegalWord :
    (presenting 0x0500000000000000#64 State.reset).commands = 0x0500000000000000#64 :: [] ∧
    ∀ i, decode 0x0500000000000000#64 ≠ .ok i := by
  refine ⟨rfl, fun i h => ?_⟩
  have : decode 0x0500000000000000#64 = .error .unassignedOpcode := by decide +kernel
  simp [this] at h

theorem test_witness_EveryCommandWordGetsOneResponse :
    2 ≤ ({ State.reset with commands := [0x6000000000000000#64, 0xFFFFFFFFFFFFFFFF#64] } : State).commands.length := by decide

theorem test_witness_ResponseCodesAndTheWrapper :
    execWord 0x6100000000000000#64 (zeros 15) = .next (after 0x6100000000000000#64 (zeros 15)) ∧
    (after 0x6100000000000000#64 (zeros 15)).responses = (zeros 15).responses ++ [reply 0x81 0] :=
  ⟨execWord_after _ _, by decide +kernel⟩

theorem test_witness_ErrorChangesNothingButStatus :
    execWord 0x2200000000000000#64 (zeros 16) = .next (after 0x2200000000000000#64 (zeros 16)) ∧
    (after 0x2200000000000000#64 (zeros 16)).responses = (zeros 16).responses ++ [reply 0x03 0] ∧
    causeOf 0x03 ≠ 0 := ⟨execWord_after _ _, by decide +kernel, by decide⟩

/-- A `STATUS_GET`, a `STATUS_CLR`, an error and a success, each with its response. -/
theorem test_witness_StatusUpdateOfEveryCommand :
    (after 0x0200000000000000#64 microState).responses = microState.responses ++ [reply 0x00 0] ∧
    decode 0x0200000000000000#64 = .ok .statusGet ∧
    (after 0x0300000000000000#64 microState).responses = microState.responses ++ [reply 0x00 0] ∧
    decode 0x0300000000000000#64 ≠ .ok .statusGet ∧
    (after 0x0500000000000000#64 microState).responses = microState.responses ++ [reply 0x07 0] ∧
    execWord 0x0500000000000000#64 microState = .next (after 0x0500000000000000#64 microState) := by
  refine ⟨by decide +kernel, by decide +kernel, by decide +kernel, by decide +kernel, by decide +kernel, execWord_after _ _⟩

theorem test_witness_MultiByteAccessIsBigEndian : (4 = 1 ∨ 4 = 2 ∨ 4 = 4) ∧ microState.memRead 3 2 = 0xBEEF := by decide +kernel

/-- One command for each of the three clauses. -/
theorem test_witness_CkvUpdateOfEveryCommand :
    exec (.cksumVerify .micro) microState = .next (result (.cksumVerify .micro) microState) ∧
    (result (.cksumVerify .micro) microState).responses = microState.responses ++ [reply 0x00 1] ∧
    (result (.cksumVerify .full) microState).responses = microState.responses ++ [reply 0x03 0] ∧
    (result (.fbRead 16) microState).responses = microState.responses ++ [reply 0x06 0] ∧
    causeOf 0x00 = 0 ∧ causeOf 0x03 = 3 ∧ causeOf 0x06 ≠ 0 ∧ causeOf 0x06 ≠ 3 :=
  ⟨exec_result _ _, by decide +kernel, by decide +kernel, by decide +kernel, by decide, by decide, by decide, by decide⟩

/-- The micro frame valid, a full chain, the last command failed: the invariant of a state that is not the reset state. -/
theorem test_witness_StepKeepsTheInvariant :
    Inv (presenting 0x6100000000000000#64 { microState with bc := microChain, status := ⟨6, false, true, false⟩ }) ∧
    step (presenting 0x6100000000000000#64 { microState with bc := microChain, status := ⟨6, false, true, false⟩ }) =
      .next (after 0x6100000000000000#64 { microState with bc := microChain, status := ⟨6, false, true, false⟩ }) := by
  refine ⟨?_, by rw [step_presenting]; exact execWord_after _ _⟩
  constructor
  case configLegal => exact legal_of_crc16 rfl (by decide) (by decide) (by decide) (by decide)
  all_goals decide +kernel

/-- `CKV = 1` with a correct frame, and a command that keeps it. -/
theorem test_witness_CkvMeansTheEmbeddedChecksumIsRight :
    ({ microState with status := ⟨0, false, false, true⟩ } : State).status.ckv = true ∧
    CkvSound (presenting 0x0000000000000000#64 { microState with status := ⟨0, false, false, true⟩ }) :=
  ⟨rfl, fun _ => ⟨.micro, by decide +kernel, by decide +kernel⟩⟩

/-- Two states that differ at an address above `FLEN` only. -/
theorem test_witness_BytesAboveFlenAreNeverObserved :
    AgreeBelowFlen { State.reset with fb := [(0, 7)], flen := 1 } { State.reset with fb := [(0, 7), (1, 9)], flen := 1 } :=
  ⟨rfl, fun a h => by
    have : a = 0 := by simpa using h
    subst this
    rfl⟩

theorem test_witness_OnlyTheListedCommandsWrite :
    exec .blkClear fullState = .next (result .blkClear fullState) ∧ (effects .blkClear).hr = false ∧
    (effects .dump).bc = false ∧ (effects .load).db = false ∧ (effects .load).fb = false :=
  ⟨exec_result _ _, rfl, rfl, rfl, rfl⟩

theorem test_witness_SysGetReturnsTheLengths :
    ((2#20).toNat = 2 ∧ microChain.length < 2 ^ 32) ∧ 3 ≤ (3#20).toNat ∧ 3 ≤ (0xFFFFF#20).toNat := by decide

/-- The largest micro header. -/
theorem test_witness_PackIsTheWireLayout :
    Fits ⟨0xFF, 7, 1, 7, 0xFF, 0xFFFF, 0xFFFF, 0xFF, 0xFFFF⟩ .micro ∧ Fits fullHeader .full := by
  unfold Fits IdsFit; decide

/-- The smallest legal core. -/
theorem test_witness_ResetMeetsTheInvariant :
    Config.Legal { Config.defaults with fbSize := 16, dbMax := 0, nblkMax := 1, bcDataMax := 0 } :=
  legal_of_crc16 rfl (by decide) (by decide) (by decide) (by decide)

/-- Parameters other than the defaults whose `CFG_FULL` is 0. -/
theorem test_witness_ResetStateIsAllZero :
    ({ Config.defaults with fbSize := 16, checksum := .other 0, cfgMicro := 3 } : Config).cfgFull = 0 := rfl

/-- Legal parameters with other codes. -/
theorem test_witness_LegalChecksumHasTheProperties :
    Config.Legal { Config.defaults with cfgFull := 3, cfgMicro := 2 } :=
  legal_of_crc16 rfl (by decide) (by decide) (by decide) (by decide)

theorem test_witness_CksumIsTheSerialRegister : Config.defaults.checksum = .crc16 := rfl

theorem test_witness_UnpackIsTheWireLayout : 16 ≤ fullFrame.length ∧ 10 ≤ microFrame.length := by decide

theorem test_witness_PackAndUnpackAreInverse :
    Fits ⟨0xFF, 7, 1, 7, 0xFF, 0xFFFF, 0xFFFF, 0xFF, 0xFFFF⟩ .micro ∧ (pack microHeader .micro).length = headerWidth .micro ∧
    (fullFrame.take 16).length = headerWidth .full := by
  unfold Fits IdsFit; decide +kernel

/-- The wrong class, a `len` one too wide, and the widest header that fits. -/
theorem test_witness_HdrPackResults :
    CodesDistinct State.reset ∧ fullHeader.cfgHdr ≠ cfgOf State.reset .micro ∧ (2#2) ≠ cfgOf State.reset .full ∧
    (({ microHeader with len := 0x100 } : Header).cfgHdr = cfgOf State.reset .micro ∧ ¬ Fits { microHeader with len := 0x100 } .micro) ∧
    (({ microHeader with len := 0xFF } : Header).cfgHdr = cfgOf State.reset .micro ∧ Fits { microHeader with len := 0xFF } .micro) ∧
    (fullHeader.cfgHdr = cfgOf State.reset .full ∧ Fits fullHeader .full) := by
  unfold Fits IdsFit; decide +kernel

theorem test_witness_HdrUnpackResults :
    CodesDistinct (zeros 16) ∧ (zeros 15).flen < headerWidth .full ∧
    (headerWidth .full ≤ (zeros 16).flen ∧ wireCfg (zeros 16) = cfgOf (zeros 16) .full) ∧
    (headerWidth .micro ≤ (zeros 10).flen ∧ wireCfg (zeros 10) ≠ cfgOf (zeros 10) .micro) := by decide +kernel

theorem test_witness_CksumComputeAndVerifyResults :
    (zeros 9).flen < headerWidth .micro ∧
    (headerWidth .micro ≤ microState.flen ∧ microState.config.cksum (checked .micro microState) = embedded .micro microState) ∧
    (headerWidth .full ≤ (zeros 16).flen ∧ (zeros 16).config.cksum (checked .full (zeros 16)) ≠ embedded .full (zeros 16)) := by
  decide +kernel

theorem test_witness_CksumStampResults :
    (zeros 15).flen < headerWidth .full ∧ headerWidth .full ≤ (zeros 16).flen ∧ headerWidth .micro ≤ (zeros 10).flen := by
  decide +kernel

theorem test_witness_StampThenVerifySucceeds :
    headerWidth .full ≤ (zeros 16).flen ∧
    exec (.cksumStamp .full) (zeros 16) = .next (result (.cksumStamp .full) (zeros 16)) :=
  ⟨by decide +kernel, exec_result _ _⟩

/-- The last valid byte, its top bit; the frame verifies before the flip (first row of `CKSUM_VERIFY`'s witnesses). -/
theorem test_witness_SingleBitFlipIsDetected :
    (microState.config.checksum = .crc16 ∧ headerWidth .micro ≤ microState.flen ∧ 15 < microState.flen ∧ 15 ≠ checksumOffset .micro ∧
      15 ≠ checksumOffset .micro + 1 ∧ 7 < 8) ∧
    Stores microState.fb (microState.fb ++ [(15, 0x80)]) 15 [microState.fb.read 15 ^^^ (1#8 <<< 7)] := by
  refine ⟨by decide +kernel, fun a => ?_⟩
  have h : microState.fb = [(0, 0x07), (1, 0x0C), (2, 0x3C), (3, 0xBE), (4, 0xEF), (5, 0x01), (6, 0x02), (7, 0x06),
    (8, 0x32), (9, 0x5D), (10, 0x07), (11, 0x02), (12, 0x11), (13, 0x22), (14, 0x09)] := by decide +kernel
  rw [h]
  simp only [List.cons_append, List.nil_append, Memory.read, Memory.unlisted, List.length_singleton]
  by_cases e : a = 15
  · subst e; decide
  · have h15 : ¬ (15 ≤ a ∧ a < 15 + 1) := by omega
    rw [if_neg h15, if_neg (Ne.symm e)]

/-- A type one too wide, a full store, full data, and the last append that fits. -/
theorem test_witness_BlkAppendAndBlkClearResults :
    65536 ≤ (0x10000#32).toNat ∧
    (List.replicate 10922 (⟨0, []⟩ : Block)).length = Config.defaults.nblkMax ∧
    Config.defaults.bcDataMax < dataTotal [⟨0, List.replicate 65535 0⟩] + [0x00#8].length ∧
    ((0xFFFF#32).toNat < 65536 ∧ [(⟨0, List.replicate 65534 0⟩ : Block)].length ≠ Config.defaults.nblkMax ∧
      [(⟨0, List.replicate 65534 0⟩ : Block)].length + 1 < 2 ^ 32 ∧
      dataTotal [⟨0, List.replicate 65534 0⟩] + [0x00#8].length ≤ Config.defaults.bcDataMax) := by
  simp only [dataTotal, List.map_cons, List.map_nil, List.sum_cons, List.sum_nil, List.length_replicate]
  decide

/-- V5: a type too wide, `L` one too large and `L` at `LENMAX`, in both classes. -/
theorem test_witness_BlkSerializeResults :
    ¬ BlocksFit [⟨0x0100, []⟩] .micro ∧ ¬ LengthFits Config.defaults [⟨1, List.replicate 252 0⟩, ⟨2, []⟩] .micro ∧
    ¬ LengthFits Config.defaults [⟨1, List.replicate 65530 0⟩] .full ∧
    (BlocksFit [⟨1, List.replicate 253 0⟩] .micro ∧ LengthFits Config.defaults [⟨1, List.replicate 253 0⟩] .micro) ∧
    (BlocksFit [⟨1, List.replicate 65529 0⟩] .full ∧ LengthFits Config.defaults [⟨1, List.replicate 65529 0⟩] .full) := by
  simp only [BlocksFit, LengthFits, payloadLength, List.map_cons, List.map_nil, List.sum_cons, List.sum_nil,
    List.length_replicate, List.forall_mem_singleton]
  decide

/-- V5: short, cut, too long, not canonical, and right. -/
theorem test_witness_BlkDeserializeResults :
    (zeros 9).flen < headerWidth .micro ∧
    (headerWidth .micro ≤ (withFrame (microFrame.take 15)).flen ∧
      (withFrame (microFrame.take 15)).flen < headerWidth .micro + declaredLen .micro (withFrame (microFrame.take 15))) ∧
    (headerWidth .micro ≤ (withFrame (microFrame ++ [0])).flen ∧
      headerWidth .micro + declaredLen .micro (withFrame (microFrame ++ [0])) < (withFrame (microFrame ++ [0])).flen) ∧
    (microState.flen = headerWidth .micro + declaredLen .micro microState ∧
      parse microState.config .micro (bytesAt microState (headerWidth .micro) (declaredLen .micro microState)) = .ok microChain) ∧
    ((withFrame (microFrame.set 15 1)).flen = headerWidth .micro + declaredLen .micro (withFrame (microFrame.set 15 1)) ∧
      parse (withFrame (microFrame.set 15 1)).config .micro (bytesAt (withFrame (microFrame.set 15 1)) 10 6) = .error .truncatedBlock) := by decide +kernel

theorem test_witness_SerAndParseAreInverse :
    (ChainFits { Config.defaults with fbSize := 16, dbMax := 1, nblkMax := 2, bcDataMax := 2, checksum := .other 0 } microChain ∧ BlocksFit microChain .micro ∧ payloadLength .micro microChain ≤ lenMax .micro) ∧
    ((fullFrame.drop 16).length ≤ lenMax .full ∧ parse Config.defaults .full (fullFrame.drop 16) = .ok fullChain) := by
  unfold ChainFits BlocksFit; decide +kernel

theorem test_witness_FieldGetters : (zeros 15).flen < headerWidth .full ∧ headerWidth .full ≤ (zeros 16).flen ∧
    (zeros 9).flen < headerWidth .micro ∧ headerWidth .micro ≤ (zeros 10).flen := by decide +kernel

/-- One below and one at the bound of a one-byte, a two-byte and a four-byte field. -/
theorem test_witness_FieldSetters :
    (2 ^ (8 * (fieldAt .heartRate .micro).2) ≤ (0x100#32).toNat ∧ (0xFF#32).toNat < 2 ^ (8 * (fieldAt .heartRate .micro).2)) ∧
    (2 ^ (8 * (fieldAt .len .full).2) ≤ (0x10000#32).toNat ∧ (0xFFFF#32).toNat < 2 ^ (8 * (fieldAt .len .full).2)) ∧
    (0xFFFFFFFF#32).toNat < 2 ^ (8 * (fieldAt .srcId .full).2) ∧ headerWidth .full ≤ (zeros 16).flen ∧
    (zeros 15).flen < headerWidth .full := by decide +kernel

theorem test_witness_GetAfterSetReturnsTheValue :
    exec (.setSrc .micro 0xFFFF) microState = .next (result (.setSrc .micro 0xFFFF) microState) ∧
    (result (.setSrc .micro 0xFFFF) microState).responses = microState.responses ++ [reply 0x00 0] :=
  ⟨exec_result _ _, by decide +kernel⟩

theorem test_witness_PriorityIsMasked :
    (zeros 15).flen < headerWidth .full ∧ headerWidth .full ≤ (ones 16).flen := by decide +kernel

theorem test_witness_AddHopLimitWraps :
    (zeros 9).flen < headerWidth .micro ∧ headerWidth .micro ≤ (ones 10).flen := by decide +kernel

theorem test_witness_IsMicroReadsOnlyCfgHdr :
    CodesDistinct State.reset ∧ (withFrame [0x08]).flen < 2 ∧
    (2 ≤ (withFrame [0, 0x08]).flen ∧ wireCfg (withFrame [0, 0x08]) = cfgOf (withFrame [0, 0x08]) .micro) ∧
    (2 ≤ (zeros 2).flen ∧ wireCfg (zeros 2) = cfgOf (zeros 2) .full) ∧
    (∀ m, wireCfg (withFrame [0, 0x10]) ≠ cfgOf (withFrame [0, 0x10]) m) ∧
    ∀ m, wireCfg (withFrame [0, 0x18]) ≠ cfgOf (withFrame [0, 0x18]) m :=
  ⟨by decide, by decide +kernel, by decide +kernel, by decide +kernel, fun m => by cases m <;> decide +kernel,
    fun m => by cases m <;> decide +kernel⟩

/-- V7: the sub-header at offset 10 is the last one inside the payload, offset 11 is cut. -/
theorem test_witness_BlockAccessorsNeedASubHeader :
    (Instr.getBlockLen .full 11 = .getBlockNext .full 11 ∨ Instr.getBlockLen .full 11 = .getBlockLen .full 11 ∨
      Instr.getBlockLen .full 11 = .getBlockData .full 11) ∧
    (zeros 15).flen < headerWidth .full ∧ headerWidth .full ≤ fullState.flen ∧
    presentLen .full fullState < (11#20).toNat + subHeaderWidth .full ∧
    (10#20).toNat + subHeaderWidth .full ≤ presentLen .full fullState := by decide +kernel

/-- V7: micro blocks that end before, at and beyond the declared payload. -/
theorem test_witness_GetBlockNextResults :
    (headerWidth .micro ≤ microState.flen ∧ (4#20).toNat + subHeaderWidth .micro ≤ presentLen .micro microState) ∧
    (0#20).toNat + 2 + microState.memRead (10 + (0#20).toNat + 1) 1 < declaredLen .micro microState ∧
    (4#20).toNat + 2 + microState.memRead (10 + (4#20).toNat + 1) 1 = declaredLen .micro microState ∧
    declaredLen .micro (withFrame (microFrame.set 15 1)) <
      (4#20).toNat + 2 + (withFrame (microFrame.set 15 1)).memRead (10 + (4#20).toNat + 1) 1 := by decide +kernel

theorem test_witness_GetBlockLenAndDataResults :
    (0 = microState.memRead (10 + (4#20).toNat + 1) 1 ∧ (4#20).toNat + subHeaderWidth .micro + 0 ≤ presentLen .micro microState) ∧
    (0x09DE = fullState.memRead (16 + (3#20).toNat + 2) 2 ∧ headerWidth .full ≤ fullState.flen ∧
      (3#20).toNat + subHeaderWidth .full ≤ presentLen .full fullState ∧
      presentLen .full fullState < (3#20).toNat + subHeaderWidth .full + 0x09DE) := by decide +kernel

theorem test_witness_DumpErrors :
    (∀ m, ({ Header.reset with cfgHdr := 2 } : Header).cfgHdr ≠ cfgOf State.reset m) ∧ CodesDistinct State.reset ∧
    (microHeader.cfgHdr = cfgOf State.reset .micro ∧ ¬ BlocksFit [⟨0x0100, []⟩] .micro) ∧
    ¬ IdsFit { microHeader with heartRate := 0x100 } .micro ∧ ¬ IdsFit { microHeader with dstId := 0x10000 } .micro := by
  unfold BlocksFit IdsFit
  exact ⟨fun m => by cases m <;> decide, by decide +kernel⟩

theorem test_witness_DumpBuildsTheFrame :
    CodesDistinct State.reset ∧ microHeader.cfgHdr = cfgOf State.reset .micro ∧ BlocksFit microChain .micro ∧ LengthFits Config.defaults microChain .micro ∧
    IdsFit { microHeader with heartRate := 0xFF, srcId := 0xFFFF, len := 0xFFFF } .micro := by
  unfold BlocksFit LengthFits IdsFit; decide +kernel

/-- V8: a state for every clause, in the order of R192. -/
theorem test_witness_LoadErrors :
    (zeros 1).flen < 2 ∧ (∀ m, wireCfg (withFrame [0, 0x10]) ≠ cfgOf (withFrame [0, 0x10]) m) ∧ CodesDistinct State.reset ∧
    (2 ≤ (withFrame (microFrame.take 9)).flen ∧
      wireCfg (withFrame (microFrame.take 9)) = cfgOf (withFrame (microFrame.take 9)) .micro ∧
      (withFrame (microFrame.take 9)).flen < headerWidth .micro) ∧
    (headerWidth .micro ≤ (withFrame (microFrame.take 15)).flen ∧
      (withFrame (microFrame.take 15)).flen < headerWidth .micro + declaredLen .micro (withFrame (microFrame.take 15))) ∧
    (headerWidth .full + declaredLen .full (zeros 16) ≤ (zeros 16).flen ∧
      (zeros 16).config.cksum (checked .full (zeros 16)) ≠ embedded .full (zeros 16)) :=
  ⟨by decide +kernel, fun m => by cases m <;> decide +kernel, by decide +kernel⟩

/-- V8: micro, `len` 5 with 6 payload bytes, restamped; and the last block's `len` 1 with nothing after it, restamped. -/
theorem test_witness_LoadErrors_payload :
    (let s := withFrame [0x07, 0x0C, 0x3C, 0xBE, 0xEF, 0x01, 0x02, 0x05, 0xEA, 0xDF, 0x07, 0x02, 0x11, 0x22, 0x09, 0x00]
     headerWidth .micro + declaredLen .micro s < s.flen ∧ s.config.cksum (checked .micro s) = embedded .micro s) ∧
    (let s := withFrame [0x07, 0x0C, 0x3C, 0xBE, 0xEF, 0x01, 0x02, 0x06, 0x22, 0x7C, 0x07, 0x02, 0x11, 0x22, 0x09, 0x01]
     s.flen = headerWidth .micro + declaredLen .micro s ∧ s.config.cksum (checked .micro s) = embedded .micro s ∧
     parse s.config .micro (bytesAt s (headerWidth .micro) (declaredLen .micro s)) = .error .truncatedBlock) := by decide +kernel

theorem test_witness_LoadUnpacksAValidFrame :
    CodesDistinct microState ∧ 2 ≤ microState.flen ∧ wireCfg microState = cfgOf microState .micro ∧
    microState.flen = headerWidth .micro + declaredLen .micro microState ∧
    microState.config.cksum (checked .micro microState) = embedded .micro microState ∧
    parse microState.config .micro (bytesAt microState (headerWidth .micro) (declaredLen .micro microState)) = .ok microChain := by
  decide +kernel

theorem test_witness_DumpAndLoadEstablishTheHeaderInvariants :
    exec .load microState = .next (result .load microState) ∧
    (result .load microState).responses = microState.responses ++ [reply 0x00 2] :=
  ⟨exec_result _ _, by decide +kernel⟩

theorem test_witness_LoadAfterDumpRestoresTheMessage :
    ChainFits State.reset.config microChain ∧
    exec .dump { State.reset with hr := microHeader, bc := microChain } =
      .next (result .dump { State.reset with hr := microHeader, bc := microChain }) ∧
    (result .dump { State.reset with hr := microHeader, bc := microChain }).responses = [] ++ [reply 0x00 16] :=
  ⟨⟨by decide, by decide⟩, exec_result _ _, by decide +kernel⟩

theorem test_witness_DumpAfterLoadRewritesTheFrame :
    fullState.flen ≤ fullState.config.fbSize ∧
    exec .load fullState = .next (result .load fullState) ∧
    (result .load fullState).responses = fullState.responses ++ [reply 0x00 2] :=
  ⟨by decide +kernel, exec_result _ _, by decide +kernel⟩

theorem test_witness_HrGetReturnsTheField : (8#20).toNat < 9 ∧ 9 ≤ (9#20).toNat := by decide

/-- The last selector, the widest value of a two-bit field and the first that does not fit, the 32-bit field, and no selector. -/
theorem test_witness_HrSetWritesTheField :
    (8#20).toNat < 9 ∧ 9 ≤ (9#20).toNat ∧ (3#32).toNat < 2 ^ [8, 3, 2, 3, 16, 32, 32, 16, 16][(2#20).toNat] ∧
    ((2#20).toNat ≠ 3 ∧ 2 ^ [8, 3, 2, 3, 16, 32, 32, 16, 16][(2#20).toNat] ≤ (4#32).toNat) ∧
    (0xFFFFFFFF#32).toNat < 2 ^ [8, 3, 2, 3, 16, 32, 32, 16, 16][(5#20).toNat] := by decide

theorem test_witness_FbReadResults : (15#20).toNat < microState.flen ∧ microState.flen ≤ (16#20).toNat := by decide +kernel

/-- At `FLEN`, one above it, at the end of the buffer, a value that is no byte. -/
theorem test_witness_FbWriteAndFbSetlenResults :
    ((16#20).toNat ≤ microState.flen ∧ (16#20).toNat < Config.defaults.fbSize ∧ (0xFF#32).toNat ≤ 0xFF) ∧
    microState.flen < (17#20).toNat ∧ Config.defaults.fbSize ≤ (65551#20).toNat ∧ 0xFF < (0x100#32).toNat := by decide +kernel

theorem test_witness_StagingBufferCommands :
    0xFF < (0x100#32).toNat ∧ (List.replicate 65535 0x00#8).length = Config.defaults.dbMax ∧
    ((0xFF#32).toNat ≤ 0xFF ∧ (List.replicate 65534 0x00#8).length ≠ Config.defaults.dbMax) := by
  simp only [List.length_replicate]
  decide

theorem test_witness_ChainReadOut :
    (1#20).toNat < microChain.length ∧ microChain.length ≤ (2#20).toNat ∧
    (1#32).toNat < (microChain[(0#20).toNat]).data.length ∧ (microChain[(0#20).toNat]).data.length ≤ (2#32).toNat := by decide

end Sys2Proof.Tests
end

section
/-!
PROOFS. The state of the core at reset (R37) and the status register after every command word (R32). The key fact is one
inversion of `exec`: every command but `STATUS_GET` finishes a result, and every success of that result leaves `STATUS` as
`bodyStatus` says, before R32 records the outcome.
-/

namespace Sys2Proof.Machine

open Sys2Proof.Statement

/-! ### What the successes of a result leave -/

/-- Every success of the result leaves a state with `P`. -/
def LeavesOnSuccess (P : State → Prop) (r : Result) : Prop := ∀ t v, r = .ok (t, v) → P t

section
variable {P : State → Prop} {s t : State} {v : BitVec 32}

theorem leavesOnSuccess_ok (h : P t) : LeavesOnSuccess P (.ok (t, v)) := by
  rintro _ _ ⟨⟩
  exact h

/-- A computation before the result has no say in what a success leaves. -/
theorem leavesOnSuccess_bind {β : Type} {x : Except Cause β} {f : β → Result} (h : ∀ y, LeavesOnSuccess P (f y)) :
    LeavesOnSuccess P (x >>= f) := by
  intro t v hr
  obtain ⟨y, -, hy⟩ := bind_eq_ok.mp hr
  exact h y t v hy

/-- A whole-byte getter leaves the state it found (R150). -/
theorem leavesOnSuccess_getField {f : WireField} {m : SizeClass} (h : P s) : LeavesOnSuccess P (getField f m s) := by
  intro t v hr
  obtain ⟨-, rfl, -⟩ := getField_eq_ok.mp hr
  exact h

/-- A whole-byte setter leaves the field written and `CKV` at 0 (R150). -/
theorem leavesOnSuccess_setField {f : WireField} {m : SizeClass} (h : P ((s.writeField f m v.toNat).setCkv false)) :
    LeavesOnSuccess P (setField f m v s) := by
  intro t w hr
  obtain ⟨-, -, rfl, -⟩ := setField_eq_ok.mp hr
  exact h

end

/-! ### `STATUS` under the body of a command -/

/-- `STATUS` as the body of a successful command leaves it, before R32 records the outcome: `RESET` (R201) and `STATUS_CLR`
(R203) clear it in whole or in part, every other command changes `CKV` alone (R31). -/
def bodyStatus (i : Instr) (st : Status) : Status :=
  match i with
  | .reset => Status.reset
  | .statusClr => st.clearErrs
  | i => { st with ckv := (effects i).ckv.getD st.ckv }

/-- `ERRS` is cleared by the bodies of `STATUS_CLR` and `RESET` alone (R32). -/
theorem bodyStatus_errs (i : Instr) (st : Status) :
    (bodyStatus i st).errs = true ↔ st.errs = true ∧ i ≠ .statusClr ∧ i ≠ .reset := by
  unfold bodyStatus
  split <;> simp_all [Status.reset]

/-- The one inversion of `exec`: a command other than `STATUS_GET` finishes a result, its errors wrapped for `LOAD` alone
(R233), and every success of the result leaves `STATUS` as `bodyStatus` says. The cases are grouped by the number of
checks and reads before the command's writes. -/
theorem exec_eq_finish (i : Instr) (s : State) (hi : i ≠ .statusGet) :
    ∃ r, exec i s = .next (s.finish (decide (i = .load)) r) ∧
      LeavesOnSuccess (fun t => t.status = bodyStatus i s.status) r := by
  cases i with
  | statusGet => exact absurd rfl hi
  | nop | reset | statusClr | blkClear | dbClear => exact ⟨_, rfl, leavesOnSuccess_ok rfl⟩
  | getHopLimit | getHeartRate | getSrc | getDst | getLen | getChecksum =>
    exact ⟨_, rfl, leavesOnSuccess_getField rfl⟩
  | setHeartRate | setSrc | setDst | setLen | setChecksum => exact ⟨_, rfl, leavesOnSuccess_setField rfl⟩
  | sysGet | cksumCompute | cksumStamp | blkSerialize | getPriority | setPriority | addHopLimit | isMicro | getBlockLen
  | hrGet | fbRead | fbSetlen | dbPush | blkType | blkLen =>
    exact ⟨_, rfl, leavesOnSuccess_bind fun _ => leavesOnSuccess_ok rfl⟩
  | fbWrite =>
    exact ⟨_, rfl, leavesOnSuccess_bind fun _ => leavesOnSuccess_ok (by simp [bodyStatus, effects, nothing])⟩
  | hdrPack =>
    exact ⟨_, rfl, leavesOnSuccess_bind fun _ => leavesOnSuccess_bind fun _ =>
      leavesOnSuccess_ok (by simp [bodyStatus, effects, nothing])⟩
  | hdrUnpack | cksumVerify | getBlockNext | getBlockData | hrSet | blkByte =>
    exact ⟨_, rfl, leavesOnSuccess_bind fun _ => leavesOnSuccess_bind fun _ => leavesOnSuccess_ok rfl⟩
  | blkAppend | dump =>
    exact ⟨_, rfl, leavesOnSuccess_bind fun _ => leavesOnSuccess_bind fun _ => leavesOnSuccess_bind fun _ =>
      leavesOnSuccess_ok rfl⟩
  | blkDeserialize =>
    exact ⟨_, rfl, leavesOnSuccess_bind fun _ => leavesOnSuccess_bind fun _ => leavesOnSuccess_bind fun _ =>
      leavesOnSuccess_bind fun _ => leavesOnSuccess_ok rfl⟩
  | load =>
    exact ⟨_, rfl, leavesOnSuccess_bind fun _ => leavesOnSuccess_bind fun _ => leavesOnSuccess_bind fun _ =>
      leavesOnSuccess_bind fun _ => leavesOnSuccess_bind fun _ => leavesOnSuccess_bind fun _ =>
      leavesOnSuccess_ok rfl⟩

/-- Everything a command other than `STATUS_GET` can end in: a success whose body left `STATUS` as `bodyStatus` says, or an
error on the state it found. -/
theorem exec_status_cases {i : Instr} {s u : State} (hi : i ≠ .statusGet) (h : exec i s = .next u) :
    (∃ (t : State) (v : BitVec 32), u = t.succeed v ∧ t.status = bodyStatus i s.status) ∨
    (∃ e, u = s.raise (decide (i = .load)) e) := by
  obtain ⟨r, hr, hleaves⟩ := exec_eq_finish i s hi
  obtain rfl : u = s.finish (decide (i = .load)) r := by simpa [hr, eq_comm] using h
  rcases s.finish_cases (decide (i = .load)) r with ⟨t, v, hok, hu⟩ | ⟨e, -, hu⟩
  · exact .inl ⟨t, v, hu, hleaves t v hok⟩
  · exact .inr ⟨e, hu⟩

/-! ### The response word and `STATUS` carry the same outcome -/

/-- The code of a response word: the `DE` bit, three zeros, the cause (R72). -/
def responseCode (de : Bool) (c : BitVec 4) : BitVec 8 := flagBit de ++ 0#3 ++ c

theorem responseWord_eq_reply (de : Bool) (c : BitVec 4) (v : BitVec 32) :
    responseWord de c v = reply (responseCode de c) v := rfl

@[simp] theorem causeOf_responseCode (de : Bool) (c : BitVec 4) : causeOf (responseCode de c) = c :=
  BitVec.extractLsb'_append_eq_right

@[simp] theorem responseCode_msb (de : Bool) (c : BitVec 4) : (responseCode de c).msb = de := by
  revert de c
  decide

theorem code_eq_of_reply_eq {c d : BitVec 8} {v w : BitVec 32} (h : reply c v = reply d w) : c = d :=
  calc c = (reply c v).extractLsb' 32 8 := BitVec.extractLsb'_append_eq_left.symm
    _ = (reply d w).extractLsb' 32 8 := by rw [h]
    _ = d := BitVec.extractLsb'_append_eq_left

/-- The last response word of a list determines the outcome it carries. -/
theorem outcome_eq_of_responses_eq {xs ys : List ResponseWord} {de : Bool} {c : BitVec 4} {v w : BitVec 32}
    {code : BitVec 8} (h : xs ++ [responseWord de c v] = ys ++ [reply code w]) : causeOf code = c ∧ code.msb = de := by
  obtain ⟨-, hlast⟩ := List.append_inj' h (by simp only [List.length_singleton])
  obtain rfl : responseCode de c = code :=
    code_eq_of_reply_eq ((responseWord_eq_reply de c v).symm.trans (List.singleton_inj.mp hlast))
  exact ⟨causeOf_responseCode de c, responseCode_msb de c⟩

/-! ### The rule of R32 -/

/-- An error sets `ERRS` and leaves in `LAST` and `LASTDE` what its response carries (R32, R235). -/
theorem raise_records {s : State} {de : Bool} {e : Cause} {code : BitVec 8} {v : BitVec 32}
    (hr : (s.raise de e).responses = s.responses ++ [reply code v]) :
    causeOf code ≠ 0 ∧ (s.raise de e).status.last = causeOf code ∧ (s.raise de e).status.lastDE = code.msb ∧
      (s.raise de e).status.errs = true := by
  rw [State.raise_responses] at hr
  obtain ⟨hcause, hde⟩ := outcome_eq_of_responses_eq hr
  simp [hcause, hde]

/-- A success leaves `ERRS` as the body of the command left it, and in `LAST` and `LASTDE` what its response carries
(R32). -/
theorem succeed_records {s t : State} {w : BitVec 32} {code : BitVec 8} {v : BitVec 32}
    (hr : (t.succeed w).responses = s.responses ++ [reply code v]) :
    causeOf code = 0 ∧ (t.succeed w).status.last = causeOf code ∧ (t.succeed w).status.lastDE = code.msb ∧
      (t.succeed w).status.errs = t.status.errs := by
  rw [State.succeed_responses] at hr
  obtain ⟨hcause, hde⟩ := outcome_eq_of_responses_eq hr
  simp [hcause, hde]

/-- R32 for every command but `STATUS_GET`. -/
theorem exec_records {i : Instr} {s t : State} {code : BitVec 8} {v : BitVec 32} (hi : i ≠ .statusGet)
    (h : exec i s = .next t) (hr : t.responses = s.responses ++ [reply code v]) :
    t.status.last = causeOf code ∧ t.status.lastDE = code.msb ∧
      (t.status.errs = true ↔ causeOf code ≠ 0 ∨ (s.status.errs = true ∧ i ≠ .statusClr ∧ i ≠ .reset)) := by
  rcases exec_status_cases hi h with ⟨x, w, rfl, hx⟩ | ⟨e, rfl⟩
  · obtain ⟨hcause, hlast, hde, herrs⟩ := succeed_records hr
    refine ⟨hlast, hde, ?_⟩
    rw [herrs, hx, bodyStatus_errs]
    simp [hcause]
  · obtain ⟨hcause, hlast, hde, herrs⟩ := raise_records hr
    exact ⟨hlast, hde, iff_of_true herrs (.inl hcause)⟩

/-- Settles O10: a word that does not decode is answered by an error, `STATUS_GET` updates nothing, and every other command
follows R32 by `exec_records`. -/
theorem statusUpdateOfEveryCommand : Obligations.StatusUpdateOfEveryCommand := by
  unfold Obligations.StatusUpdateOfEveryCommand
  intro w s t code v h hr
  cases hw : decode w with
  | error reject =>
    obtain rfl : s.raise false .illegalCommand = t := by simpa [execWord_of_error hw, answerIllegal] using h
    obtain ⟨hcause, hlast, hde, herrs⟩ := raise_records hr
    exact ⟨nofun, fun _ => ⟨hlast, hde, iff_of_true herrs (.inl hcause)⟩⟩
  | ok i =>
    rw [execWord_of_ok hw] at h
    refine ⟨?_, fun hi => ?_⟩
    · rintro ⟨⟩
      obtain rfl : s.respond false 0 s.status.word = t := by simpa [exec_statusGet] using h
      rfl
    · simpa using exec_records (fun hget => hi (congrArg _ hget)) h hr

/-! ### The reset state -/

/-- Settles O12: each field of the reset state is the one R37 gives, and `CFG_FULL` is the code 0 that `HR.cfg_hdr` holds. -/
theorem resetStateIsAllZero : Obligations.ResetStateIsAllZero := by
  unfold Obligations.ResetStateIsAllZero
  rintro s (rfl | ⟨c, hfull, rfl⟩)
  · exact ⟨rfl, rfl, rfl, rfl, rfl, rfl⟩
  · exact ⟨rfl, hfull.symm, rfl, rfl, rfl, rfl⟩

end Sys2Proof.Machine
end

section
/-!
PROOFS. Big-endian access of several bytes of the frame buffer (R40). Both facts hold for every width, the 1, 2 and 4 bytes
of R40 among them: a read of `n + 1` bytes is 256 times the read of the first `n` plus the last byte, which gives the sum by
induction; a write stores the bytes of `beBytes`, of which the mask `& 0xFF` changes nothing.
-/

namespace Sys2Proof.Machine

open Sys2Proof.Statement

/-! ### Reading -/

/-- The last byte is the least significant one (R40). -/
theorem State.memRead_succ (s : State) (addr n : Nat) :
    s.memRead addr (n + 1) = s.memRead addr n * 256 + (s.fb.read (addr + n)).toNat := by
  have hlast : s.fbBytes (addr + n) 1 = [s.fb.read (addr + n)] := rfl
  rw [State.memRead, State.fbBytes_append, hlast, beNat_concat, State.memRead]

/-- Each byte stands one place, a factor of 256, higher once a byte follows it. -/
theorem shiftLeft_bytePlace_succ {n k : Nat} (h : k < n) (x : Nat) :
    x <<< (8 * (n + 1 - 1 - k)) = x <<< (8 * (n - 1 - k)) * 256 := by
  have hplace : 8 * (n + 1 - 1 - k) = 8 * (n - 1 - k) + 8 := by omega
  rw [hplace, Nat.shiftLeft_add, Nat.shiftLeft_eq _ 8]

/-- R40: a read is the sum of its bytes, each shifted to its place. -/
theorem State.memRead_eq_sum (s : State) (addr n : Nat) :
    s.memRead addr n = ((List.range n).map fun k => (s.fb.read (addr + k)).toNat <<< (8 * (n - 1 - k))).sum := by
  induction n with
  | zero => rfl
  | succ n ih =>
    have hfirst : ((List.range n).map fun k => (s.fb.read (addr + k)).toNat <<< (8 * (n + 1 - 1 - k))) =
        (List.range n).map fun k => (s.fb.read (addr + k)).toNat <<< (8 * (n - 1 - k)) * 256 :=
      List.map_congr_left fun k hk => shiftLeft_bytePlace_succ (List.mem_range.mp hk) _
    rw [State.memRead_succ, ih, List.range_succ, List.map_append, List.sum_append, hfirst, List.sum_map_mul_right]
    simp

/-! ### Writing -/

/-- `writeBytes` stores its bytes at its address and touches no other byte. -/
theorem stores_writeBytes (mem : Memory) (addr : Nat) (bytes : List Byte) :
    Stores mem (mem.writeBytes addr bytes) addr bytes := Memory.read_writeBytes bytes mem addr

/-- A byte keeps the low eight bits of a number, masked or not. -/
theorem byte_ofNat_and_0xFF (x : Nat) : BitVec.ofNat 8 (x &&& 0xFF) = BitVec.ofNat 8 x := by
  apply BitVec.eq_of_toNat_eq
  rw [BitVec.toNat_ofNat, BitVec.toNat_ofNat, Nat.and_two_pow_sub_one_eq_mod x 8, Nat.mod_mod]

/-- The bytes of a value as R40 writes them. -/
theorem beBytes_eq_masked (n v : Nat) :
    beBytes n v = (List.range n).map fun k => BitVec.ofNat 8 ((v >>> (8 * (n - 1 - k))) &&& 0xFF) := by
  simp only [byte_ofNat_and_0xFF, beBytes]

/-- Settles O19: the read is `memRead_eq_sum`, and the write stores the bytes of `beBytes`, those of R40. -/
theorem multiByteAccessIsBigEndian : Obligations.MultiByteAccessIsBigEndian := by
  unfold Obligations.MultiByteAccessIsBigEndian
  intro s addr v n _
  refine ⟨s.memRead_eq_sum addr n, s.fb.writeBytes addr (beBytes n v), rfl, ?_⟩
  rw [← beBytes_eq_masked]
  exact stores_writeBytes s.fb addr (beBytes n v)

end Sys2Proof.Machine
end

section
/-!
PROOFS. The opcode table read as match and mask (R75) and the decoder's checks field by field (R73) take the same words. The key
fact is that a row of the table is the translation of a row of the opcode map: its mask has a one at every bit that is no operand
of the command, so a word matches under it exactly when its opcode is the row's and every field the command does not use is zero.
-/

namespace Sys2Proof

open Sys2Proof.Statement

/-! ### The decoder's row for a word -/

/-- R74: no opcode stands in two rows. -/
theorem opcodeMap_op_nodup : (opcodeMap.map OpcodeRow.op).Nodup := by decide

theorem find?_opcodeMap_eq_some {op : BitVec 8} {r : OpcodeRow} :
    opcodeMap.find? (fun q => q.op == op) = some r ↔ r ∈ opcodeMap ∧ r.op = op := by
  constructor
  · intro h
    exact ⟨List.mem_of_find?_eq_some h, by simpa using List.find?_some h⟩
  · rintro ⟨hr, rfl⟩
    obtain ⟨q, hq⟩ := Option.isSome_iff_exists.mp
      (List.find?_isSome (p := fun q : OpcodeRow => q.op == r.op).mpr ⟨r, hr, beq_self_eq_true _⟩)
    have hop : q.op = r.op := by simpa using List.find?_some hq
    rw [hq, List.inj_on_of_nodup_map opcodeMap_op_nodup (List.mem_of_find?_eq_some hq) hr hop]

/-- A word decodes to a command exactly when a row of the opcode map with its opcode accepts it. -/
theorem decode_eq_ok_iff_row {w : CommandWord} {i : Instr} :
    decode w = .ok i ↔ ∃ r ∈ opcodeMap, r.op = commandOp w ∧ decodeRow r w = .ok i := by
  simp only [decode_eq_ok, find?_opcodeMap_eq_some, and_assoc]

/-! ### Matching under a mask, field by field -/

/-- R71: a word is its five fields, one after the other. -/
theorem append_fields (w : CommandWord) :
    commandOp w ++ commandM w ++ commandZero w ++ commandA w ++ commandV w = w := by
  unfold commandOp commandM commandZero commandA commandV
  simp only [BitVec.extractLsb'_append_extractLsb'_eq_extractLsb']
  exact BitVec.extractLsb'_eq_self

/-- The mask over an operand field: nothing of it where the command uses the operand, else all of it (R75). -/
def fieldMask (n : Nat) (used : Bool) : BitVec n := if used then 0#n else BitVec.allOnes n

theorem and_fieldMask_eq_zero {n : Nat} {x : BitVec n} {used : Bool} :
    x &&& fieldMask n used = 0#n ↔ (used = false → x = 0#n) := by
  cases used <;> simp [fieldMask]

/-- The mask of the words of a row (R75): every bit but those of the operands the command uses. -/
def OpcodeRow.mask (r : OpcodeRow) : CommandWord :=
  BitVec.allOnes 8 ++ fieldMask 1 r.usesM ++ BitVec.allOnes 3 ++ fieldMask 20 r.usesA ++ fieldMask 32 r.usesV

theorem bitVec_append_eq_append_iff {n k : Nat} {x x' : BitVec n} {y y' : BitVec k} :
    x ++ y = x' ++ y' ↔ x = x' ∧ y = y' := by
  constructor
  · intro h
    obtain rfl : x = x' := by
      simpa only [BitVec.extractLsb'_append_eq_left] using congrArg (BitVec.extractLsb' k n) h
    exact ⟨rfl, (BitVec.append_right_inj x).mp h⟩
  · rintro ⟨rfl, rfl⟩
    rfl

/-- Five fields in a row are those of a command's word exactly when they are equal one by one and the zero field is zero. -/
theorem append_eq_commandWord_iff {op op' : BitVec 8} {m m' : BitVec 1} {z : BitVec 3} {a a' : BitVec 20}
    {v v' : BitVec 32} :
    op ++ m ++ z ++ a ++ v = commandWord op' m' a' v' ↔ op = op' ∧ m = m' ∧ z = 0#3 ∧ a = a' ∧ v = v' := by
  have hfields : op ++ m ++ z ++ a ++ v = op' ++ m' ++ 0#3 ++ a' ++ v' ↔ _ := bitVec_append_eq_append_iff
  exact hfields.trans (by simp only [bitVec_append_eq_append_iff, and_assoc])

/-- A word matches a row under its mask exactly when it passes the checks of R73 items 1 to 5. -/
theorem and_mask_eq_iff {r : OpcodeRow} {w : CommandWord} :
    w &&& r.mask = commandWord r.op 0 0 0 ↔
      commandOp w = r.op ∧ (r.usesM = false → commandM w = 0#1) ∧ commandZero w = 0#3 ∧
      (r.usesA = false → commandA w = 0#20) ∧ (r.usesV = false → commandV w = 0#32) := by
  have hand : w &&& r.mask = (commandOp w &&& BitVec.allOnes 8) ++ (commandM w &&& fieldMask 1 r.usesM) ++
      (commandZero w &&& BitVec.allOnes 3) ++ (commandA w &&& fieldMask 20 r.usesA) ++
      (commandV w &&& fieldMask 32 r.usesV) := by
    simp only [← BitVec.and_append]
    rw [append_fields, OpcodeRow.mask]
  rw [hand, append_eq_commandWord_iff, BitVec.and_allOnes, BitVec.and_allOnes]
  exact and_congr_right' (and_congr and_fieldMask_eq_zero
    (and_congr_right' (and_congr and_fieldMask_eq_zero and_fieldMask_eq_zero)))

/-! ### The table is the translation of the opcode map -/

/-- How many values of `a` the command of an opcode takes (R79): the selectors of `SYS_GET`, `HR_GET` and `HR_SET`, all
`2 ^ 20` of any other command. -/
def selectorCount (op : BitVec 8) : Nat :=
  if op = 0x04#8 then 3 else if op = 0x70#8 ∨ op = 0x71#8 then 9 else 2 ^ 20

/-- The row of spec/opcode_table.json for a row of the opcode map. -/
def OpcodeRow.toTableRow (r : OpcodeRow) : TableRow where
  value := commandWord r.op 0 0 0
  mask := r.mask
  selectors := selectorCount r.op
  command w := r.build (wordClass w) (wordA w) (wordV w)

theorem table_eq_map : table = opcodeMap.map OpcodeRow.toTableRow := rfl

theorem wordClass_eq (w : CommandWord) : wordClass w = classOfBit (commandM w) :=
  if_congr (by rw [BitVec.getLsbD_eq_extractLsb', beq_iff_eq, commandM]) rfl rfl

theorem wordA_eq (w : CommandWord) : wordA w = commandA w := rfl

theorem wordV_eq (w : CommandWord) : wordV w = commandV w := rfl

/-- R79: three rows have a selector table; any other row takes every `a` and builds well-formed commands alone. -/
theorem opcodeMap_selector_cases {r : OpcodeRow} (hr : r ∈ opcodeMap) :
    r = rowA 0x04 .sysGet ∨ r = rowA 0x70 .hrGet ∨ r = rowAV 0x71 .hrSet ∨
      (selectorCount r.op = 2 ^ 20 ∧ ∀ m a v, (r.build m a v).wellFormed = true) := by
  revert r
  simp [opcodeMap, opcodeMapLow, opcodeMapAccessors, opcodeMapHigh, rowPlain, rowM, rowA, rowV, rowMV, rowMA, rowAV,
    selectorCount, Instr.wellFormed]

/-- R73 item 6 with R79: the command of a row is well-formed exactly when its `a` is one of the row's selectors. -/
theorem build_wellFormed_iff {r : OpcodeRow} (hr : r ∈ opcodeMap) (m : SizeClass) (a : BitVec 20) (v : BitVec 32) :
    (r.build m a v).wellFormed = true ↔ a.toNat < selectorCount r.op := by
  rcases opcodeMap_selector_cases hr with rfl | rfl | rfl | ⟨hcount, hwf⟩
  · exact decide_eq_true_iff
  · exact decide_eq_true_iff
  · exact decide_eq_true_iff
  · exact iff_of_true (hwf m a v) (hcount ▸ a.isLt)

/-- A row of the opcode map accepts the words its row of the table takes, as the same commands. -/
theorem decodeRow_eq_ok_iff_takes {r : OpcodeRow} (hr : r ∈ opcodeMap) {w : CommandWord} {i : Instr} :
    r.op = commandOp w ∧ decodeRow r w = .ok i ↔ r.toTableRow.Takes w ∧ i = r.toTableRow.command w := by
  simp only [decodeRow_eq_ok, TableRow.Takes, OpcodeRow.toTableRow, and_mask_eq_iff, wordClass_eq, wordA_eq, wordV_eq,
    ← build_wellFormed_iff hr (classOfBit (commandM w)) (commandA w) (commandV w)]
  constructor
  · rintro ⟨hop, hzero, hm, ha, hv, rfl, hwf⟩
    exact ⟨⟨⟨hop.symm, hm, hzero, ha, hv⟩, hwf⟩, rfl⟩
  · rintro ⟨⟨⟨hop, hm, hzero, ha, hv⟩, hwf⟩, rfl⟩
    exact ⟨hop.symm, hzero, hm, ha, hv, rfl, hwf⟩

/-- Settles O4: the row the decoder finds for a word is the only one with its opcode, and each row of the map accepts what its
row of the table takes. -/
theorem decodeFollowsTheOpcodeTable : Obligations.DecodeFollowsTheOpcodeTable := by
  unfold Obligations.DecodeFollowsTheOpcodeTable
  intro w i
  calc decode w = .ok i
    _ ↔ ∃ r ∈ opcodeMap, r.op = commandOp w ∧ decodeRow r w = .ok i := decode_eq_ok_iff_row
    _ ↔ ∃ r ∈ opcodeMap, r.toTableRow.Takes w ∧ i = r.toTableRow.command w :=
      exists_congr fun _ => and_congr_right fun hr => decodeRow_eq_ok_iff_takes hr
    _ ↔ ∃ t ∈ table, t.Takes w ∧ i = t.command w := by
      simp only [table_eq_map, List.mem_map, exists_exists_and_eq_and]

end Sys2Proof
end

section
/-!
PROOFS. The ends of a command in the words of the statements: a success is `ok` of the state its body left (R14, R32), a raised
cause is `err` with the response code of the cause (R235, R236).
-/

namespace Sys2Proof.Machine

open Sys2Proof.Statement

theorem State.setCkv_eq_ckvTo (s : State) (b : Bool) : s.setCkv b = ckvTo s b := rfl

/-- R32: the code of OK leaves `ERRS` alone. -/
theorem State.succeed_eq_ok (s : State) (v : BitVec 32) : s.succeed v = ok s v := by
  have hstatus : s.status.record false 0 = { s.status with last := 0, lastDE := false } := by simp [Status.record]
  rw [State.succeed, State.record, hstatus]
  rfl

/-- R236: the one cause that clears `CKV` is ChecksumMismatch, the one with code 3. -/
theorem Cause.code_eq_three_iff {e : Cause} : e.code = 3#4 ↔ e = .checksumMismatch := by
  cases e <;> decide

theorem State.refute_record_status (s : State) (de : Bool) (e : Cause) :
    (s.refute e).status.record de e.code =
      { last := e.code, lastDE := de, errs := true, ckv := s.status.ckv && e.code != 3 } := by
  rw [State.refute_status]
  split
  case isTrue h => simp [Status.record, h, Cause.code]
  case isFalse h => simp [Status.record, Cause.code_eq_three_iff, h]

/-- R235, R236: what a raised cause leaves, whatever the cause and the wrapper bit. -/
theorem State.raise_eq_err (s : State) (de : Bool) (e : Cause) : s.raise de e = err s (responseCode de e.code) := by
  have hrefute : s.refute e = { s with status := (s.refute e).status } := by unfold State.refute; split <;> rfl
  rw [State.raise, State.record, State.refute_record_status, hrefute, err, causeOf_responseCode, responseCode_msb]
  rfl

end Sys2Proof.Machine
end

section
/-!
PROOFS. `pack` and `unpack` (R90, R100) as inverses of each other. The key notion is the value a header gives each field of the
serialized header: `pack` writes these values big-endian at the addresses of R150, `unpack` is the header whose values are those
fields of the string, and a header fits a class exactly when every value fits the width of its field. As a header is determined by
its values and a string by its fields, each direction is then the round trip of one field.
-/

namespace Sys2Proof.Machine

open Sys2Proof.Statement

/-! ### The layout of `pack` -/

/-- Byte 1 by shifts (R44): the three bit fields do not overlap. -/
theorem packByte1_eq_shifts (h : Header) :
    packByte1 h = BitVec.ofNat 8 (h.earmark.toNat <<< 5 ||| h.cfgHdr.toNat <<< 3 ||| h.priority.toNat) := by
  have hbits : (packByte1 h).toNat = h.earmark.toNat <<< 5 ||| h.cfgHdr.toNat <<< 3 ||| h.priority.toNat := by
    rw [packByte1, BitVec.toNat_append, BitVec.toNat_append, Nat.shiftLeft_or_distrib, ← Nat.shiftLeft_add]
  rw [← hbits, BitVec.ofNat_toNat, BitVec.setWidth_eq]

/-- Settles O22: each field is written out as its bytes; the micro fields that R91 line 2 bounds are cut to their width, so the
layout holds for every header. -/
theorem packIsTheWireLayout : Obligations.PackIsTheWireLayout := by
  unfold Obligations.PackIsTheWireLayout
  intro h
  constructor
  · rw [pack_full, packByte1_eq_shifts, beBytes_two_toNat16, beBytes_two_toNat16, beBytes_two_toNat16,
      beBytes_four_toNat32, beBytes_four_toNat32]
    rfl
  · intro _
    rw [pack_micro, packByte1_eq_shifts, beBytes_two_toNat16, beBytes_two_toNat32, beBytes_two_toNat32, beBytes_one,
      beBytes_one]
    rfl

/-! ### The values of the fields -/

/-- The value a header gives a field of the serialized header (R44 to R46). -/
def Header.wireValue (h : Header) : WireField → Nat
  | .hopLimit => h.hopLimit.toNat
  | .byte1 => (packByte1 h).toNat
  | .heartRate => h.heartRate.toNat
  | .srcId => h.srcId.toNat
  | .dstId => h.dstId.toNat
  | .len => h.len.toNat
  | .checkSum => h.checkSum.toNat

/-- The fields of the serialized header in the order of their addresses (R150). -/
def wireFields : List WireField := [.hopLimit, .byte1, .heartRate, .srcId, .dstId, .len, .checkSum]

/-- A header is determined by the values of its fields. -/
theorem Header.eq_of_wireValue_eq {h k : Header} (hv : ∀ f, h.wireValue f = k.wireValue f) : h = k := by
  have hbyte1 : packByte1 h = packByte1 k := BitVec.eq_of_toNat_eq (hv .byte1)
  obtain ⟨hearmark, hcfg, hpriority⟩ := byte1_fields h.earmark h.cfgHdr h.priority
  obtain ⟨kearmark, kcfg, kpriority⟩ := byte1_fields k.earmark k.cfgHdr k.priority
  rw [← packByte1] at hearmark hcfg hpriority kearmark kcfg kpriority
  rw [hbyte1] at hearmark hcfg hpriority
  cases h
  cases k
  rw [Header.mk.injEq]
  exact ⟨BitVec.eq_of_toNat_eq (hv .hopLimit), hearmark.symm.trans kearmark, hcfg.symm.trans kcfg,
    hpriority.symm.trans kpriority, BitVec.eq_of_toNat_eq (hv .heartRate), BitVec.eq_of_toNat_eq (hv .srcId),
    BitVec.eq_of_toNat_eq (hv .dstId), BitVec.eq_of_toNat_eq (hv .len), BitVec.eq_of_toNat_eq (hv .checkSum)⟩

/-- R91 line 2: a header fits a class exactly when each of its values fits the width of its field. -/
theorem fits_iff_wireValue_lt {h : Header} {m : SizeClass} :
    Fits h m ↔ ∀ f, h.wireValue f < 256 ^ (fieldAt f m).2 := by
  constructor
  · rintro ⟨hids, hlen⟩ f
    cases m with
    | full => cases f <;> exact BitVec.isLt _
    | micro =>
      obtain ⟨hheart, hsrc, hdst⟩ := hids rfl
      cases f with
      | hopLimit | byte1 | checkSum => exact BitVec.isLt _
      | heartRate => exact hheart
      | srcId => exact hsrc
      | dstId => exact hdst
      | len => exact hlen rfl
  · intro hv
    refine ⟨?_, ?_⟩
    · rintro rfl
      exact ⟨hv .heartRate, hv .srcId, hv .dstId⟩
    · rintro rfl
      exact hv .len

/-! ### The fields of a string -/

theorem slice_append_slice (b : List Byte) (o n k : Nat) : slice b o n ++ slice b (o + n) k = slice b o (n + k) := by
  rw [slice, slice, slice, List.take_add, List.drop_drop]

theorem slice_one {b : List Byte} {k : Nat} (h : k < b.length) : slice b k 1 = [b.getD k 0] := by
  rw [slice, List.take_one_drop_eq_of_lt_length h, List.get_eq_getElem, List.getD_eq_getElem _ _ h]

theorem slice_fieldAt_length {b : List Byte} {m : SizeClass} (hb : b.length = headerWidth m) (f : WireField) :
    (slice b (fieldAt f m).1 (fieldAt f m).2).length = (fieldAt f m).2 :=
  slice_length (hb ▸ fieldAt_end f m)

/-- The fields tile the header (R150). -/
theorem flatMap_slice_fieldAt {b : List Byte} {m : SizeClass} (hb : b.length = headerWidth m) :
    wireFields.flatMap (fun f => slice b (fieldAt f m).1 (fieldAt f m).2) = b := by
  have hwhole : slice b 0 (headerWidth m) = b := by rw [slice, List.drop_zero, ← hb, List.take_length]
  refine Eq.trans ?_ hwhole
  cases m with
  | full =>
    simp only [wireFields, fieldAt, headerWidth, List.flatMap_cons, List.flatMap_nil, List.append_nil]
    rw [slice_append_slice b 12 2 2, slice_append_slice b 8 4 4, slice_append_slice b 4 4 8, slice_append_slice b 2 2 12,
      slice_append_slice b 1 1 14, slice_append_slice b 0 1 15]
  | micro =>
    simp only [wireFields, fieldAt, headerWidth, List.flatMap_cons, List.flatMap_nil, List.append_nil]
    rw [slice_append_slice b 7 1 2, slice_append_slice b 5 2 3, slice_append_slice b 3 2 5, slice_append_slice b 2 1 7,
      slice_append_slice b 1 1 8, slice_append_slice b 0 1 9]

/-- A string of `HW(m)` bytes is determined by its fields. -/
theorem eq_of_slice_fieldAt_eq {b c : List Byte} {m : SizeClass} (hb : b.length = headerWidth m)
    (hc : c.length = headerWidth m)
    (h : ∀ f, slice b (fieldAt f m).1 (fieldAt f m).2 = slice c (fieldAt f m).1 (fieldAt f m).2) : b = c := by
  rw [← flatMap_slice_fieldAt hb, ← flatMap_slice_fieldAt hc]
  simp only [h]

/-- What a field of a string holds fits its width. -/
theorem wireField_lt {b : List Byte} {m : SizeClass} (hb : b.length = headerWidth m) (f : WireField) :
    wireField b f m < 256 ^ (fieldAt f m).2 := by
  have hlt := beNat_lt (slice b (fieldAt f m).1 (fieldAt f m).2)
  rwa [slice_fieldAt_length hb] at hlt

theorem wireField_eq_getD {b : List Byte} {m : SizeClass} {f : WireField} {k : Nat} (hf : fieldAt f m = (k, 1))
    (hk : k < b.length) : wireField b f m = (b.getD k 0).toNat := by
  rw [wireField, hf, slice_one hk]
  simp [beNat]

/-- A field that is no wider than a register is its value there. -/
theorem toNat_ofNat_wireField {b : List Byte} {m : SizeClass} (hb : b.length = headerWidth m) (f : WireField) {w : Nat}
    (hw : 256 ^ (fieldAt f m).2 ≤ 2 ^ w) : (BitVec.ofNat w (wireField b f m)).toNat = wireField b f m := by
  rw [BitVec.toNat_ofNat, Nat.mod_eq_of_lt (lt_of_lt_of_le (wireField_lt hb f) hw)]

/-! ### What `pack` writes and `unpack` reads in a field -/

theorem beBytes_one_toNat8 (x : Byte) : beBytes 1 x.toNat = [x] := by
  rw [beBytes_one, BitVec.ofNat_toNat, BitVec.setWidth_eq]

/-- R90: `pack` stores each value big-endian in its field. -/
theorem slice_pack (h : Header) (m : SizeClass) (f : WireField) :
    slice (pack h m) (fieldAt f m).1 (fieldAt f m).2 = beBytes (fieldAt f m).2 (h.wireValue f) := by
  cases f with
  | hopLimit => cases m <;> exact (beBytes_one_toNat8 h.hopLimit).symm
  | byte1 => cases m <;> exact (beBytes_one_toNat8 (packByte1 h)).symm
  | heartRate | srcId | dstId | len | checkSum => cases m <;> rfl

theorem wireField_pack {h : Header} {m : SizeClass} (hfit : Fits h m) (f : WireField) :
    wireField (pack h m) f m = h.wireValue f := by
  rw [wireField, slice_pack, beNat_beBytes, Nat.mod_eq_of_lt (fits_iff_wireValue_lt.mp hfit f)]

theorem packByte1_unpack (b : List Byte) (m : SizeClass) : packByte1 (unpack b m) = b.getD 1 0 :=
  byte1_eq_fields (b.getD 1 0)

/-- R100: the values of the unpacked header are the fields of the string. -/
theorem wireValue_unpack {b : List Byte} {m : SizeClass} (hb : b.length = headerWidth m) (f : WireField) :
    (unpack b m).wireValue f = wireField b f m := by
  have htwo : 2 ≤ b.length := hb ▸ two_le_headerWidth m
  cases f with
  | hopLimit => exact (wireField_eq_getD (by cases m <;> rfl) (by omega)).symm
  | byte1 =>
    rw [Header.wireValue, packByte1_unpack]
    exact (wireField_eq_getD (by cases m <;> rfl) (by omega)).symm
  | heartRate | srcId | dstId | len | checkSum => exact toNat_ofNat_wireField hb _ (by cases m <;> decide)

/-! ### The two round trips -/

/-- R92: a header that fits is unpacked from its own packing. -/
theorem unpack_pack {h : Header} {m : SizeClass} (hfit : Fits h m) : unpack (pack h m) m = h :=
  Header.eq_of_wireValue_eq fun f => (wireValue_unpack (pack_length h m) f).trans (wireField_pack hfit f)

theorem pack_injective {h k : Header} {m : SizeClass} (hh : Fits h m) (hk : Fits k m) (heq : pack h m = pack k m) :
    h = k :=
  calc h = unpack (pack h m) m := (unpack_pack hh).symm
    _ = unpack (pack k m) m := by rw [heq]
    _ = k := unpack_pack hk

theorem fits_unpack {b : List Byte} {m : SizeClass} (hb : b.length = headerWidth m) : Fits (unpack b m) m :=
  fits_iff_wireValue_lt.mpr fun f => (wireValue_unpack hb f).symm ▸ wireField_lt hb f

/-- R102: a string of `HW(m)` bytes is the packing of the header it unpacks to. -/
theorem pack_unpack {b : List Byte} {m : SizeClass} (hb : b.length = headerWidth m) : pack (unpack b m) m = b := by
  refine eq_of_slice_fieldAt_eq (pack_length _ m) hb fun f => ?_
  have hbytes := beBytes_beNat (slice b (fieldAt f m).1 (fieldAt f m).2)
  rw [slice_fieldAt_length hb, ← wireField] at hbytes
  rw [slice_pack, wireValue_unpack hb, hbytes]

/-- Settles O24: the two round trips, and injectivity from the first. -/
theorem packAndUnpackAreInverse : Obligations.PackAndUnpackAreInverse := by
  unfold Obligations.PackAndUnpackAreInverse
  intro m
  exact ⟨fun h hfit => ⟨pack_length h m, unpack_pack hfit⟩, fun h k => pack_injective,
    fun b hb => ⟨fits_unpack hb, pack_unpack hb⟩⟩

end Sys2Proof.Machine
end

section
/-!
PROOFS. `HDR_PACK` (R91): its two checks in order, and what its success leaves. The zero fill of line 3 lies inside the header
that line 4 stores, so the store of the packed header is the only change of `FB`.
-/

namespace Sys2Proof.Machine

open Sys2Proof.Statement

/-! ### The checks -/

/-- R91 line 1, R101 line 3: the class check passes on the code of the class alone. -/
theorem requireClass_eq_ok_iff_cfgOf {s : State} (hcodes : CodesDistinct s) {code : BitVec 2} {m : SizeClass} :
    requireClass s.config code m = .ok () ↔ code = cfgOf s m := by
  rw [requireClass_eq_ok, classOf_eq_ok hcodes]
  cases m <;> exact Iff.rfl

theorem requireClass_of_ne_cfgOf {s : State} (hcodes : CodesDistinct s) {code : BitVec 2} {m : SizeClass}
    (h : code ≠ cfgOf s m) : requireClass s.config code m = .error .malformedHeader := by
  cases hr : requireClass s.config code m with
  | ok => exact absurd ((requireClass_eq_ok_iff_cfgOf hcodes).mp hr) h
  | error e => rw [requireClass_eq_error hr]

theorem fits_iff_idsFit_and_lenFits {h : Header} {m : SizeClass} : Fits h m ↔ h.idsFit m ∧ h.lenFits m := Iff.rfl

/-! ### The outcomes -/

/-- The cover of R91 line 3 changes `FB` and raises `FLEN`, nothing else. -/
theorem State.coverHeader_eq (s : State) (m : SizeClass) :
    s.coverHeader m = { s with fb := (s.coverHeader m).fb, flen := max s.flen (headerWidth m) } := by
  unfold State.coverHeader
  split
  case isTrue h => rw [max_eq_right h.le]; rfl
  case isFalse h => rw [max_eq_left (Nat.not_lt.mp h)]

/-- R91 lines 3 and 4 together: the packed header is stored at address 0 and every other byte reads as before. -/
theorem stores_coverHeader_fbStore (s : State) (m : SizeClass) (h : Header) :
    Stores s.fb ((s.coverHeader m).fbStore 0 (pack h m)).fb 0 (pack h m) := by
  intro a
  rw [State.storeHeader_read]
  simp

theorem exec_hdrPack (m : SizeClass) (s : State) : exec (.hdrPack m) s = execHdrPack m s := rfl

theorem exec_hdrPack_of_ne_cfgOf {m : SizeClass} {s : State} (hcodes : CodesDistinct s) (hcfg : s.hr.cfgHdr ≠ cfgOf s m) :
    exec (.hdrPack m) s = .next (s.raise false .malformedHeader) := by
  rw [exec_hdrPack, execHdrPack, requireClass_of_ne_cfgOf hcodes hcfg, error_bind, answer_error]

theorem exec_hdrPack_of_not_fits {m : SizeClass} {s : State} (hcodes : CodesDistinct s) (hcfg : s.hr.cfgHdr = cfgOf s m)
    (hfit : ¬ Fits s.hr m) : exec (.hdrPack m) s = .next (s.raise false .rangeError) := by
  rw [exec_hdrPack, execHdrPack, (requireClass_eq_ok_iff_cfgOf hcodes).mpr hcfg, ok_bind,
    raiseIf_of (mt fits_iff_idsFit_and_lenFits.mpr hfit), error_bind, answer_error]

theorem exec_hdrPack_of_fits {m : SizeClass} {s : State} (hcodes : CodesDistinct s) (hcfg : s.hr.cfgHdr = cfgOf s m)
    (hfit : Fits s.hr m) :
    exec (.hdrPack m) s =
      .next ((((s.coverHeader m).fbStore 0 (pack s.hr m)).setCkv false).succeed (BitVec.ofNat 32 (headerWidth m))) := by
  rw [exec_hdrPack, execHdrPack, (requireClass_eq_ok_iff_cfgOf hcodes).mpr hcfg, ok_bind,
    raiseIf_of_not (not_not_intro (fits_iff_idsFit_and_lenFits.mp hfit)), ok_bind, pure_eq_ok, answer_ok]

/-- Settles O25: each check of R91 that fails raises its cause, and the success stores the packed header over the covered buffer. -/
theorem hdrPackResults : Obligations.HdrPackResults := by
  unfold Obligations.HdrPackResults
  intro m s hcodes
  have hencode : encode (.hdrPack m) = word 0x10 (num m) 0 0 := by cases m <;> rfl
  refine ⟨hencode, fun hcfg => ?_, fun hcfg hfit => ?_, fun hcfg hfit => ?_⟩
  · rw [exec_hdrPack_of_ne_cfgOf hcodes hcfg, State.raise_eq_err]
    rfl
  · rw [exec_hdrPack_of_not_fits hcodes hcfg hfit, State.raise_eq_err]
    rfl
  · refine ⟨_, stores_coverHeader_fbStore s m s.hr, ?_⟩
    rw [exec_hdrPack_of_fits hcodes hcfg hfit, State.succeed_eq_ok, State.setCkv_eq_ckvTo, State.coverHeader_eq]
    rfl

end Sys2Proof.Machine
end

section
/-!
PROOFS. The layout `unpack` reads (R100). A field of one, two or four bytes is the number its bytes appended make, so a register
takes the bytes themselves where it is as wide as its field, and their zero extension where it is wider. The fields end at `HW(m)`,
so the bytes after the header are never read.
-/

namespace Sys2Proof.Machine

open Sys2Proof.Statement

/-! ### Fields of one, two and four bytes -/

theorem slice_two {b : List Byte} {k : Nat} (h : k + 1 < b.length) : slice b k 2 = [b.getD k 0, b.getD (k + 1) 0] := by
  rw [← slice_append_slice b k 1 1, slice_one (by omega), slice_one h]
  rfl

theorem slice_four {b : List Byte} {k : Nat} (h : k + 3 < b.length) :
    slice b k 4 = [b.getD k 0, b.getD (k + 1) 0, b.getD (k + 2) 0, b.getD (k + 3) 0] := by
  rw [← slice_append_slice b k 2 2, slice_two (by omega), slice_two h]
  rfl

/-- A register takes a field of one byte as its zero extension. -/
theorem ofNat_wireField_one {b : List Byte} {m : SizeClass} {k : Nat} (w : Nat) (f : WireField) (hf : fieldAt f m = (k, 1))
    (hk : k < b.length) : BitVec.ofNat w (wireField b f m) = (b.getD k 0).setWidth w := by
  rw [wireField_eq_getD hf hk, BitVec.ofNat_toNat]

theorem beNat_two (x y : Byte) : beNat [x, y] = (x ++ y).toNat := by
  rw [toNat_append_mul]
  simp [beNat]

/-- A register takes a field of two bytes as their zero extension. -/
theorem ofNat_wireField_two {b : List Byte} {m : SizeClass} {k : Nat} (w : Nat) (f : WireField) (hf : fieldAt f m = (k, 2))
    (hk : k + 1 < b.length) : BitVec.ofNat w (wireField b f m) = (b.getD k 0 ++ b.getD (k + 1) 0).setWidth w := by
  rw [wireField, hf, slice_two hk, beNat_two, BitVec.ofNat_toNat]

/-- A field of two bytes fills a register of 16 bits. -/
theorem ofNat16_wireField_two {b : List Byte} {m : SizeClass} {k : Nat} (f : WireField) (hf : fieldAt f m = (k, 2))
    (hk : k + 1 < b.length) : BitVec.ofNat 16 (wireField b f m) = b.getD k 0 ++ b.getD (k + 1) 0 := by
  rw [wireField, hf, slice_two hk, ofNat_beNat_two]

/-- A field of four bytes fills a register of 32 bits. -/
theorem ofNat32_wireField_four {b : List Byte} {m : SizeClass} {k : Nat} (f : WireField) (hf : fieldAt f m = (k, 4))
    (hk : k + 3 < b.length) :
    BitVec.ofNat 32 (wireField b f m) = b.getD k 0 ++ b.getD (k + 1) 0 ++ b.getD (k + 2) 0 ++ b.getD (k + 3) 0 := by
  rw [wireField, hf, slice_four hk, ofNat_beNat_four]

/-! ### The layout of `unpack` -/

/-- Settles O23: byte 1 is read by its bit fields in both classes, every other field by the bytes at its address. -/
theorem unpackIsTheWireLayout : Obligations.UnpackIsTheWireLayout := by
  unfold Obligations.UnpackIsTheWireLayout
  intro b
  constructor
  · intro hlen
    rw [unpack, ofNat16_wireField_two .heartRate rfl (by omega), ofNat32_wireField_four .srcId rfl (by omega),
      ofNat32_wireField_four .dstId rfl (by omega), ofNat16_wireField_two .len rfl (by omega),
      ofNat16_wireField_two .checkSum rfl (by omega)]
    rfl
  · intro hlen
    rw [unpack, ofNat_wireField_one 16 .heartRate rfl (by omega), ofNat_wireField_two 32 .srcId rfl (by omega),
      ofNat_wireField_two 32 .dstId rfl (by omega), ofNat_wireField_one 16 .len rfl (by omega),
      ofNat16_wireField_two .checkSum rfl (by omega)]
    rfl

end Sys2Proof.Machine
end

section
/-!
PROOFS. `HDR_UNPACK` (R101): its two checks in order, and what its success leaves. The discriminator the class check looks at is
that of the unpacked header, which is `cfg_hdr` of the frame, as byte 1 lies inside the header of either class.
-/

namespace Sys2Proof.Machine

open Sys2Proof.Statement

/-- R100: the discriminator of the unpacked header is `FB[1][4:3]`. -/
theorem unpack_fbBytes_cfgHdr (s : State) (m : SizeClass) : (unpack (s.fbBytes 0 (headerWidth m)) m).cfgHdr = wireCfg s := by
  have hbyte1 : (s.fbBytes 0 (headerWidth m)).getD 1 0#8 = s.fb.read 1 := s.fbBytes_getD 0 _ 1 (two_le_headerWidth m)
  rw [unpack, hbyte1]
  rfl

/-- R101 with the class check on the discriminator as it stands in the frame. -/
theorem exec_hdrUnpack (m : SizeClass) (s : State) :
    exec (.hdrUnpack m) s = answer s do
      requireHeader m s
      requireClass s.config (wireCfg s) m
      return ({ s with hr := unpack (s.fbBytes 0 (headerWidth m)) m }, 0) := by
  rw [← unpack_fbBytes_cfgHdr s m]
  rfl

theorem exec_hdrUnpack_of_flen_lt {m : SizeClass} {s : State} (hshort : s.flen < headerWidth m) :
    exec (.hdrUnpack m) s = .next (s.raise false .malformedHeader) := by
  rw [exec_hdrUnpack, requireHeader_eq_error.mpr ⟨hshort, rfl⟩, error_bind, answer_error]

theorem exec_hdrUnpack_of_ne_cfgOf {m : SizeClass} {s : State} (hcodes : CodesDistinct s) (hlen : headerWidth m ≤ s.flen)
    (hcfg : wireCfg s ≠ cfgOf s m) : exec (.hdrUnpack m) s = .next (s.raise false .malformedHeader) := by
  have hheader : requireHeader m s = .ok () := requireHeader_eq_ok.mpr hlen
  rw [exec_hdrUnpack, hheader, ok_bind, requireClass_of_ne_cfgOf hcodes hcfg, error_bind, answer_error]

theorem exec_hdrUnpack_of_eq_cfgOf {m : SizeClass} {s : State} (hcodes : CodesDistinct s) (hlen : headerWidth m ≤ s.flen)
    (hcfg : wireCfg s = cfgOf s m) :
    exec (.hdrUnpack m) s = .next ({ s with hr := unpack (s.fbBytes 0 (headerWidth m)) m }.succeed 0) := by
  have hheader : requireHeader m s = .ok () := requireHeader_eq_ok.mpr hlen
  rw [exec_hdrUnpack, hheader, ok_bind, (requireClass_eq_ok_iff_cfgOf hcodes).mpr hcfg, ok_bind, pure_eq_ok,
    answer_ok]

/-- Settles O26: each check of R101 that fails raises MalformedHeader, and the success writes `HR` alone. -/
theorem hdrUnpackResults : Obligations.HdrUnpackResults := by
  unfold Obligations.HdrUnpackResults
  intro m s hcodes
  have hencode : encode (.hdrUnpack m) = word 0x11 (num m) 0 0 := by cases m <;> rfl
  refine ⟨hencode, fun hshort => ?_, fun hlen hcfg => ?_, fun hlen hcfg => ?_⟩
  · rw [exec_hdrUnpack_of_flen_lt hshort, State.raise_eq_err]
    rfl
  · rw [exec_hdrUnpack_of_ne_cfgOf hcodes hlen hcfg, State.raise_eq_err]
    rfl
  · rw [exec_hdrUnpack_of_eq_cfgOf hcodes hlen hcfg, State.succeed_eq_ok]
    rfl

end Sys2Proof.Machine
end

section
/-!
PROOFS. The default checksum function (R112). Shifting the register with a word exclusive-ored into it is the serial register fed
the top bit of that word, the rest of the word still waiting one place higher; so eight shifts with a byte in the high half feed
the eight bits of the byte, most significant first. A byte of the sequence that changes changes the register, and no later byte
undoes that.
-/

namespace Sys2Proof.Machine

open Sys2Proof.Statement

/-! ### The serial register -/

/-- One shift feeds the serial register the top bit of the word exclusive-ored into it. -/
theorem crcShift_xor_eq_serialBit (c x : BitVec 16) : crcShift (c ^^^ x) = serialBit c x.msb ^^^ (x <<< 1) := by
  have hxor : (c ^^^ x) <<< 1 = c <<< 1 ^^^ x <<< 1 := BitVec.shiftLeft_xor_distrib ..
  unfold crcShift serialBit
  rw [BitVec.msb_xor, ← Bool.bne_eq_xor, hxor]
  split
  · rw [BitVec.xor_assoc, BitVec.xor_comm (x <<< 1), BitVec.xor_assoc]
  · rfl

/-- `n` shifts feed the serial register the top `n` bits of the word exclusive-ored into it. -/
theorem crcShift_iterate_xor (c x : BitVec 16) (n : Nat) :
    crcShift^[n] (c ^^^ x) = ((List.range n).map fun k => (x <<< k).msb).foldl serialBit c ^^^ (x <<< n) := by
  induction n with
  | zero => simp
  | succ n ih =>
    rw [Function.iterate_succ_apply', ih, crcShift_xor_eq_serialBit, List.range_succ, List.map_append, List.foldl_append,
      BitVec.shiftLeft_add]
    rfl

/-- The top bits of a register with a byte in its high half are the bits of the byte, most significant first. -/
theorem msb_highByte_shiftLeft (b : Byte) {k : Nat} (hk : k < 8) :
    ((b.setWidth 16 <<< 8) <<< k).msb = b.getLsbD (7 - k) := by
  have hplace : 15 - k - 8 = 7 - k := by omega
  have hin : ¬ 15 < k := by omega
  have hhigh : ¬ 15 - k < 8 := by omega
  simp [BitVec.msb_eq_getLsbD_last, hplace, hin, hhigh]

/-- One byte of R112 is its eight bits into the serial register. -/
theorem crcByte_eq_foldl_serialBit (c : BitVec 16) (b : Byte) :
    crcByte c b = ((List.range 8).map fun k => b.getLsbD (7 - k)).foldl serialBit c := by
  have hbits : ((List.range 8).map fun k => ((b.setWidth 16 <<< 8) <<< k).msb) =
      (List.range 8).map fun k => b.getLsbD (7 - k) :=
    List.map_congr_left fun k hk => msb_highByte_shiftLeft b (List.mem_range.mp hk)
  have hout : (b.setWidth 16 <<< 8) <<< 8 = 0#16 := by
    rw [← BitVec.shiftLeft_add, BitVec.shiftLeft_eq_zero (by decide)]
  calc crcByte c b = crcShift^[8] (c ^^^ (b.setWidth 16 <<< 8)) := rfl
    _ = ((List.range 8).map fun k => b.getLsbD (7 - k)).foldl serialBit c := by
      rw [crcShift_iterate_xor, hbits, hout, BitVec.xor_zero]

/-- Settles O27: byte by byte by `crcByte_eq_foldl_serialBit`. -/
theorem cksumIsTheSerialRegister : Obligations.CksumIsTheSerialRegister := by
  unfold Obligations.CksumIsTheSerialRegister
  intro c hc b
  rw [cksum_of_crc16 hc, crc16, bitsOf, List.foldl_flatMap]
  exact congrArg (fun f => b.foldl f 0xFFFF#16) (funext₂ crcByte_eq_foldl_serialBit)

/-! ### Single bits -/

/-- The register takes the bytes before a stored one, that byte, and the bytes after it. -/
theorem crc16_set {bytes : List Byte} {i : Nat} (hi : i < bytes.length) (b : Byte) :
    crc16 (bytes.set i b) = (bytes.drop (i + 1)).foldl crcByte (crcByte (crc16 (bytes.take i)) b) := by
  rw [List.set_eq_take_cons_drop b hi, crc16_append, List.foldl_cons]

/-- A byte that changes changes the default checksum. -/
theorem crc16_set_ne {bytes : List Byte} {i : Nat} {b : Byte} (hi : i < bytes.length) (hb : b ≠ bytes[i]) :
    crc16 (bytes.set i b) ≠ crc16 bytes := by
  intro h
  have hself := crc16_set hi bytes[i]
  rw [List.set_getElem_self] at hself
  rw [crc16_set hi, hself] at h
  exact crcByte_ne hb (foldl_crcByte_injective _ h)

theorem xor_one_shiftLeft_ne {w k : Nat} (x : BitVec w) (hk : k < w) : x ^^^ (1#w <<< k) ≠ x := by
  intro h
  have hbit := congrArg (fun y => y.getLsbD k) h
  simp [hk] at hbit

/-- The default has the last property of R110. -/
theorem crc16_detectsBitFlips : Config.DetectsBitFlips crc16 := by
  intro bytes i k hi hk
  rw [List.getD_eq_getElem _ _ hi]
  exact crc16_set_ne hi (xor_one_shiftLeft_ne _ hk)

theorem cksum_detectsBitFlips {c : Config} (h : c.checksum = .crc16 ∨ Config.DetectsBitFlips c.cksum) :
    Config.DetectsBitFlips c.cksum := by
  rcases h with hcrc | hflips
  · rw [cksum_of_crc16 hcrc]
    exact crc16_detectsBitFlips
  · exact hflips

end Sys2Proof.Machine
end

section
/-!
PROOFS. The checksum commands (R113, R114, R115): their checks in order and what each leaves. The model's checksum of the frame is
that of the region as R111 writes it, and its embedded checksum the two bytes at `CO(m)`.
-/

namespace Sys2Proof.Machine

open Sys2Proof.Statement

/-! ### The two checksums of a frame -/

theorem region_frame_eq_checked {m : SizeClass} {s : State} (hlen : headerWidth m ≤ s.flen) :
    region m s.frame = checked m s := by
  have hco := checksumOffset_add_two m
  have hflen : s.flen = checksumOffset m + 2 + (s.flen - headerWidth m) := by omega
  have hframe : s.frame = s.fbBytes 0 (checksumOffset m) ++ s.fbBytes (checksumOffset m) 2 ++
      s.fbBytes (headerWidth m) (s.flen - headerWidth m) := by
    rw [State.frame, hflen, State.fbBytes_append, State.fbBytes_append]
    simp [hco]
  rw [region, hframe, List.drop_left' (by simp), List.append_assoc, List.take_left' (by simp)]
  rfl

theorem State.computedChecksum_eq {m : SizeClass} {s : State} (hlen : headerWidth m ≤ s.flen) :
    s.computedChecksum m = s.config.cksum (checked m s) := by
  rw [State.computedChecksum, region_frame_eq_checked hlen]

theorem State.storedChecksum_eq_embedded (s : State) (m : SizeClass) : s.storedChecksum m = embedded m s :=
  s.storedChecksum_eq m

/-! ### The outcomes -/

section
variable {m : SizeClass} {s : State}

/-- The header check, which all three commands make first. -/
theorem answer_requireHeader_of_flen_lt (hshort : s.flen < headerWidth m) (f : Unit → Result) :
    answer s (requireHeader m s >>= f) = .next (err s 0x01) := by
  rw [requireHeader_eq_error.mpr ⟨hshort, rfl⟩, error_bind, answer_error, State.raise_eq_err]
  rfl

theorem answer_requireHeader_of_le_flen (hlen : headerWidth m ≤ s.flen) (f : Unit → Result) :
    answer s (requireHeader m s >>= f) = answer s (f ()) := by
  rw [(requireHeader_eq_ok.mpr hlen : requireHeader m s = .ok ()), ok_bind]

theorem exec_cksumCompute_of_le_flen (hlen : headerWidth m ≤ s.flen) :
    exec (.cksumCompute m) s = .next (ok s ((s.config.cksum (checked m s)).setWidth 32)) := by
  have hexec : exec (.cksumCompute m) s = answer s (.ok (s, (s.computedChecksum m).setWidth 32)) :=
    answer_requireHeader_of_le_flen hlen _
  rw [hexec, answer_ok, State.succeed_eq_ok, State.computedChecksum_eq hlen]

theorem exec_cksumVerify_of_le_flen (hlen : headerWidth m ≤ s.flen) :
    exec (.cksumVerify m) s = answer s do
      raiseIf (s.config.cksum (checked m s) ≠ embedded m s) .checksumMismatch
      return (s.setCkv true, 1) := by
  rw [← State.computedChecksum_eq hlen, ← State.storedChecksum_eq_embedded]
  exact answer_requireHeader_of_le_flen hlen _

theorem exec_cksumVerify_of_eq (hlen : headerWidth m ≤ s.flen) (heq : s.config.cksum (checked m s) = embedded m s) :
    exec (.cksumVerify m) s = .next (ok (ckvTo s true) 1) := by
  rw [exec_cksumVerify_of_le_flen hlen, raiseIf_of_not (not_not_intro heq), ok_bind, pure_eq_ok, answer_ok,
    State.succeed_eq_ok, State.setCkv_eq_ckvTo]

theorem exec_cksumVerify_of_ne (hlen : headerWidth m ≤ s.flen) (hne : s.config.cksum (checked m s) ≠ embedded m s) :
    exec (.cksumVerify m) s = .next (err s 0x03) := by
  rw [exec_cksumVerify_of_le_flen hlen, raiseIf_of hne, error_bind, answer_error, State.raise_eq_err]
  rfl

theorem exec_cksumStamp_of_le_flen (hlen : headerWidth m ≤ s.flen) :
    exec (.cksumStamp m) s =
      .next (ok (ckvTo (s.writeField .checkSum m (s.config.cksum (checked m s)).toNat) true)
        ((s.config.cksum (checked m s)).setWidth 32)) := by
  have hexec : exec (.cksumStamp m) s = answer s
      (.ok ((s.writeField .checkSum m (s.computedChecksum m).toNat).setCkv true, (s.computedChecksum m).setWidth 32)) :=
    answer_requireHeader_of_le_flen hlen _
  rw [hexec, answer_ok, State.succeed_eq_ok, State.setCkv_eq_ckvTo, State.computedChecksum_eq hlen]

/-- The success of `CKSUM_VERIFY` says that the embedded checksum is right. -/
theorem cksum_eq_embedded_of_exec_cksumVerify (hlen : headerWidth m ≤ s.flen)
    (hexec : exec (.cksumVerify m) s = .next (ok (ckvTo s true) 1)) : s.config.cksum (checked m s) = embedded m s := by
  by_contra hne
  rw [exec_cksumVerify_of_ne hlen hne, Host.Outcome.next.injEq] at hexec
  have hckv : (err s 0x03).status.ckv = true := by rw [hexec]; rfl
  simp [err, causeOf] at hckv

end

/-- R114 line 3: the checksum field is written as the two bytes at `CO(m)`, the high one first. -/
theorem State.writeField_checkSum (s : State) (m : SizeClass) (c : BitVec 16) :
    s.writeField .checkSum m c.toNat =
      { s with fb := s.fb.writeBytes (checksumOffset m) [c.extractLsb' 8 8, c.extractLsb' 0 8] } := by
  rw [State.writeField, fieldAt_checkSum, State.memWrite, beBytes_two_toNat16, State.fbStore]

/-- Settles O29: each check of R113 and R115 that fails raises its cause, and no success writes `FB`. -/
theorem cksumComputeAndVerifyResults : Obligations.CksumComputeAndVerifyResults := by
  unfold Obligations.CksumComputeAndVerifyResults
  intro m s
  have hcompute : encode (.cksumCompute m) = word 0x20 (num m) 0 0 := by cases m <;> rfl
  have hverify : encode (.cksumVerify m) = word 0x22 (num m) 0 0 := by cases m <;> rfl
  refine ⟨hcompute, hverify, fun hshort => ⟨?_, ?_⟩, exec_cksumCompute_of_le_flen, exec_cksumVerify_of_eq,
    exec_cksumVerify_of_ne⟩
  · exact answer_requireHeader_of_flen_lt hshort _
  · exact answer_requireHeader_of_flen_lt hshort _

/-- Settles O30: the header check of R114, and the store of the two checksum bytes. -/
theorem cksumStampResults : Obligations.CksumStampResults := by
  unfold Obligations.CksumStampResults
  intro m s
  have hencode : encode (.cksumStamp m) = word 0x21 (num m) 0 0 := by cases m <;> rfl
  refine ⟨hencode, fun hshort => ?_, fun hlen => ⟨_, stores_writeBytes s.fb _ _, ?_⟩⟩
  · exact answer_requireHeader_of_flen_lt hshort _
  · rw [exec_cksumStamp_of_le_flen hlen, State.writeField_checkSum]

end Sys2Proof.Machine
end

section
/-!
PROOFS. Single bit flips of a frame (R116). A byte outside the checksum field has its place in the region, so a flip there is a flip
of one bit of the region, which changes the computed checksum and leaves the embedded one; a flip inside the field does the
reverse.
-/

namespace Sys2Proof.Machine

open Sys2Proof.Statement

/-! ### One byte stored -/

theorem read_of_stores_singleton {before after : Memory} {a : Nat} {b : Byte} (h : Stores before after a [b]) (x : Nat) :
    after.read x = if x = a then b else before.read x := by
  rw [h x]
  by_cases hx : x = a
  · simp [hx]
  · rw [if_neg hx, if_neg (by rw [List.length_singleton]; omega)]

theorem State.frame_of_stores_singleton {s : State} {mem : Memory} {a : Nat} {b : Byte} (h : Stores s.fb mem a [b]) :
    State.frame { s with fb := mem } = s.frame.set a b := by
  refine List.ext_getElem (by simp) fun x hx _ => ?_
  rw [State.frame_getElem, List.getElem_set, read_of_stores_singleton h, State.frame_getElem]
  simp only [eq_comm]

/-- A byte of the frame outside the checksum field has a place in the region (R111). -/
theorem exists_region_set {m : SizeClass} {frame : List Byte} {a : Nat} (ha : a < frame.length)
    (hhigh : a ≠ checksumOffset m) (hlow : a ≠ checksumOffset m + 1) :
    ∃ i, i < (region m frame).length ∧ ∀ b, region m (frame.set a b) = (region m frame).set i b := by
  unfold region
  rcases Nat.lt_or_gt_of_ne hhigh with hbefore | hafter
  · refine ⟨a, by simp; omega, fun b => ?_⟩
    rw [List.take_set, List.drop_set_of_lt (by omega), List.set_append_left _ _ (by simp; omega)]
  · refine ⟨a - 2, by simp; omega, fun b => ?_⟩
    have hplace : a - 2 - (frame.take (checksumOffset m)).length = a - (checksumOffset m + 2) := by simp; omega
    rw [List.take_set_of_le (by omega), List.drop_set, if_neg (by omega), List.set_append_right _ _ (by simp; omega),
      hplace]

/-- A change of a byte outside the checksum field is the same change of a byte of the region. -/
theorem exists_region_set_xor {m : SizeClass} {frame : List Byte} {a : Nat} (ha : a < frame.length)
    (hhigh : a ≠ checksumOffset m) (hlow : a ≠ checksumOffset m + 1) (x : Byte) :
    ∃ i, i < (region m frame).length ∧
      region m (frame.set a (frame[a] ^^^ x)) = (region m frame).set i ((region m frame).getD i 0 ^^^ x) := by
  obtain ⟨i, hi, hset⟩ := exists_region_set ha hhigh hlow
  have hbyte : (region m frame)[i] = frame[a] := by
    have hself : (region m frame).set i frame[a] = region m frame := by rw [← hset, List.set_getElem_self]
    rw [← List.getElem_of_eq hself (by simpa using hi), List.getElem_set_self]
  exact ⟨i, hi, by rw [hset, List.getD_eq_getElem _ _ hi, hbyte]⟩

/-! ### One bit flipped -/

section
variable {m : SizeClass} {s : State} {mem : Memory} {a k : Nat}

/-- A flip outside the checksum field changes the computed checksum. -/
theorem cksum_checked_ne_of_flip (hflips : Config.DetectsBitFlips s.config.cksum) (hlen : headerWidth m ≤ s.flen)
    (ha : a < s.flen) (hk : k < 8) (hstore : Stores s.fb mem a [s.fb.read a ^^^ (1#8 <<< k)])
    (hhigh : a ≠ checksumOffset m) (hlow : a ≠ checksumOffset m + 1) :
    s.config.cksum (checked m { s with fb := mem }) ≠ s.config.cksum (checked m s) := by
  have hframe : a < s.frame.length := by simpa using ha
  obtain ⟨i, hi, hset⟩ := exists_region_set_xor hframe hhigh hlow (1#8 <<< k)
  rw [← region_frame_eq_checked hlen, ← region_frame_eq_checked (s := { s with fb := mem }) hlen,
    State.frame_of_stores_singleton hstore, ← s.frame_getElem a hframe, hset]
  exact hflips _ i k hi hk

/-- A store outside the checksum field leaves the embedded checksum. -/
theorem embedded_of_stores_outside {b : Byte} (hstore : Stores s.fb mem a [b])
    (hhigh : a ≠ checksumOffset m) (hlow : a ≠ checksumOffset m + 1) : embedded m { s with fb := mem } = embedded m s := by
  unfold embedded
  rw [read_of_stores_singleton hstore, read_of_stores_singleton hstore, if_neg hhigh.symm, if_neg hlow.symm]

/-- A store inside the checksum field leaves the computed checksum. -/
theorem cksum_checked_of_stores_inside {b : Byte} (hlen : headerWidth m ≤ s.flen) (hstore : Stores s.fb mem a [b])
    (hin : a = checksumOffset m ∨ a = checksumOffset m + 1) :
    s.config.cksum (checked m { s with fb := mem }) = s.config.cksum (checked m s) := by
  have hcongr : State.computedChecksum { s with fb := mem } m = s.computedChecksum m :=
    State.computedChecksum_congr rfl rfl fun x _ hhigh hlow => by
      rw [read_of_stores_singleton hstore, if_neg (by omega)]
  rwa [State.computedChecksum_eq (s := { s with fb := mem }) hlen, State.computedChecksum_eq hlen] at hcongr

/-- A store of another byte inside the checksum field changes the embedded checksum. -/
theorem embedded_ne_of_stores_inside {b : Byte} (hb : b ≠ s.fb.read a) (hstore : Stores s.fb mem a [b])
    (hin : a = checksumOffset m ∨ a = checksumOffset m + 1) : embedded m { s with fb := mem } ≠ embedded m s := by
  intro h
  obtain ⟨hhigh, hlow⟩ := bitVec_append_eq_append_iff.mp h
  have hsame : mem.read a = s.fb.read a := by
    rcases hin with rfl | rfl
    · exact hhigh
    · exact hlow
  rw [read_of_stores_singleton hstore, if_pos rfl] at hsame
  exact hb hsame

end

/-- Settles O32: outside the checksum field the computed checksum changes and the embedded one stays, inside it is the reverse, so
where they agreed they no longer do. -/
theorem singleBitFlipIsDetected : Obligations.SingleBitFlipIsDetected := by
  unfold Obligations.SingleBitFlipIsDetected
  intro m s mem a k hcksum hlen ha hk hstore
  have hflips := cksum_detectsBitFlips hcksum
  refine ⟨cksum_checked_ne_of_flip hflips hlen ha hk hstore, fun hverify => exec_cksumVerify_of_ne hlen ?_⟩
  have heq := cksum_eq_embedded_of_exec_cksumVerify hlen hverify
  by_cases hin : a = checksumOffset m ∨ a = checksumOffset m + 1
  · rw [cksum_checked_of_stores_inside hlen hstore hin, heq]
    exact (embedded_ne_of_stores_inside (xor_one_shiftLeft_ne _ hk) hstore hin).symm
  · obtain ⟨hhigh, hlow⟩ := not_or.mp hin
    rw [embedded_of_stores_outside hstore hhigh hlow, ← heq]
    exact cksum_checked_ne_of_flip hflips hlen ha hk hstore hhigh hlow

end Sys2Proof.Machine
end

section
/-!
PROOFS. `parse` and the block walk (R134). The key facts are the outcomes of one turn of the loop, one for each way the walk goes on
or ends, in the walk's terms. The loop is then the walk as long as its fuel covers the bytes left, which it always does, as each
turn passes a sub-header.
-/

namespace Sys2Proof.Machine

open Sys2Proof.Statement

/-! ### The fields of a sub-header -/

theorem beNat_one (x : Byte) : beNat [x] = x.toNat := by simp [beNat]

theorem beNat_two_eq_add (x y : Byte) : beNat [x, y] = x.toNat * 256 + y.toNat := by simp [beNat]

section
variable {m : SizeClass} {p : List Byte} {o : Nat}

theorem beNat_slice_type (h : o + subHeaderWidth m ≤ p.length) : beNat (slice p o (blockTypeWidth m)) = typeAt p o m := by
  cases m with
  | full =>
    simp only [subHeaderWidth] at h
    rw [blockTypeWidth, slice_two (by omega), beNat_two_eq_add, typeAt]
  | micro =>
    simp only [subHeaderWidth] at h
    rw [blockTypeWidth, slice_one (by omega), beNat_one, typeAt]

theorem beNat_slice_len (h : o + subHeaderWidth m ≤ p.length) :
    beNat (slice p (o + blockTypeWidth m) (blockLenWidth m)) = lenAt p o m := by
  cases m with
  | full =>
    simp only [subHeaderWidth] at h
    rw [blockTypeWidth, blockLenWidth, slice_two (by omega), beNat_two_eq_add, lenAt]
  | micro =>
    simp only [subHeaderWidth] at h
    rw [blockTypeWidth, blockLenWidth, slice_one (by omega), beNat_one, lenAt]

theorem beNat_slice_next (h : o + subHeaderWidth .full ≤ p.length) : beNat (slice p (o + 4) 2) = nextAt p o := by
  simp only [subHeaderWidth] at h
  rw [slice_two (by omega), beNat_two_eq_add, nextAt]

end

/-! ### One turn of the loop -/

/-- The block whose sub-header stands at offset `o` of a payload region. -/
def wireBlock (m : SizeClass) (p : List Byte) (o : Nat) : Block :=
  { type := BitVec.ofNat 16 (typeAt p o m), data := slice p (o + subHeaderWidth m) (lenAt p o m) }

theorem wireBlock_data_length {m : SizeClass} {p : List Byte} {o : Nat} (h : endAt p o m ≤ p.length) :
    (wireBlock m p o).data.length = lenAt p o m := slice_length h

theorem subHeader_le_endAt (p : List Byte) (o : Nat) (m : SizeClass) : o + subHeaderWidth m ≤ endAt p o m :=
  Nat.le_add_right _ _

/-- Each turn moves on. -/
theorem lt_endAt (p : List Byte) (o : Nat) (m : SizeClass) : o < endAt p o m := by
  have hsub := subHeader_le_endAt p o m
  have htwo := two_le_subHeaderWidth m
  omega

section
variable {c : Config} {m : SizeClass} {p : List Byte} {o total count : Nat}

theorem chainFull_iff : ChainFull c p o total count m ↔ count = c.nblkMax ∨ c.bcDataMax < total + lenAt p o m := Iff.rfl

/-- The loop's check 3 is that of the walk. -/
theorem next_check_iff (hend : endAt p o m ≤ p.length) :
    (m = .full ∧ beNat (slice p (o + 4) 2) ≠ if endAt p o m < p.length then endAt p o m else 0) ↔
      ¬ NextCanonical p o m := by
  rw [NextCanonical, Classical.not_imp]
  refine and_congr_right ?_
  rintro rfl
  rw [beNat_slice_next ((subHeader_le_endAt p o .full).trans hend)]

theorem parseBlock_of_cut (hcut : p.length < o + subHeaderWidth m) :
    parseBlock c m p o total count = .error .truncatedBlock := by
  rw [parseBlock, raiseIf_of hcut, error_bind]

theorem parseBlock_of_overrun (hsub : o + subHeaderWidth m ≤ p.length) (hover : p.length < endAt p o m) :
    parseBlock c m p o total count = .error .truncatedBlock := by
  rw [parseBlock, raiseIf_of_not (Nat.not_lt.mpr hsub), ok_bind, beNat_slice_len hsub]
  exact congrArg (· >>= _) (raiseIf_of hover)

/-- A turn that passes checks 1 and 2. -/
theorem parseBlock_of_endAt_le (hend : endAt p o m ≤ p.length) :
    parseBlock c m p o total count = do
      raiseIf (m = .full ∧ beNat (slice p (o + 4) 2) ≠ if endAt p o m < p.length then endAt p o m else 0) .malformedPayload
      raiseIf (count = c.nblkMax ∨ c.bcDataMax < total + lenAt p o m) .rangeError
      return wireBlock m p o := by
  have hsub : o + subHeaderWidth m ≤ p.length := (subHeader_le_endAt p o m).trans hend
  rw [parseBlock, raiseIf_of_not (Nat.not_lt.mpr hsub), ok_bind, beNat_slice_len hsub, beNat_slice_type hsub]
  exact congrArg (· >>= _) (raiseIf_of_not (Nat.not_lt.mpr hend))

theorem parseBlock_of_not_nextCanonical (hend : endAt p o m ≤ p.length) (hnext : ¬ NextCanonical p o m) :
    parseBlock c m p o total count = .error .malformedPayload := by
  rw [parseBlock_of_endAt_le hend, raiseIf_of ((next_check_iff hend).mpr hnext), error_bind]

theorem parseBlock_of_chainFull (hend : endAt p o m ≤ p.length) (hnext : NextCanonical p o m)
    (hfull : ChainFull c p o total count m) : parseBlock c m p o total count = .error .rangeError := by
  rw [parseBlock_of_endAt_le hend, raiseIf_of_not ((next_check_iff hend).not.mpr (not_not_intro hnext)), ok_bind,
    raiseIf_of (chainFull_iff.mp hfull), error_bind]

/-- A turn that passes every check finds the block. -/
theorem parseBlock_of_passes (hend : endAt p o m ≤ p.length) (hnext : NextCanonical p o m)
    (hfull : ¬ ChainFull c p o total count m) : parseBlock c m p o total count = .ok (wireBlock m p o) := by
  rw [parseBlock_of_endAt_le hend, raiseIf_of_not ((next_check_iff hend).not.mpr (not_not_intro hnext)), ok_bind,
    raiseIf_of_not (chainFull_iff.not.mp hfull), ok_bind, pure_eq_ok]

end

/-! ### The loop and the walk -/

section
variable {c : Config} {m : SizeClass} {p : List Byte} {o total fuel : Nat} {out : List Block}

/-- A turn that fails a check ends the loop. -/
theorem parseFrom_of_parseBlock_eq_error {e : Cause} (ho : o < p.length) (hfuel : p.length ≤ o + fuel)
    (hblock : parseBlock c m p o total out.length = .error e) : parseFrom c m p fuel o total out = .error e := by
  obtain ⟨n, rfl⟩ : ∃ n, fuel = n + 1 := Nat.exists_eq_succ_of_ne_zero (by omega)
  rw [parseFrom_of_lt ho, hblock, error_bind]

/-- A turn that passes every check goes on at the end of its block. -/
theorem parseFrom_of_passes (ho : o < p.length) (hend : endAt p o m ≤ p.length)
    (hnext : NextCanonical p o m) (hfull : ¬ ChainFull c p o total out.length m) :
    parseFrom c m p (fuel + 1) o total out =
      parseFrom c m p fuel (endAt p o m) (total + lenAt p o m) (out ++ [wireBlock m p o]) := by
  rw [parseFrom_of_lt ho, parseBlock_of_passes hend hnext hfull, ok_bind, wireBlock_data_length hend, endAt]

end

/-- The loop ends as the walk does, where its fuel covers the bytes left. -/
theorem parseFrom_of_walk {c : Config} {m : SizeClass} {p : List Byte} {o total : Nat} {out : List Block}
    {r : Except Cause (List Block)} (h : Walk c m p o total out r) :
    ∀ {fuel}, p.length ≤ o + fuel → parseFrom c m p fuel o total out = r := by
  induction h with
  | done hdone => exact fun _ => parseFrom_of_le hdone _ _ _
  | cut ho hcut => exact fun hfuel => parseFrom_of_parseBlock_eq_error ho hfuel (parseBlock_of_cut hcut)
  | overrun ho hsub hover =>
    exact fun hfuel => parseFrom_of_parseBlock_eq_error ho hfuel (parseBlock_of_overrun hsub hover)
  | badNext ho hend hnext =>
    exact fun hfuel => parseFrom_of_parseBlock_eq_error ho hfuel (parseBlock_of_not_nextCanonical hend hnext)
  | full ho hend hnext hfull =>
    exact fun hfuel => parseFrom_of_parseBlock_eq_error ho hfuel (parseBlock_of_chainFull hend hnext hfull)
  | @block o _ _ _ ho hend hnext hfull _ ih =>
    intro fuel hfuel
    obtain ⟨n, rfl⟩ : ∃ n, fuel = n + 1 := Nat.exists_eq_succ_of_ne_zero (by omega)
    have hmove := lt_endAt p o m
    rw [parseFrom_of_passes ho hend hnext hfull]
    exact ih (by omega)

/-- The walk ends, and as the loop does, where the fuel covers the bytes left. -/
theorem walk_parseFrom (c : Config) (m : SizeClass) (p : List Byte) : ∀ {fuel o total : Nat} {out : List Block},
    p.length ≤ o + fuel → Walk c m p o total out (parseFrom c m p fuel o total out) := by
  intro fuel
  induction fuel with
  | zero =>
    intro o total out hfuel
    exact .done hfuel
  | succ n ih =>
    intro o total out hfuel
    by_cases hdone : p.length ≤ o
    · rw [parseFrom_of_le hdone]
      exact .done hdone
    have ho : o < p.length := Nat.not_le.mp hdone
    by_cases hcut : p.length < o + subHeaderWidth m
    · rw [parseFrom_of_parseBlock_eq_error ho hfuel (parseBlock_of_cut hcut)]
      exact .cut ho hcut
    have hsub : o + subHeaderWidth m ≤ p.length := Nat.not_lt.mp hcut
    by_cases hover : p.length < endAt p o m
    · rw [parseFrom_of_parseBlock_eq_error ho hfuel (parseBlock_of_overrun hsub hover)]
      exact .overrun ho hsub hover
    have hend : endAt p o m ≤ p.length := Nat.not_lt.mp hover
    by_cases hnext : NextCanonical p o m
    case neg =>
      rw [parseFrom_of_parseBlock_eq_error ho hfuel (parseBlock_of_not_nextCanonical hend hnext)]
      exact .badNext ho hend hnext
    by_cases hfull : ChainFull c p o total out.length m
    · rw [parseFrom_of_parseBlock_eq_error ho hfuel (parseBlock_of_chainFull hend hnext hfull)]
      exact .full ho hend hnext hfull
    · have hmove := lt_endAt p o m
      rw [parseFrom_of_passes ho hend hnext hfull]
      exact .block ho hend hnext hfull (ih (by omega))

/-- Settles O36: the walk ends as `parse` does by `walk_parseFrom`, and `parse` as the walk does by `parseFrom_of_walk`; the fuel
of `parse` is the length of the region. -/
theorem parseIsTheBlockWalk : Obligations.ParseIsTheBlockWalk := by
  unfold Obligations.ParseIsTheBlockWalk
  intro c m p r
  have hfuel : p.length ≤ 0 + p.length := by omega
  constructor
  · rintro rfl
    exact walk_parseFrom c m p hfuel
  · exact fun h => parseFrom_of_walk h hfuel

end Sys2Proof.Machine
end
section
/-!
PROOFS. `ser` and `parse` as inverses of each other (R136). The sub-header at an offset of a region is the serialization of its three
numbers, and a sub-header is determined by the numbers it serializes. So a block that passes the walk's checks stands there as `ser`
writes it, its `next` by check 3 (R52), and a block that `ser` wrote is found again and passes the checks. Both directions are then an
induction, over the walk and over the chain, whose invariant is that what is left of the region is the serialization of what is
left of the chain.
-/

namespace Sys2Proof.Machine

open Sys2Proof.Statement

/-! ### A sub-header and its numbers -/

theorem beBytes_injective {n v w : Nat} (hv : v < 256 ^ n) (hw : w < 256 ^ n) (h : beBytes n v = beBytes n w) : v = w := by
  rw [← Nat.mod_eq_of_lt hv, ← Nat.mod_eq_of_lt hw, ← beNat_beBytes, ← beNat_beBytes, h]

theorem beBytes_beNat_of_length {bs : List Byte} {n : Nat} (h : bs.length = n) : beBytes n (beNat bs) = bs := by
  rw [← h, beBytes_beNat]

/-- The wire width of a block's `next` in bytes (R50, R51): the micro class has none. -/
def blockNextWidth : SizeClass → Nat
  | .full => 2
  | .micro => 0

theorem blockWidths_eq (m : SizeClass) : blockTypeWidth m + (blockLenWidth m + blockNextWidth m) = subHeaderWidth m := by
  cases m <;> rfl

/-- A sub-header by its three numbers (R50, R51). -/
def subHeaderOf (m : SizeClass) (type len next : Nat) : List Byte :=
  beBytes (blockTypeWidth m) type ++ beBytes (blockLenWidth m) len ++ beBytes (blockNextWidth m) next

theorem subHeader_eq_subHeaderOf (m : SizeClass) (b : Block) (next : Nat) :
    subHeader m b next = subHeaderOf m b.type.toNat b.data.length next := by
  cases m <;> rfl

/-- A sub-header determines the numbers that fit it. -/
theorem subHeaderOf_injective {m : SizeClass} {t l n t' l' n' : Nat} (ht : t < 256 ^ blockTypeWidth m)
    (ht' : t' < 256 ^ blockTypeWidth m) (hl : l < 256 ^ blockLenWidth m) (hl' : l' < 256 ^ blockLenWidth m)
    (h : subHeaderOf m t l n = subHeaderOf m t' l' n') :
    t = t' ∧ l = l' ∧ beBytes (blockNextWidth m) n = beBytes (blockNextWidth m) n' := by
  obtain ⟨hnumbers, hnext⟩ := List.append_inj h (by simp)
  obtain ⟨htype, hlen⟩ := List.append_inj hnumbers (by simp)
  exact ⟨beBytes_injective ht ht' htype, beBytes_injective hl hl' hlen, hnext⟩

theorem byte_pair_lt (x y : Byte) : x.toNat * 256 + y.toNat < 256 ^ 2 := by
  rw [← beNat_two_eq_add]
  exact beNat_lt [x, y]

section
variable {m : SizeClass} {p : List Byte} {o : Nat}

theorem typeAt_lt (p : List Byte) (o : Nat) (m : SizeClass) : typeAt p o m < 256 ^ blockTypeWidth m := by
  cases m with
  | full => exact byte_pair_lt (p.getD o 0) (p.getD (o + 1) 0)
  | micro => exact (p.getD o 0).isLt

theorem lenAt_lt (p : List Byte) (o : Nat) (m : SizeClass) : lenAt p o m < 256 ^ blockLenWidth m := by
  cases m with
  | full => exact byte_pair_lt (p.getD (o + 2) 0) (p.getD (o + 3) 0)
  | micro => exact (p.getD (o + 1) 0).isLt

theorem nextAt_lt (p : List Byte) (o : Nat) : nextAt p o < 256 ^ 2 :=
  byte_pair_lt (p.getD (o + 4) 0) (p.getD (o + 5) 0)

theorem slice_next (h : o + subHeaderWidth m ≤ p.length) :
    slice p (o + blockTypeWidth m + blockLenWidth m) (blockNextWidth m) = beBytes (blockNextWidth m) (nextAt p o) := by
  cases m with
  | full =>
    rw [← beNat_slice_next h]
    exact (beBytes_beNat_of_length (slice_length (o := o + 4) (n := 2) h)).symm
  | micro => rfl

/-- The sub-header at an offset is that of the numbers it holds. -/
theorem slice_eq_subHeaderOf (h : o + subHeaderWidth m ≤ p.length) :
    slice p o (subHeaderWidth m) = subHeaderOf m (typeAt p o m) (lenAt p o m) (nextAt p o) := by
  have hwidths := blockWidths_eq m
  rw [subHeaderOf, ← beNat_slice_type h, ← beNat_slice_len h, ← slice_next h,
    beBytes_beNat_of_length (slice_length (by omega)), beBytes_beNat_of_length (slice_length (by omega)),
    List.append_assoc, slice_append_slice, slice_append_slice, hwidths]

theorem toNat_wireBlock_type (m : SizeClass) (p : List Byte) (o : Nat) : (wireBlock m p o).type.toNat = typeAt p o m := by
  have hlt := typeAt_lt p o m
  have hwidth : 256 ^ blockTypeWidth m ≤ 2 ^ 16 := by cases m <;> decide
  rw [wireBlock, BitVec.toNat_ofNat, Nat.mod_eq_of_lt (by omega)]

/-! ### One block of a region -/

/-- R52: the `next` of a block that ends at `e`. -/
def canonicalNext (p : List Byte) (e : Nat) : Nat := if e < p.length then e else 0

theorem nextCanonical_iff : NextCanonical p o m ↔ (m = .full → nextAt p o = canonicalNext p (endAt p o m)) := Iff.rfl

theorem canonicalNext_le_length (p : List Byte) (e : Nat) : canonicalNext p e ≤ p.length := by
  unfold canonicalNext
  split <;> omega

/-- A block that passes checks 1 to 3 stands in the region as `ser` writes it. -/
theorem slice_eq_subHeader_wireBlock (hend : endAt p o m ≤ p.length) (hnext : NextCanonical p o m) :
    slice p o (subHeaderWidth m) = subHeader m (wireBlock m p o) (canonicalNext p (endAt p o m)) := by
  rw [slice_eq_subHeaderOf ((subHeader_le_endAt p o m).trans hend), subHeader_eq_subHeaderOf, toNat_wireBlock_type,
    wireBlock_data_length hend]
  cases m with
  | full => rw [nextCanonical_iff.mp hnext rfl]
  | micro => rfl

/-- R133 line 1, in the widths of the sub-header: the numbers of the block fit it. -/
def Block.FitsSubHeader (b : Block) (m : SizeClass) : Prop :=
  b.type.toNat < 256 ^ blockTypeWidth m ∧ b.data.length < 256 ^ blockLenWidth m

/-- A block that stands in the region as `ser` writes it is found and passes checks 2 and 3. -/
theorem wireBlock_of_drop_eq {b : Block} {rest : List Byte} (hfit : b.FitsSubHeader m)
    (hlen : p.length < 256 ^ 2) (hend : o + subHeaderWidth m + b.data.length ≤ p.length)
    (hdrop : p.drop o = subHeader m b (canonicalNext p (o + subHeaderWidth m + b.data.length)) ++ b.data ++ rest) :
    wireBlock m p o = b ∧ endAt p o m ≤ p.length ∧ NextCanonical p o m := by
  have hsub : slice p o (subHeaderWidth m) =
      subHeader m b (canonicalNext p (o + subHeaderWidth m + b.data.length)) := by
    rw [slice, hdrop, List.append_assoc, List.take_left' (subHeader_length _ _ _)]
  rw [slice_eq_subHeaderOf (by omega), subHeader_eq_subHeaderOf] at hsub
  obtain ⟨htype, hlenAt, hnext⟩ := subHeaderOf_injective (typeAt_lt p o m) hfit.1 (lenAt_lt p o m) hfit.2 hsub
  have hdata : slice p (o + subHeaderWidth m) b.data.length = b.data := by
    rw [slice, ← List.drop_drop, hdrop, List.append_assoc, List.drop_left' (subHeader_length _ _ _), List.take_left]
  rw [← hlenAt] at hend hnext
  refine ⟨?_, hend, ?_⟩
  · rw [wireBlock, htype, hlenAt, hdata, BitVec.ofNat_toNat, BitVec.setWidth_eq]
  · rintro rfl
    exact beBytes_injective (nextAt_lt p o) ((canonicalNext_le_length p _).trans_lt hlen) hnext

end

/-! ### The rest of a region and the rest of a chain -/

/-- The canonical `next` (R52) is the one `ser` writes: the chain goes on exactly where the region does. -/
theorem canonicalNext_eq {m : SizeClass} {p : List Byte} {e : Nat} {rest : List Block} (hend : e ≤ p.length)
    (hrest : p.drop e = serFrom m e rest) : canonicalNext p e = if rest.isEmpty then 0 else e := by
  have hleft : p.length - e = payloadLength m rest := by rw [← List.length_drop, hrest, serFrom_length]
  cases rest with
  | nil =>
    rw [payloadLength_nil] at hleft
    exact if_neg (by omega)
  | cons a more =>
    have htwo := two_le_subHeaderWidth m
    rw [payloadLength_cons] at hleft
    exact if_pos (by omega)

/-- What `ser` writes of a chain: the first block with its canonical `next`, then what is left of the region. -/
theorem serFrom_cons_eq {m : SizeClass} {p : List Byte} {o e : Nat} {b : Block} {rest : List Block}
    (he : o + subHeaderWidth m + b.data.length = e) (hend : e ≤ p.length) (hrest : p.drop e = serFrom m e rest) :
    serFrom m o (b :: rest) = subHeader m b (canonicalNext p e) ++ b.data ++ p.drop e := by
  rw [serFrom, he, canonicalNext_eq hend hrest, hrest]

/-- Past its first block a serialized chain is that of its other blocks. -/
theorem drop_eq_serFrom_tail {m : SizeClass} {p : List Byte} {o e : Nat} {b : Block} {rest : List Block}
    (he : o + subHeaderWidth m + b.data.length = e) (hdrop : p.drop o = serFrom m o (b :: rest)) :
    e ≤ p.length ∧ p.drop e = serFrom m e rest := by
  have hleft := congrArg List.length hdrop
  have htwo := two_le_subHeaderWidth m
  rw [List.length_drop, serFrom_length, payloadLength_cons] at hleft
  refine ⟨by omega, ?_⟩
  rw [← he, Nat.add_assoc, ← List.drop_drop, hdrop, serFrom, List.drop_left' (by simp), Nat.add_assoc]

theorem not_chainFull_of_chainFits {c : Config} {m : SizeClass} {p : List Byte} {o : Nat} {out rest : List Block} {b : Block}
    (hlen : lenAt p o m = b.data.length) (hchain : ChainFits c (out ++ b :: rest)) :
    ¬ ChainFull c p o (dataTotal out) out.length m := by
  obtain ⟨hcount, htotal⟩ := hchain
  rw [List.length_append, List.length_cons] at hcount
  rw [dataTotal_append, dataTotal_cons] at htotal
  rw [chainFull_iff]
  omega

/-! ### The two round trips -/

/-- R136, second part: a walk that succeeds finds the chain whose serialization it walked over. -/
theorem drop_eq_serFrom_of_walk {c : Config} {m : SizeClass} {p : List Byte} {o total : Nat} {out bc : List Block}
    {r : Except Cause (List Block)} (h : Walk c m p o total out r) (hr : r = .ok bc) :
    ∃ rest, bc = out ++ rest ∧ p.drop o = serFrom m o rest := by
  induction h with
  | cut | overrun | badNext | full => nomatch hr
  | done hdone =>
    cases hr
    exact ⟨[], (List.append_nil _).symm, List.drop_eq_nil_of_le hdone⟩
  | @block o total out _ _ hend hnext _ _ ih =>
    obtain ⟨rest, hbc, hrest⟩ := ih hr
    have hlen : o + subHeaderWidth m + (wireBlock m p o).data.length = endAt p o m := by
      rw [wireBlock_data_length hend, endAt]
    refine ⟨wireBlock m p o :: rest, by rw [hbc, List.append_assoc]; rfl, ?_⟩
    rw [serFrom_cons_eq hlen hend hrest, ← slice_eq_subHeader_wireBlock hend hnext]
    exact drop_eq_slice_append p o (subHeaderWidth m) (lenAt p o m)

/-- R136, first part: the walk over the serialization of a chain within the capacities finds the chain. -/
theorem walk_of_drop_eq_serFrom {c : Config} {m : SizeClass} {p : List Byte} (hlen : p.length < 256 ^ 2)
    (rest : List Block) : ∀ {o : Nat} {out : List Block}, p.drop o = serFrom m o rest →
      (∀ b ∈ rest, b.FitsSubHeader m) → ChainFits c (out ++ rest) →
      Walk c m p o (dataTotal out) out (.ok (out ++ rest)) := by
  induction rest with
  | nil =>
    intro o out hdrop _ _
    rw [List.append_nil]
    exact .done (List.drop_eq_nil_iff.mp hdrop)
  | cons b rest ih =>
    intro o out hdrop hfit hchain
    obtain ⟨hend, hrest⟩ := drop_eq_serFrom_tail rfl hdrop
    rw [serFrom_cons_eq rfl hend hrest] at hdrop
    obtain ⟨rfl, hendAt, hnext⟩ := wireBlock_of_drop_eq (hfit b List.mem_cons_self) hlen hend hdrop
    have hdata := wireBlock_data_length hendAt
    rw [hdata] at hrest
    have hblocks : out ++ wireBlock m p o :: rest = out ++ [wireBlock m p o] ++ rest := by simp
    have hwalk := ih (out := out ++ [wireBlock m p o]) hrest
      (fun d hd => hfit d (List.mem_cons_of_mem _ hd)) (hblocks ▸ hchain)
    rw [dataTotal_append, dataTotal_cons, dataTotal_nil, hdata, ← hblocks] at hwalk
    exact .block ((lt_endAt p o m).trans_le hendAt) hendAt hnext (not_chainFull_of_chainFits hdata.symm hchain) hwalk

/-! ### Chains that can be serialized -/

theorem data_length_le_payloadLength {m : SizeClass} {bc : List Block} {b : Block} (hb : b ∈ bc) :
    b.data.length ≤ payloadLength m bc := by
  have hblock := List.le_sum_of_mem (List.mem_map_of_mem (f := fun b : Block => subHeaderWidth m + b.data.length) hb)
  rw [payloadLength]
  omega

/-- R133 lines 1 and 2: the numbers of every block fit the sub-header. -/
theorem fitsSubHeader_of_blocksFit {m : SizeClass} {bc : List Block} (hfit : BlocksFit bc m)
    (hlen : payloadLength m bc ≤ lenMax m) {b : Block} (hb : b ∈ bc) : b.FitsSubHeader m := by
  cases m with
  | full => exact ⟨b.type.isLt, Nat.lt_succ_of_le ((data_length_le_payloadLength hb).trans hlen)⟩
  | micro => exact hfit rfl b hb

theorem lenMax_lt (m : SizeClass) : lenMax m < 256 ^ 2 := by cases m <;> decide

/-- R136, first part. -/
theorem parse_ser {c : Config} {m : SizeClass} {bc : List Block} (hchain : ChainFits c bc) (hfit : BlocksFit bc m)
    (hlen : payloadLength m bc ≤ lenMax m) : parse c m (ser m bc) = .ok bc := by
  have hwalk : Walk c m (ser m bc) 0 (dataTotal []) [] (.ok ([] ++ bc)) :=
    walk_of_drop_eq_serFrom (by rw [ser_length]; exact hlen.trans_lt (lenMax_lt m)) bc rfl
      (fun b hb => fitsSubHeader_of_blocksFit hfit hlen hb) hchain
  exact (parseIsTheBlockWalk c m _ _).mpr hwalk

/-- R136, second part, of a region of any length. -/
theorem ser_of_parse_eq_ok {c : Config} {m : SizeClass} {p : List Byte} {bc : List Block} (h : parse c m p = .ok bc) :
    ser m bc = p := by
  obtain ⟨rest, rfl, hdrop⟩ :=
    drop_eq_serFrom_of_walk ((parseIsTheBlockWalk c m p _).mp h) rfl
  exact hdrop.symm

/-- R134, its last sentence: the default capacities are those of the longest payload. -/
theorem chainFits_defaults {m : SizeClass} {bc : List Block} (hlen : payloadLength m bc ≤ lenMax m) :
    ChainFits Config.defaults bc := by
  rw [payloadLength_eq] at hlen
  cases m with
  | full | micro =>
    simp only [subHeaderWidth, lenMax] at hlen
    simp only [ChainFits, Config.defaults]
    omega

/-- Settles O38: the two round trips through the walk, and the default capacities by counting bytes. The bound on the region's
length is not needed, as check 3 compares `next` with the whole offset. -/
theorem serAndParseAreInverse : Obligations.SerAndParseAreInverse := by
  unfold Obligations.SerAndParseAreInverse
  exact ⟨fun _ _ _ => parse_ser, fun _ _ _ _ _ => ser_of_parse_eq_ok, fun _ _ => chainFits_defaults⟩

end Sys2Proof.Machine
end
section
/-!
PROOFS. `BLK_DESERIALIZE` (R135): the length the header declares against the length of the frame, then `parse` of the payload
region. Only the success writes, and only `BC`.
-/

namespace Sys2Proof.Machine

open Sys2Proof.Statement

/-- The response code of an error that is reported bare (R72, R233). -/
theorem responseCode_false (c : BitVec 4) : responseCode false c = c.setWidth 8 := by
  revert c; decide

section
variable {m : SizeClass} {s : State}

theorem State.wireLen_eq_declaredLen (s : State) (m : SizeClass) : s.wireLen m = declaredLen m s := by cases m <;> rfl

theorem State.payloadRegion_eq_bytesAt (s : State) (m : SizeClass) :
    s.payloadRegion m = bytesAt s (headerWidth m) (declaredLen m s) := by
  rw [← State.wireLen_eq_declaredLen]
  rfl

/-- R135 from line 3 on, in the terms of the statement. -/
theorem exec_blkDeserialize_of_le_flen (hlen : headerWidth m ≤ s.flen) :
    exec (.blkDeserialize m) s = answer s do
      raiseIf (s.flen < headerWidth m + declaredLen m s) .truncatedBlock
      raiseIf (headerWidth m + declaredLen m s < s.flen) .malformedPayload
      let bc ← parse s.config m (bytesAt s (headerWidth m) (declaredLen m s))
      return ({ s with bc }, BitVec.ofNat 32 bc.length) := by
  rw [← State.payloadRegion_eq_bytesAt, ← State.wireLen_eq_declaredLen]
  exact answer_requireHeader_of_le_flen hlen _

theorem exec_blkDeserialize_of_flen_lt_declared (hlen : headerWidth m ≤ s.flen)
    (hshort : s.flen < headerWidth m + declaredLen m s) : exec (.blkDeserialize m) s = .next (err s 0x02) := by
  rw [exec_blkDeserialize_of_le_flen hlen, raiseIf_of hshort, error_bind, answer_error, State.raise_eq_err]
  rfl

theorem exec_blkDeserialize_of_declared_lt_flen (hlen : headerWidth m ≤ s.flen)
    (hlong : headerWidth m + declaredLen m s < s.flen) : exec (.blkDeserialize m) s = .next (err s 0x05) := by
  rw [exec_blkDeserialize_of_le_flen hlen, raiseIf_of_not (Nat.lt_asymm hlong), ok_bind, raiseIf_of hlong, error_bind,
    answer_error, State.raise_eq_err]
  rfl

/-- R135 from line 5 on. -/
theorem exec_blkDeserialize_of_flen_eq (hlen : s.flen = headerWidth m + declaredLen m s) :
    exec (.blkDeserialize m) s = answer s do
      let bc ← parse s.config m (bytesAt s (headerWidth m) (declaredLen m s))
      return ({ s with bc }, BitVec.ofNat 32 bc.length) := by
  rw [exec_blkDeserialize_of_le_flen (hlen ▸ Nat.le_add_right _ _), raiseIf_of_not hlen.not_lt, ok_bind,
    raiseIf_of_not hlen.not_gt, ok_bind]

theorem exec_blkDeserialize_of_parse_eq_error {e : Cause} (hlen : s.flen = headerWidth m + declaredLen m s)
    (hparse : parse s.config m (bytesAt s (headerWidth m) (declaredLen m s)) = .error e) :
    exec (.blkDeserialize m) s = .next (err s (e.code.setWidth 8)) := by
  rw [exec_blkDeserialize_of_flen_eq hlen, hparse, error_bind, answer_error, State.raise_eq_err, responseCode_false]

theorem exec_blkDeserialize_of_parse_eq_ok {bc : List Block} (hlen : s.flen = headerWidth m + declaredLen m s)
    (hparse : parse s.config m (bytesAt s (headerWidth m) (declaredLen m s)) = .ok bc) :
    exec (.blkDeserialize m) s = .next (ok { s with bc := bc } (BitVec.ofNat 32 bc.length)) := by
  rw [exec_blkDeserialize_of_flen_eq hlen, hparse, ok_bind, pure_eq_ok, answer_ok, State.succeed_eq_ok]

end

/-- Settles O37: each check of R135 that fails raises its cause, the failure of `parse` its own, and the success writes `BC`
alone. -/
theorem blkDeserializeResults : Obligations.BlkDeserializeResults := by
  unfold Obligations.BlkDeserializeResults
  intro m s
  have hencode : encode (.blkDeserialize m) = word 0x33 (num m) 0 0 := by cases m <;> rfl
  exact ⟨hencode, fun hshort => answer_requireHeader_of_flen_lt hshort _, exec_blkDeserialize_of_flen_lt_declared,
    exec_blkDeserialize_of_declared_lt_flen,
    fun hlen => ⟨fun _ => exec_blkDeserialize_of_parse_eq_error hlen, fun _ => exec_blkDeserialize_of_parse_eq_ok hlen⟩⟩

end Sys2Proof.Machine
end

section
/-!
PROOFS. `BLK_APPEND` and `BLK_CLEAR` (R131, R132). The three checks of `BLK_APPEND` raise one cause, so which of them fails first
does not show. The word of a command with operands is the one of R83 as its fields do not overlap.
-/

namespace Sys2Proof.Machine

open Sys2Proof.Statement

/-- R83: the word of an opcode and its operands by shifts. -/
theorem commandWord_eq_word (op : BitVec 8) (m : BitVec 1) (a : BitVec 20) (v : BitVec 32) :
    commandWord op m a v = word op.toNat m.toNat a.toNat v.toNat := by
  have hbits : (commandWord op m a v).toNat =
      op.toNat <<< 56 ||| m.toNat <<< 55 ||| a.toNat <<< 32 ||| v.toNat := by
    show (op ++ m ++ 0#3 ++ a ++ v).toNat = _
    rw [BitVec.toNat_append, BitVec.toNat_append, BitVec.toNat_append, BitVec.toNat_append]
    simp [Nat.shiftLeft_or_distrib, ← Nat.shiftLeft_add]
  rw [word, ← hbits, BitVec.ofNat_toNat, BitVec.setWidth_eq]

section
variable {v : BitVec 32} {s : State}

theorem exec_blkAppend (v : BitVec 32) (s : State) : exec (.blkAppend v) s = execBlkAppend v s := rfl

theorem exec_blkAppend_of_refused
    (h : 65536 ≤ v.toNat ∨ s.bc.length = s.config.nblkMax ∨ s.config.bcDataMax < dataTotal s.bc + s.db.length) :
    exec (.blkAppend v) s = .next (err s 0x06) := by
  have hraise : exec (.blkAppend v) s = .next (s.raise false .rangeError) := by
    rw [exec_blkAppend, execBlkAppend]
    by_cases htype : 2 ^ 16 ≤ v.toNat
    · rw [raiseIf_of htype, error_bind, answer_error]
    rw [raiseIf_of_not htype, ok_bind]
    by_cases hcount : s.bc.length = s.config.nblkMax
    · rw [raiseIf_of hcount, error_bind, answer_error]
    rw [raiseIf_of_not hcount, ok_bind, raiseIf_of ((h.resolve_left htype).resolve_left hcount), error_bind,
      answer_error]
  rw [hraise, State.raise_eq_err]
  rfl

theorem exec_blkAppend_of_accepted (htype : v.toNat < 65536) (hcount : s.bc.length ≠ s.config.nblkMax)
    (hdata : dataTotal s.bc + s.db.length ≤ s.config.bcDataMax) :
    exec (.blkAppend v) s =
      .next (ok { s with bc := s.bc ++ [⟨v.setWidth 16, s.db⟩], db := [] } (countValue (s.bc.length + 1))) := by
  have hfits : ¬ 2 ^ 16 ≤ v.toNat := Nat.not_le.mpr htype
  rw [exec_blkAppend, execBlkAppend, raiseIf_of_not hfits, ok_bind, raiseIf_of_not hcount, ok_bind,
    raiseIf_of_not (Nat.not_lt.mpr hdata), ok_bind, pure_eq_ok, answer_ok, State.succeed_eq_ok, List.length_append]
  rfl

theorem exec_blkClear (s : State) : exec .blkClear s = .next (ok { s with bc := [] } 0) := by
  have hexec : exec .blkClear s = execBlkClear s := rfl
  rw [hexec, execBlkClear, answer_ok, State.succeed_eq_ok]

end

theorem toNat_countValue {n : Nat} (h : n < 2 ^ 32) : (countValue n).toNat = n := by
  rw [countValue_of_lt h, BitVec.toNat_ofNat, Nat.mod_eq_of_lt h]

/-- Settles O33: a check of R131 that fails raises RangeError, the success appends `DB` as a block, and `BLK_CLEAR` has no
check. -/
theorem blkAppendAndBlkClearResults : Obligations.BlkAppendAndBlkClearResults := by
  unfold Obligations.BlkAppendAndBlkClearResults
  intro v s
  exact ⟨commandWord_eq_word 0x30 0 0 v, commandWord_eq_word 0x31 0 0 0, exec_blkClear s, exec_blkAppend_of_refused,
    fun htype hcount hdata => ⟨_, toNat_countValue, exec_blkAppend_of_accepted htype hcount hdata⟩⟩

end Sys2Proof.Machine
end

section
/-!
PROOFS. The whole-byte header fields (R150, R153, R155 to R164). Six `GET_*` commands are `getField` and five `SET_*` commands are
`setField` at a row of the table of R150, so what a getter and a setter do is proved once, for any field.
-/

namespace Sys2Proof.Machine

open Sys2Proof.Statement

/-! ### Words and bytes -/

/-- R83: the word of a command that takes no `a`. -/
theorem commandWord_classBit_eq_word (op : BitVec 8) (m : SizeClass) (v : BitVec 32) :
    commandWord op (classBit m) 0 v = word op.toNat (num m) 0 v.toNat := by
  have hnum : (classBit m).toNat = num m := by cases m <;> rfl
  rw [commandWord_eq_word, hnum]
  rfl

/-- The bytes of a value operand: byte `k` of `n` is the value shifted down to its place and cut (R40). -/
theorem beBytes_toNat (n : Nat) (v : BitVec 32) :
    beBytes n v.toNat = (List.range n).map fun k => (v >>> (8 * (n - 1 - k))).setWidth 8 := by
  refine List.map_congr_left fun k _ => ?_
  rw [← BitVec.toNat_ushiftRight, BitVec.ofNat_toNat]

/-! ### The outcomes -/

section
variable {f : WireField} {m : SizeClass} {v : BitVec 32} {s : State}

theorem answer_getField_of_le_flen (hlen : headerWidth m ≤ s.flen) :
    answer s (getField f m s) = .next (ok s (BitVec.ofNat 32 (s.memRead (fieldAt f m).1 (fieldAt f m).2))) := by
  rw [getField_eq_ok.mpr ⟨hlen, rfl, rfl⟩, answer_ok, State.succeed_eq_ok, State.readField]

theorem answer_setField_of_range (hlen : headerWidth m ≤ s.flen) (hwide : 2 ^ (8 * (fieldAt f m).2) ≤ v.toNat) :
    answer s (setField f m v s) = .next (err s 0x06) := by
  rw [setField_eq_error.mpr (.inr ⟨hlen, hwide, rfl⟩), answer_error, State.raise_eq_err]
  rfl

theorem answer_setField_of_fits (hlen : headerWidth m ≤ s.flen) (hfit : v.toNat < 2 ^ (8 * (fieldAt f m).2)) :
    answer s (setField f m v s) = .next (ok (ckvTo (s.writeField f m v.toNat) false) 0) := by
  rw [setField_eq_ok.mpr ⟨hlen, hfit, rfl, rfl⟩, answer_ok, State.succeed_eq_ok, State.setCkv_eq_ckvTo]

/-- R40: writing a field stores its bytes at its address. -/
theorem stores_writeField (s : State) (f : WireField) (m : SizeClass) (v : BitVec 32) :
    Stores s.fb (s.writeField f m v.toNat).fb (fieldAt f m).1
      ((List.range (fieldAt f m).2).map fun k => (v >>> (8 * ((fieldAt f m).2 - 1 - k))).setWidth 8) := by
  rw [State.writeField_fb, ← beBytes_toNat]
  exact stores_writeBytes s.fb _ _

end

/-! ### Any getter and any setter -/

/-- A command that is `getField` at a field is a getter of that field. -/
theorem getter_of_exec_eq {op : BitVec 8} {f : WireField} {i : SizeClass → Instr}
    (hencode : ∀ m, encode (i m) = commandWord op (classBit m) 0 0)
    (hexec : ∀ m s, exec (i m) s = answer s (getField f m s)) : Getter op.toNat f i := by
  intro m s
  rw [hencode, hexec]
  exact ⟨commandWord_classBit_eq_word op m 0, fun hshort => answer_requireHeader_of_flen_lt hshort _,
    answer_getField_of_le_flen⟩

/-- A command that is `setField` at a field is a setter of that field. -/
theorem setter_of_exec_eq {op : BitVec 8} {f : WireField} {i : SizeClass → BitVec 32 → Instr}
    (hencode : ∀ m v, encode (i m v) = commandWord op (classBit m) 0 v)
    (hexec : ∀ m v s, exec (i m v) s = answer s (setField f m v s)) : Setter op.toNat f i := by
  intro m v s
  rw [hencode, hexec]
  exact ⟨commandWord_classBit_eq_word op m v, fun hshort => answer_requireHeader_of_flen_lt hshort _,
    answer_setField_of_range, fun hlen hfit => ⟨_, stores_writeField s f m v, answer_setField_of_fits hlen hfit⟩⟩

/-- Settles O40: each of the five commands is `setField` at its field. -/
theorem fieldSetters : Obligations.FieldSetters := by
  unfold Obligations.FieldSetters
  exact ⟨setter_of_exec_eq (op := 0x45) (fun _ _ => rfl) fun _ _ _ => rfl,
    setter_of_exec_eq (op := 0x47) (fun _ _ => rfl) fun _ _ _ => rfl,
    setter_of_exec_eq (op := 0x49) (fun _ _ => rfl) fun _ _ _ => rfl,
    setter_of_exec_eq (op := 0x4B) (fun _ _ => rfl) fun _ _ _ => rfl,
    setter_of_exec_eq (op := 0x4D) (fun _ _ => rfl) fun _ _ _ => rfl⟩

/-- Settles O39: each of the six commands is `getField` at its field. -/
theorem fieldGetters : Obligations.FieldGetters := by
  unfold Obligations.FieldGetters
  exact ⟨getter_of_exec_eq (op := 0x42) (fun _ => rfl) fun _ _ => rfl,
    getter_of_exec_eq (op := 0x44) (fun _ => rfl) fun _ _ => rfl,
    getter_of_exec_eq (op := 0x46) (fun _ => rfl) fun _ _ => rfl,
    getter_of_exec_eq (op := 0x48) (fun _ => rfl) fun _ _ => rfl,
    getter_of_exec_eq (op := 0x4A) (fun _ => rfl) fun _ _ => rfl,
    getter_of_exec_eq (op := 0x4C) (fun _ => rfl) fun _ _ => rfl⟩

end Sys2Proof.Machine
end

section
/-!
PROOFS. The priority bits of byte 1 (R151, R152) and the increment of the hop limit (R154). The header check is the only check of
these three commands, and what they write is one byte.
-/

namespace Sys2Proof.Machine

open Sys2Proof.Statement

/-! ### The bytes -/

/-- R151: the priority bits of byte 1 are what the mask `0x07` leaves. -/
theorem byte1Priority_setWidth (b : Byte) : (byte1Priority b).setWidth 32 = (b &&& 0x07).setWidth 32 := by
  have hmask : (byte1Priority b).toNat = (b &&& 0x07).toNat := by
    rw [byte1Priority, BitVec.extractLsb'_toNat, Nat.shiftRight_zero, BitVec.toNat_and]
    exact (Nat.and_two_pow_sub_one_eq_mod b.toNat 3).symm
  apply BitVec.eq_of_toNat_eq
  rw [BitVec.toNat_setWidth, BitVec.toNat_setWidth, hmask]

/-- R152: whether the value is masked before or after it is cut to a byte does not show. -/
theorem withPriority_eq (b : Byte) (v : BitVec 32) :
    withPriority b v = (b &&& 0xF8) ||| (v &&& 0x07).setWidth 8 := by
  rw [withPriority, BitVec.setWidth_and]
  rfl

/-- R154: the addition is modulo 256. -/
theorem byte_add_one_eq (b : Byte) : b + 1#8 = BitVec.ofNat 8 ((b.toNat + 1) % 256) := by
  apply BitVec.eq_of_toNat_eq
  simp

/-- R154: the value returned is the byte stored, zero-extended. -/
theorem byte_add_one_setWidth (b : Byte) : (b + 1#8).setWidth 32 = BitVec.ofNat 32 ((b.toNat + 1) % 256) := by
  apply BitVec.eq_of_toNat_eq
  simp

/-! ### The outcomes -/

section
variable {m : SizeClass} {v : BitVec 32} {s : State}

theorem exec_getPriority_of_le_flen (hlen : headerWidth m ≤ s.flen) :
    exec (.getPriority m) s = .next (ok s ((s.fb.read 1 &&& 0x07).setWidth 32)) := by
  have hexec : exec (.getPriority m) s = answer s (.ok (s, (byte1Priority (s.fb.read 1)).setWidth 32)) :=
    answer_requireHeader_of_le_flen hlen _
  rw [hexec, answer_ok, State.succeed_eq_ok, byte1Priority_setWidth]

theorem exec_setPriority_of_le_flen (hlen : headerWidth m ≤ s.flen) :
    exec (.setPriority m v) s =
      .next (ok (ckvTo (s.fbStore 1 [(s.fb.read 1 &&& 0xF8) ||| (v &&& 0x07).setWidth 8]) false) 0) := by
  have hexec : exec (.setPriority m v) s =
      answer s (.ok ((s.fbStore 1 [withPriority (s.fb.read 1) v]).setCkv false, 0)) :=
    answer_requireHeader_of_le_flen hlen _
  rw [hexec, answer_ok, State.succeed_eq_ok, State.setCkv_eq_ckvTo, withPriority_eq]

theorem exec_addHopLimit_of_le_flen (hlen : headerWidth m ≤ s.flen) :
    exec (.addHopLimit m) s =
      .next (ok (ckvTo (s.fbStore 0 [BitVec.ofNat 8 (((s.fb.read 0).toNat + 1) % 256)]) false)
        (BitVec.ofNat 32 (((s.fb.read 0).toNat + 1) % 256))) := by
  have hexec : exec (.addHopLimit m) s =
      answer s (.ok ((s.fbStore 0 [s.fb.read 0 + 1#8]).setCkv false, (s.fb.read 0 + 1#8).setWidth 32)) :=
    answer_requireHeader_of_le_flen hlen _
  rw [hexec, answer_ok, State.succeed_eq_ok, State.setCkv_eq_ckvTo, byte_add_one_setWidth, byte_add_one_eq]

end

/-- Settles O42: the header check of R151 and R152, the masked read, and the store of byte 1 with its other five bits kept. -/
theorem priorityIsMasked : Obligations.PriorityIsMasked := by
  unfold Obligations.PriorityIsMasked
  intro m v s
  refine ⟨commandWord_classBit_eq_word 0x40 m 0, commandWord_classBit_eq_word 0x41 m v, fun hshort => ⟨?_, ?_⟩,
    fun hlen => ⟨exec_getPriority_of_le_flen hlen, _, stores_writeBytes s.fb 1 _, exec_setPriority_of_le_flen hlen⟩⟩
  · exact answer_requireHeader_of_flen_lt hshort _
  · exact answer_requireHeader_of_flen_lt hshort _

/-- Settles O43: the header check of R154, and the store of the incremented byte, whose value is returned. -/
theorem addHopLimitWraps : Obligations.AddHopLimitWraps := by
  unfold Obligations.AddHopLimitWraps
  intro m s
  exact ⟨commandWord_classBit_eq_word 0x43 m 0, fun hshort => answer_requireHeader_of_flen_lt hshort _,
    fun hlen => ⟨_, stores_writeBytes s.fb 0 _, exec_addHopLimit_of_le_flen hlen⟩⟩

end Sys2Proof.Machine
end

section
/-!
PROOFS. `IS_MICRO` (R165). The class of the frame in `FB` is the one whose code the two `cfg_hdr` bits of byte 1 hold; where they
hold neither code, or byte 1 is missing, there is no class.
-/

namespace Sys2Proof.Machine

open Sys2Proof.Statement

section
variable {m : SizeClass} {s : State}

/-! ### The class of the frame -/

theorem wireClass_of_flen_lt (hshort : s.flen < 2) : wireClass s = .error .malformedHeader := by
  rw [wireClass, raiseIf_of hshort, error_bind]

theorem wireClass_eq_ok_iff_cfgOf (hcodes : CodesDistinct s) :
    wireClass s = .ok m ↔ 2 ≤ s.flen ∧ wireCfg s = cfgOf s m := by
  rw [wireClass_eq_ok, classOf_eq_ok hcodes]
  cases m <;> exact Iff.rfl

theorem wireClass_of_ne_cfgOf (hcodes : CodesDistinct s) (hcfg : ∀ m, wireCfg s ≠ cfgOf s m) :
    wireClass s = .error .malformedHeader := by
  cases hr : wireClass s with
  | ok m => exact absurd ((wireClass_eq_ok_iff_cfgOf hcodes).mp hr).2 (hcfg m)
  | error e => rw [wireClass_eq_error hr]

/-! ### The outcomes -/

theorem exec_isMicro (s : State) : exec .isMicro s = execIsMicro s := rfl

theorem exec_isMicro_of_wireClass_eq_ok (h : wireClass s = .ok m) : exec .isMicro s = .next (ok s (microBit m)) := by
  rw [exec_isMicro, execIsMicro, h, ok_bind, pure_eq_ok, answer_ok, State.succeed_eq_ok]

theorem exec_isMicro_of_wireClass_eq_error (h : wireClass s = .error .malformedHeader) :
    exec .isMicro s = .next (err s 0x01) := by
  rw [exec_isMicro, execIsMicro, h, error_bind, answer_error, State.raise_eq_err]
  rfl

end

/-- Settles O44: `IS_MICRO` answers the class bit of the class of the frame, and MalformedHeader where it has none. -/
theorem isMicroReadsOnlyCfgHdr : Obligations.IsMicroReadsOnlyCfgHdr := by
  unfold Obligations.IsMicroReadsOnlyCfgHdr
  refine ⟨commandWord_eq_word 0x4E 0 0 0, fun s hcodes => ⟨fun hshort => ?_, fun hlen hcfg => ?_, fun hlen hcfg => ?_,
    fun _ hcfg => ?_⟩⟩
  · exact exec_isMicro_of_wireClass_eq_error (wireClass_of_flen_lt hshort)
  · exact exec_isMicro_of_wireClass_eq_ok ((wireClass_eq_ok_iff_cfgOf hcodes).mpr ⟨hlen, hcfg⟩)
  · exact exec_isMicro_of_wireClass_eq_ok ((wireClass_eq_ok_iff_cfgOf hcodes).mpr ⟨hlen, hcfg⟩)
  · exact exec_isMicro_of_wireClass_eq_error (wireClass_of_ne_cfgOf hcodes hcfg)

end Sys2Proof.Machine
end

section
/-!
PROOFS. The commands of the host that move one byte or one length: `FB_READ`, `FB_WRITE`, `FB_SETLEN` (R207 to R209), `DB_CLEAR` and
`DB_PUSH` (R210, R211). Each has at most one check, and its one cause is RangeError.
-/

namespace Sys2Proof.Machine

open Sys2Proof.Statement

/-! ### The two ends of a host access -/

theorem answer_of_eq_ok {s t : State} {v : BitVec 32} {r : Result} (h : r = .ok (t, v)) :
    answer s r = .next (ok t v) := by
  rw [h, answer_ok, State.succeed_eq_ok]

theorem answer_of_eq_rangeError {s : State} {r : Result} (h : r = .error .rangeError) :
    answer s r = .next (err s 0x06) := by
  rw [h, answer_error, State.raise_eq_err]
  rfl

section
variable {addr n : BitVec 20} {v : BitVec 32} {s : State}

/-! ### The frame buffer -/

theorem exec_fbRead_of_lt_flen (h : addr.toNat < s.flen) :
    exec (.fbRead addr) s = .next (ok s ((s.fb.read addr.toNat).setWidth 32)) :=
  answer_of_eq_ok (bind_eq_ok.mpr ⟨(), raiseIf_of_not (Nat.not_le.mpr h), rfl⟩)

theorem exec_fbRead_of_flen_le (h : s.flen ≤ addr.toNat) : exec (.fbRead addr) s = .next (err s 0x06) :=
  answer_of_eq_rangeError (bind_eq_error.mpr (.inl (raiseIf_of h)))

/-- R208 line 3 as a write of `FLEN` alone. -/
theorem State.extendAt_eq (s : State) (a : Nat) :
    s.extendAt a = { s with flen := if a = s.flen then s.flen + 1 else s.flen } := by
  unfold State.extendAt
  split <;> rfl

theorem exec_fbWrite_of_refused (h : s.flen < addr.toNat ∨ s.config.fbSize ≤ addr.toNat ∨ 0xFF < v.toNat) :
    exec (.fbWrite addr v) s = .next (err s 0x06) :=
  answer_of_eq_rangeError (bind_eq_error.mpr (.inl (raiseIf_of h)))

theorem exec_fbWrite_of_accepted (hflen : addr.toNat ≤ s.flen) (hsize : addr.toNat < s.config.fbSize)
    (hbyte : v.toNat ≤ 0xFF) :
    exec (.fbWrite addr v) s = .next (ok (ckvTo { s with
      fb := s.fb.writeBytes addr.toNat [v.setWidth 8],
      flen := if addr.toNat = s.flen then s.flen + 1 else s.flen } false) 0) := by
  have hpass : ¬ (s.flen < addr.toNat ∨ s.config.fbSize ≤ addr.toNat ∨ 0xFF < v.toNat) := by omega
  have hexec : exec (.fbWrite addr v) s =
      .next (ok (((s.fbStore addr.toNat [v.setWidth 8]).extendAt addr.toNat).setCkv false) 0) :=
    answer_of_eq_ok (bind_eq_ok.mpr ⟨(), raiseIf_of_not hpass, rfl⟩)
  rw [hexec, State.extendAt_eq, State.setCkv_eq_ckvTo]
  rfl

theorem exec_fbSetlen_of_flen_lt (h : s.flen < n.toNat) : exec (.fbSetlen n) s = .next (err s 0x06) :=
  answer_of_eq_rangeError (bind_eq_error.mpr (.inl (raiseIf_of h)))

theorem exec_fbSetlen_of_le_flen (h : n.toNat ≤ s.flen) :
    exec (.fbSetlen n) s =
      .next (ok (ckvTo { s with fb := s.fb.truncate n.toNat, flen := n.toNat } false) 0) :=
  answer_of_eq_ok (bind_eq_ok.mpr ⟨(), raiseIf_of_not (Nat.not_lt.mpr h), rfl⟩)

/-- R209: the bytes below the cut are kept. -/
theorem Memory.read_truncate_of_lt (mem : Memory) {k a : Nat} (h : a < k) : (mem.truncate k).read a = mem.read a := by
  rw [Memory.read_truncate, if_pos h]

/-! ### The staging buffer -/

theorem exec_dbClear (s : State) : exec .dbClear s = .next (ok { s with db := [] } 0) := answer_of_eq_ok rfl

theorem exec_dbPush_of_refused (h : 0xFF < v.toNat ∨ s.db.length = s.config.dbMax) :
    exec (.dbPush v) s = .next (err s 0x06) :=
  answer_of_eq_rangeError (bind_eq_error.mpr (.inl (raiseIf_of h)))

theorem exec_dbPush_of_accepted (hbyte : v.toNat ≤ 0xFF) (hroom : s.db.length ≠ s.config.dbMax) :
    exec (.dbPush v) s =
      .next (ok { s with db := s.db ++ [v.setWidth 8] } (BitVec.ofNat 32 (s.db.length + 1))) := by
  have hpass : ¬ (0xFF < v.toNat ∨ s.db.length = s.config.dbMax) := not_or.mpr ⟨Nat.not_lt.mpr hbyte, hroom⟩
  have hlength : (s.db ++ [v.setWidth 8]).length = s.db.length + 1 := List.length_append
  rw [← hlength]
  exact answer_of_eq_ok (bind_eq_ok.mpr ⟨(), raiseIf_of_not hpass, rfl⟩)

end

/-- Settles O58: `FB_WRITE` past its check stores the byte and moves `FLEN` only at `FLEN`; `FB_SETLEN` past its check truncates
the memory, which keeps what lies below the cut. -/
theorem fbWriteAndFbSetlenResults : Obligations.FbWriteAndFbSetlenResults := by
  unfold Obligations.FbWriteAndFbSetlenResults
  intro addr n v s
  exact ⟨commandWord_eq_word 0x73 0 addr v, commandWord_eq_word 0x74 0 n 0, exec_fbWrite_of_refused,
    fun hflen hsize hbyte => ⟨_, stores_writeBytes s.fb addr.toNat _, exec_fbWrite_of_accepted hflen hsize hbyte⟩,
    exec_fbSetlen_of_flen_lt,
    fun hlen => ⟨_, fun _ => s.fb.read_truncate_of_lt, exec_fbSetlen_of_le_flen hlen⟩⟩

/-- Settles O57: the address is below `FLEN`, or the one check of R207 fails. -/
theorem fbReadResults : Obligations.FbReadResults := by
  unfold Obligations.FbReadResults
  intro addr s
  exact ⟨commandWord_eq_word 0x72 0 addr 0, exec_fbRead_of_lt_flen, exec_fbRead_of_flen_le⟩

/-- Settles O59: `DB_CLEAR` has no check, and `DB_PUSH` appends its byte where the one check of R211 passes. -/
theorem stagingBufferCommands : Obligations.StagingBufferCommands := by
  unfold Obligations.StagingBufferCommands
  intro v s
  exact ⟨commandWord_eq_word 0x75 0 0 0, commandWord_eq_word 0x76 0 0 v, exec_dbClear s, exec_dbPush_of_refused,
    exec_dbPush_of_accepted⟩

end Sys2Proof.Machine
end

section
/-!
PROOFS. The chain's read-out (R212 to R214): block `idx` is in the chain or not, byte `i` is in its data or not, and only these two
look-ups can fail.
-/

namespace Sys2Proof.Machine

open Sys2Proof.Statement

section
variable {idx : BitVec 20} {i : BitVec 32} {s : State} {b : Block}

/-! ### The look-ups -/

theorem blockAt_of_lt (h : idx.toNat < s.bc.length) : blockAt idx s = .ok s.bc[idx.toNat] :=
  blockAt_eq_ok.mpr (List.getElem?_eq_getElem h)

theorem blockAt_of_le (h : s.bc.length ≤ idx.toNat) : blockAt idx s = .error .rangeError :=
  blockAt_eq_error.mpr ⟨h, rfl⟩

theorem byteAt_of_lt (h : i.toNat < b.data.length) : byteAt i b = .ok b.data[i.toNat] :=
  byteAt_eq_ok.mpr (List.getElem?_eq_getElem h)

theorem byteAt_of_le (h : b.data.length ≤ i.toNat) : byteAt i b = .error .rangeError :=
  byteAt_eq_error.mpr ⟨h, rfl⟩

/-! ### The outcomes -/

theorem exec_blkType_of_lt (h : idx.toNat < s.bc.length) :
    exec (.blkType idx) s = .next (ok s ((s.bc[idx.toNat]).type.setWidth 32)) :=
  answer_of_eq_ok (bind_eq_ok.mpr ⟨_, blockAt_of_lt h, rfl⟩)

theorem exec_blkType_of_le (h : s.bc.length ≤ idx.toNat) : exec (.blkType idx) s = .next (err s 0x06) :=
  answer_of_eq_rangeError (bind_eq_error.mpr (.inl (blockAt_of_le h)))

theorem exec_blkLen_of_lt (h : idx.toNat < s.bc.length) :
    exec (.blkLen idx) s = .next (ok s (BitVec.ofNat 32 (s.bc[idx.toNat]).data.length)) :=
  answer_of_eq_ok (bind_eq_ok.mpr ⟨_, blockAt_of_lt h, rfl⟩)

theorem exec_blkLen_of_le (h : s.bc.length ≤ idx.toNat) : exec (.blkLen idx) s = .next (err s 0x06) :=
  answer_of_eq_rangeError (bind_eq_error.mpr (.inl (blockAt_of_le h)))

theorem exec_blkByte_of_lt (h : idx.toNat < s.bc.length) (hi : i.toNat < (s.bc[idx.toNat]).data.length) :
    exec (.blkByte idx i) s = .next (ok s ((s.bc[idx.toNat]).data[i.toNat].setWidth 32)) :=
  answer_of_eq_ok (bind_eq_ok.mpr ⟨_, blockAt_of_lt h, bind_eq_ok.mpr ⟨_, byteAt_of_lt hi, rfl⟩⟩)

theorem exec_blkByte_of_data_le (h : idx.toNat < s.bc.length) (hi : (s.bc[idx.toNat]).data.length ≤ i.toNat) :
    exec (.blkByte idx i) s = .next (err s 0x06) :=
  answer_of_eq_rangeError
    (bind_eq_error.mpr (.inr ⟨_, blockAt_of_lt h, bind_eq_error.mpr (.inl (byteAt_of_le hi))⟩))

theorem exec_blkByte_of_le (h : s.bc.length ≤ idx.toNat) : exec (.blkByte idx i) s = .next (err s 0x06) :=
  answer_of_eq_rangeError (bind_eq_error.mpr (.inl (blockAt_of_le h)))

end

/-- Settles O60: the three commands answer from the block and the byte they find, and RangeError where there is none. -/
theorem chainReadOut : Obligations.ChainReadOut := by
  unfold Obligations.ChainReadOut
  intro idx i s
  exact ⟨commandWord_eq_word 0x77 0 idx 0, commandWord_eq_word 0x78 0 idx 0, commandWord_eq_word 0x79 0 idx i,
    fun h => ⟨exec_blkType_of_lt h, exec_blkLen_of_lt h, exec_blkByte_of_lt h, exec_blkByte_of_data_le h⟩,
    fun h => ⟨exec_blkType_of_le h, exec_blkLen_of_le h, exec_blkByte_of_le h⟩⟩

end Sys2Proof.Machine
end

section
/-!
PROOFS. The commands with a selector: `SYS_GET` (R204), `HR_GET` and `HR_SET` (R205, R206). The selectors of `HR` are the positions of
a list of the nine fields, so that what a command does at every selector is one equation about the field it names; and the word of
a command whose selector is in no table does not decode.
-/

namespace Sys2Proof.Machine

open Sys2Proof.Statement

/-! ### Words with a selector outside the table -/

/-- R73 item 6: the row the decoder finds builds the command back, and the decoder rejects it for its selector. -/
theorem decode_encode_ne_ok {i : Instr} (hrow : Laws.EncodesItsRow.Statement i) (hill : i.wellFormed = false) (j : Instr) :
    decode (encode i) ≠ .ok j := by
  intro hj
  obtain ⟨r, hfind, -, -, -, -, hbuild⟩ := hrow
  obtain ⟨q, hfind', hdec⟩ := decode_eq_ok.mp hj
  obtain rfl : r = q := Option.some.inj (hfind.symm.trans hfind')
  obtain ⟨-, -, -, -, rfl, hwf⟩ := decodeRow_eq_ok.mp hdec
  rw [hbuild, hill] at hwf
  exact Bool.noConfusion hwf

/-! ### `SYS_GET` -/

section
variable {sel : BitVec 20} {s : State}

theorem sysLength_of_eq_zero (h : sel.toNat = 0) : sysLength sel s = .ok (BitVec.ofNat 32 s.flen) := by
  simp only [sysLength, h]

theorem sysLength_of_eq_one (h : sel.toNat = 1) : sysLength sel s = .ok (BitVec.ofNat 32 s.db.length) := by
  simp only [sysLength, h]

theorem sysLength_of_eq_two (h : sel.toNat = 2) : sysLength sel s = .ok (countValue s.bc.length) := by
  simp only [sysLength, h]

theorem exec_sysGet_of_sysLength {v : BitVec 32} (h : sysLength sel s = .ok v) :
    exec (.sysGet sel) s = .next (ok s v) :=
  answer_of_eq_ok (bind_eq_ok.mpr ⟨v, h, rfl⟩)

end

/-- Settles O21: the three rows of the selector table of `SYS_GET`, and the rejection of any other selector. -/
theorem sysGetReturnsTheLengths : Obligations.SysGetReturnsTheLengths := by
  unfold Obligations.SysGetReturnsTheLengths
  intro s sel
  exact ⟨commandWord_eq_word 0x04 0 sel 0, fun h => exec_sysGet_of_sysLength (sysLength_of_eq_zero h),
    fun h => exec_sysGet_of_sysLength (sysLength_of_eq_one h),
    fun h => ⟨_, toNat_countValue, exec_sysGet_of_sysLength (sysLength_of_eq_two h)⟩,
    fun h => decode_encode_ne_ok (Laws.EncodesItsRow.sysGet sel) (decide_eq_false (Nat.not_lt.mpr h))⟩

/-! ### The fields of `HR` by selector -/

/-- The fields of `HR` in the order of their selectors (R79, R20). -/
def hrFields : List HrField :=
  [.hopLimit, .earmark, .cfgHdr, .priority, .heartRate, .srcId, .dstId, .len, .checkSum]

theorem hrFields_nodup : hrFields.Nodup := by decide

section
variable {sel : BitVec 20} {v : BitVec 32} {s : State}

/-- R79: a selector inside the table names the field at its position. -/
theorem hrField_of_lt (h : sel.toNat < 9) : hrField sel = .ok hrFields[sel.toNat] := by
  unfold hrField
  generalize sel.toNat = k at h
  interval_cases k <;> rfl

theorem hrFields_getElem_eq_priority_iff (h : sel.toNat < 9) : hrFields[sel.toNat] = .priority ↔ sel.toNat = 3 :=
  hrFields_nodup.getElem_inj_iff (j := 3) (hj := by decide)

/-- R205 at any selector of the table. -/
theorem exec_hrGet_of_lt (h : sel.toNat < 9) :
    exec (.hrGet sel) s = .next (ok s (s.hr.get hrFields[sel.toNat])) :=
  answer_of_eq_ok (bind_eq_ok.mpr ⟨_, hrField_of_lt h, rfl⟩)

/-- R206 at any selector of the table: the mask policy of `priority`, or a value that fits. -/
theorem exec_hrSet_of_fits (h : sel.toNat < 9) (hfit : sel.toNat = 3 ∨ v.toNat < 2 ^ hrWidth hrFields[sel.toNat]) :
    exec (.hrSet sel v) s = .next (ok { s with hr := s.hr.put hrFields[sel.toNat] v } 0) := by
  have hpass : ¬ (hrFields[sel.toNat] ≠ .priority ∧ 2 ^ hrWidth hrFields[sel.toNat] ≤ v.toNat) := by
    rw [Ne, hrFields_getElem_eq_priority_iff h]
    omega
  exact answer_of_eq_ok (bind_eq_ok.mpr ⟨_, hrField_of_lt h, bind_eq_ok.mpr ⟨(), raiseIf_of_not hpass, rfl⟩⟩)

theorem exec_hrSet_of_wide (h : sel.toNat < 9) (hpriority : sel.toNat ≠ 3)
    (hwide : 2 ^ hrWidth hrFields[sel.toNat] ≤ v.toNat) : exec (.hrSet sel v) s = .next (err s 0x06) := by
  have hfield : hrFields[sel.toNat] ≠ .priority := mt (hrFields_getElem_eq_priority_iff h).mp hpriority
  exact answer_of_eq_rangeError (bind_eq_error.mpr
    (.inr ⟨_, hrField_of_lt h, bind_eq_error.mpr (.inl (raiseIf_of ⟨hfield, hwide⟩))⟩))

end

/-! ### The tables of the statements -/

/-- R205: the values of the nine selectors are those of the nine fields. -/
theorem map_get_hrFields (h : Header) :
    hrFields.map h.get =
      [h.hopLimit.setWidth 32, h.earmark.setWidth 32, h.cfgHdr.setWidth 32, h.priority.setWidth 32,
        h.heartRate.setWidth 32, h.srcId, h.dstId, h.len.setWidth 32, h.checkSum.setWidth 32] := rfl

/-- R20: the widths of the nine fields. -/
theorem map_hrWidth_hrFields : hrFields.map hrWidth = [8, 3, 2, 3, 16, 32, 32, 16, 16] := rfl

/-- R206: the nine writes, the mask policy of `priority` read as its low three bits. -/
theorem map_put_hrFields (h : Header) (v : BitVec 32) :
    (hrFields.map fun f => h.put f v) =
      [{ h with hopLimit := v.setWidth 8 }, { h with earmark := v.setWidth 3 }, { h with cfgHdr := v.setWidth 2 },
        { h with priority := v.extractLsb' 0 3 }, { h with heartRate := v.setWidth 16 }, { h with srcId := v },
        { h with dstId := v }, { h with len := v.setWidth 16 }, { h with checkSum := v.setWidth 16 }] := by
  rw [← BitVec.setWidth_eq_extractLsb' (by decide)]
  rfl

/-- Settles O55: the list of the statement is the values of `hrFields`, one by one. -/
theorem hrGetReturnsTheField : Obligations.HrGetReturnsTheField := by
  unfold Obligations.HrGetReturnsTheField
  intro s sel
  refine ⟨commandWord_eq_word 0x70 0 sel 0, fun h => ?_,
    fun h => decode_encode_ne_ok (Laws.EncodesItsRow.hrGet sel) (decide_eq_false (Nat.not_lt.mpr h))⟩
  simp only [← map_get_hrFields, List.getElem_map]
  exact exec_hrGet_of_lt h

/-- Settles O56: the lists of the statement are the widths and the writes of `hrFields`, one by one. -/
theorem hrSetWritesTheField : Obligations.HrSetWritesTheField := by
  unfold Obligations.HrSetWritesTheField
  intro s sel v
  simp only [← map_put_hrFields, ← map_hrWidth_hrFields, List.getElem_map]
  exact ⟨commandWord_eq_word 0x71 0 sel v, exec_hrSet_of_fits, exec_hrSet_of_wide,
    fun h => decode_encode_ne_ok (Laws.EncodesItsRow.hrSet sel v) (decide_eq_false (Nat.not_lt.mpr h))⟩

end Sys2Proof.Machine
end

section
/-!
PROOFS. Errors and response codes (R72, R230, R233, R235, R236). The key fact is what a command that decodes can end in: a success,
whose body left the responses as it found them, or one of the five causes of R233; so every command word answers with the code of OK
or leaves `err` of the state it found.
-/

namespace Sys2Proof.Machine

open Sys2Proof.Statement

/-! ### The causes of the shared checks -/

/-- The causes a command that decodes can end with, the five of R233: InvalidPriority is never raised (R152), and IllegalCommand
belongs to the words that do not decode (R80). -/
def commandCauses : List Cause :=
  [.malformedHeader, .truncatedBlock, .checksumMismatch, .malformedPayload, .rangeError]

/-- Every error of the computation is one of `commandCauses`. -/
def RaisesCommandCause {α : Type} (x : Except Cause α) : Prop := ∀ e, x = .error e → e ∈ commandCauses

theorem raisesCommandCause_ok {α : Type} {y : α} : RaisesCommandCause (.ok y) := nofun

theorem raisesCommandCause_error {α : Type} {e : Cause} (he : e ∈ commandCauses) :
    RaisesCommandCause (.error e : Except Cause α) := by
  rintro _ ⟨⟩
  exact he

section
variable {m : SizeClass} {s : State}

theorem raisesCommandCause_raiseIf {c : Prop} [Decidable c] {e : Cause} (he : e ∈ commandCauses) :
    RaisesCommandCause (raiseIf c e) := by
  unfold raiseIf
  split
  · exact raisesCommandCause_error he
  · exact raisesCommandCause_ok

theorem raisesCommandCause_requireHeader : RaisesCommandCause (requireHeader m s) :=
  raisesCommandCause_raiseIf (by decide)

theorem raisesCommandCause_classOf {c : Config} {code : BitVec 2} : RaisesCommandCause (classOf c code) := by
  intro e he
  obtain ⟨-, rfl⟩ := classOf_eq_error.mp he
  decide

theorem raisesCommandCause_wireClass : RaisesCommandCause (wireClass s) := by
  intro e he
  obtain rfl := wireClass_eq_error he
  decide

theorem raisesCommandCause_requireClass {c : Config} {code : BitVec 2} : RaisesCommandCause (requireClass c code m) := by
  intro e he
  obtain rfl := requireClass_eq_error he
  decide

theorem raisesCommandCause_requireSerializable {c : Config} {bc : List Block} :
    RaisesCommandCause (requireSerializable c m bc) := by
  intro e he
  obtain rfl := requireSerializable_eq_error he
  decide

theorem raisesCommandCause_parse {c : Config} {p : List Byte} : RaisesCommandCause (parse c m p) := by
  intro e he
  rcases parse_eq_error he with rfl | rfl | rfl <;> decide

theorem raisesCommandCause_blk {off : Nat} : RaisesCommandCause (blk m off s) := by
  intro e he
  rcases blk_eq_error.mp he with ⟨-, rfl⟩ | ⟨-, -, rfl⟩ <;> decide

theorem raisesCommandCause_nextOffset {off : Nat} {b : SubHeader} : RaisesCommandCause (nextOffset m off b) := by
  cases m with
  | full => exact raisesCommandCause_ok
  | micro =>
    rw [nextOffset_micro]
    split
    · exact raisesCommandCause_error (by decide)
    · split <;> exact raisesCommandCause_ok

theorem raisesCommandCause_blockAt {idx : BitVec 20} : RaisesCommandCause (blockAt idx s) := by
  intro e he
  obtain ⟨-, rfl⟩ := blockAt_eq_error.mp he
  decide

theorem raisesCommandCause_byteAt {i : BitVec 32} {b : Block} : RaisesCommandCause (byteAt i b) := by
  intro e he
  obtain ⟨-, rfl⟩ := byteAt_eq_error.mp he
  decide

/-- The selectors of `HR` in the table of R79 raise nothing. -/
theorem raisesCommandCause_hrField {sel : BitVec 20} (h : sel.toNat < 9) : RaisesCommandCause (hrField sel) := by
  rw [hrField_of_lt h]
  exact raisesCommandCause_ok

/-- The selectors of `SYS_GET` in the table of R79 raise nothing. -/
theorem raisesCommandCause_sysLength {sel : BitVec 20} (h : sel.toNat < 3) : RaisesCommandCause (sysLength sel s) := by
  obtain ⟨v, hv⟩ : ∃ v, sysLength sel s = .ok v := by
    have hsel : sel.toNat = 0 ∨ sel.toNat = 1 ∨ sel.toNat = 2 := by omega
    rcases hsel with hsel | hsel | hsel
    · exact ⟨_, sysLength_of_eq_zero hsel⟩
    · exact ⟨_, sysLength_of_eq_one hsel⟩
    · exact ⟨_, sysLength_of_eq_two hsel⟩
  rw [hv]
  exact raisesCommandCause_ok

/-! ### The two ends of a command body -/

/-- What the body of a command that decodes can end in: a success that leaves the responses as it found them, or one of
`commandCauses`. -/
structure BodyEnds (s : State) (r : Result) : Prop where
  keepsResponses : LeavesOnSuccess (fun t => t.responses = s.responses) r
  raises : RaisesCommandCause r

theorem bodyEnds_ok {t : State} {v : BitVec 32} (h : t.responses = s.responses) : BodyEnds s (.ok (t, v)) :=
  ⟨leavesOnSuccess_ok h, raisesCommandCause_ok⟩

theorem bodyEnds_bind {β : Type} {x : Except Cause β} {f : β → Result} (hx : RaisesCommandCause x)
    (hf : ∀ y, BodyEnds s (f y)) : BodyEnds s (x >>= f) := by
  refine ⟨leavesOnSuccess_bind fun y => (hf y).keepsResponses, fun e he => ?_⟩
  rcases bind_eq_error.mp he with hxe | ⟨y, -, hfe⟩
  · exact hx e hxe
  · exact (hf y).raises e hfe

theorem bodyEnds_check {c : Prop} [Decidable c] {e : Cause} {f : Unit → Result} (he : e ∈ commandCauses)
    (hf : ∀ y, BodyEnds s (f y)) : BodyEnds s (raiseIf c e >>= f) :=
  bodyEnds_bind (raisesCommandCause_raiseIf he) hf

theorem bodyEnds_header {f : Unit → Result} (hf : ∀ y, BodyEnds s (f y)) : BodyEnds s (requireHeader m s >>= f) :=
  bodyEnds_bind raisesCommandCause_requireHeader hf

theorem bodyEnds_getField {f : WireField} : BodyEnds s (getField f m s) := bodyEnds_header fun _ => bodyEnds_ok rfl

theorem bodyEnds_setField {f : WireField} {v : BitVec 32} : BodyEnds s (setField f m v s) :=
  bodyEnds_header fun _ => bodyEnds_check (by decide) fun _ => bodyEnds_ok rfl

end

/-- A well-formed command other than `STATUS_GET` finishes a body with these ends, its errors wrapped for `LOAD` alone (R233).
The cases are grouped by the checks of their bodies. -/
theorem exec_eq_finish_bodyEnds {i : Instr} (s : State) (hi : i ≠ .statusGet) (hwf : i.wellFormed = true) :
    ∃ r, exec i s = .next (s.finish (decide (i = .load)) r) ∧ BodyEnds s r := by
  cases i with
  | statusGet => exact absurd rfl hi
  | nop | reset | statusClr | blkClear | dbClear => exact ⟨_, rfl, bodyEnds_ok rfl⟩
  | getHopLimit | getHeartRate | getSrc | getDst | getLen | getChecksum => exact ⟨_, rfl, bodyEnds_getField⟩
  | setHeartRate | setSrc | setDst | setLen | setChecksum => exact ⟨_, rfl, bodyEnds_setField⟩
  | cksumCompute | cksumStamp | getPriority | setPriority | addHopLimit =>
    exact ⟨_, rfl, bodyEnds_header fun _ => bodyEnds_ok rfl⟩
  | cksumVerify =>
    exact ⟨_, rfl, bodyEnds_header fun _ => bodyEnds_check (by decide) fun _ => bodyEnds_ok rfl⟩
  | fbRead | fbSetlen | dbPush => exact ⟨_, rfl, bodyEnds_check (by decide) fun _ => bodyEnds_ok rfl⟩
  | fbWrite => exact ⟨_, rfl, bodyEnds_check (by decide) fun _ => bodyEnds_ok (State.extendAt_responses _ _)⟩
  | blkAppend =>
    exact ⟨_, rfl, bodyEnds_check (by decide) fun _ => bodyEnds_check (by decide) fun _ =>
      bodyEnds_check (by decide) fun _ => bodyEnds_ok rfl⟩
  | hdrPack =>
    exact ⟨_, rfl, bodyEnds_bind raisesCommandCause_requireClass fun _ => bodyEnds_check (by decide) fun _ =>
      bodyEnds_ok (State.coverHeader_responses s _)⟩
  | hdrUnpack =>
    exact ⟨_, rfl, bodyEnds_header fun _ => bodyEnds_bind raisesCommandCause_requireClass fun _ => bodyEnds_ok rfl⟩
  | blkSerialize =>
    exact ⟨_, rfl, bodyEnds_bind raisesCommandCause_requireSerializable fun _ => bodyEnds_ok rfl⟩
  | blkDeserialize =>
    exact ⟨_, rfl, bodyEnds_header fun _ => bodyEnds_check (by decide) fun _ => bodyEnds_check (by decide) fun _ =>
      bodyEnds_bind raisesCommandCause_parse fun _ => bodyEnds_ok rfl⟩
  | isMicro => exact ⟨_, rfl, bodyEnds_bind raisesCommandCause_wireClass fun _ => bodyEnds_ok rfl⟩
  | getBlockNext =>
    exact ⟨_, rfl, bodyEnds_bind raisesCommandCause_blk fun _ => bodyEnds_bind raisesCommandCause_nextOffset fun _ =>
      bodyEnds_ok rfl⟩
  | getBlockLen => exact ⟨_, rfl, bodyEnds_bind raisesCommandCause_blk fun _ => bodyEnds_ok rfl⟩
  | getBlockData =>
    exact ⟨_, rfl, bodyEnds_bind raisesCommandCause_blk fun _ => bodyEnds_check (by decide) fun _ => bodyEnds_ok rfl⟩
  | dump =>
    exact ⟨_, rfl, bodyEnds_bind raisesCommandCause_classOf fun _ =>
      bodyEnds_bind raisesCommandCause_requireSerializable fun _ => bodyEnds_check (by decide) fun _ => bodyEnds_ok rfl⟩
  | load =>
    exact ⟨_, rfl, bodyEnds_bind raisesCommandCause_wireClass fun _ => bodyEnds_header fun _ =>
      bodyEnds_check (by decide) fun _ => bodyEnds_check (by decide) fun _ => bodyEnds_check (by decide) fun _ =>
      bodyEnds_bind raisesCommandCause_parse fun _ => bodyEnds_ok rfl⟩
  | sysGet =>
    exact ⟨_, rfl, bodyEnds_bind (raisesCommandCause_sysLength (of_decide_eq_true hwf)) fun _ => bodyEnds_ok rfl⟩
  | hrGet =>
    exact ⟨_, rfl, bodyEnds_bind (raisesCommandCause_hrField (of_decide_eq_true hwf)) fun _ => bodyEnds_ok rfl⟩
  | hrSet =>
    exact ⟨_, rfl, bodyEnds_bind (raisesCommandCause_hrField (of_decide_eq_true hwf)) fun _ =>
      bodyEnds_check (by decide) fun _ => bodyEnds_ok rfl⟩
  | blkType | blkLen => exact ⟨_, rfl, bodyEnds_bind raisesCommandCause_blockAt fun _ => bodyEnds_ok rfl⟩
  | blkByte =>
    exact ⟨_, rfl, bodyEnds_bind raisesCommandCause_blockAt fun _ => bodyEnds_bind raisesCommandCause_byteAt fun _ =>
      bodyEnds_ok rfl⟩

/-! ### The two ends of a command word -/

section
variable {w : CommandWord} {i : Instr} {s t : State}

theorem wellFormed_of_decode_eq_ok (h : decode w = .ok i) : i.wellFormed = true := by
  obtain ⟨r, -, hrow⟩ := decode_eq_ok.mp h
  obtain ⟨-, -, -, -, -, hwf⟩ := decodeRow_eq_ok.mp hrow
  exact hwf

/-- The answer of a command whose selector is in the table: the code of OK, or `err` of the state it found. -/
theorem exec_response_cases (hwf : i.wellFormed = true) (h : exec i s = .next t) :
    (∃ v, t.responses = s.responses ++ [reply 0x00 v]) ∨
    (∃ e ∈ commandCauses, t = err s (responseCode (decide (i = .load)) e.code)) := by
  by_cases hi : i = .statusGet
  · subst hi
    obtain rfl : s.respond false 0 s.status.word = t := by simpa [exec_statusGet] using h
    exact .inl ⟨_, rfl⟩
  · obtain ⟨r, hr, hends⟩ := exec_eq_finish_bodyEnds s hi hwf
    obtain rfl : t = s.finish (decide (i = .load)) r := by simpa [hr, eq_comm] using h
    rcases s.finish_cases (decide (i = .load)) r with ⟨u, v, hok, hfinish⟩ | ⟨e, herror, hfinish⟩
    · refine .inl ⟨v, ?_⟩
      rw [hfinish, State.succeed_responses, hends.keepsResponses u v hok]
      rfl
    · exact .inr ⟨e, hends.raises e herror, by rw [hfinish, State.raise_eq_err]⟩

/-- The answer of any command word: the code of OK, a cause raised by the command it decodes to, or IllegalCommand where it does
not decode (R80). -/
theorem execWord_response_cases (h : execWord w s = .next t) :
    (∃ i v, decode w = .ok i ∧ t.responses = s.responses ++ [reply 0x00 v]) ∨
    (∃ i, decode w = .ok i ∧ ∃ e ∈ commandCauses, t = err s (responseCode (decide (i = .load)) e.code)) ∨
    ((∀ i, decode w ≠ .ok i) ∧ t = err s 0x07) := by
  cases hw : decode w with
  | ok i =>
    rw [execWord_of_ok hw] at h
    rcases exec_response_cases (wellFormed_of_decode_eq_ok hw) h with ⟨v, hv⟩ | herr
    · exact .inl ⟨i, v, rfl, hv⟩
    · exact .inr (.inl ⟨i, rfl, herr⟩)
  | error reject =>
    obtain rfl : s.raise false .illegalCommand = t := by simpa [execWord_of_error hw, answerIllegal] using h
    exact .inr (.inr ⟨nofun, State.raise_eq_err s false .illegalCommand⟩)

end

/-- Settles O9: every error of `execWord_response_cases` is `err` of the state the command found. -/
theorem errorChangesNothingButStatus : Obligations.ErrorChangesNothingButStatus := by
  unfold Obligations.ErrorChangesNothingButStatus
  intro w s t h
  rcases execWord_response_cases h with ⟨-, v, -, hv⟩ | ⟨-, -, -, -, rfl⟩ | ⟨-, rfl⟩
  · exact ⟨0x00, v, hv, fun hcause => absurd rfl hcause⟩
  · exact ⟨_, 0, rfl, fun _ => rfl⟩
  · exact ⟨_, 0, rfl, fun _ => rfl⟩

/-! ### The response codes -/

/-- R233: the five causes are those whose code `LOAD` wraps. -/
theorem code_mem_of_mem_commandCauses : ∀ e ∈ commandCauses, e.code ∈ [1#4, 2#4, 3#4, 5#4, 6#4] := by decide

/-- R230: the response codes of the five causes, bare and wrapped. -/
theorem responseCode_mem_of_mem_commandCauses : ∀ de, ∀ e ∈ commandCauses, responseCode de e.code ∈
    [0x00#8, 0x01#8, 0x02#8, 0x03#8, 0x05#8, 0x06#8, 0x07#8, 0x81#8, 0x82#8, 0x83#8, 0x85#8, 0x86#8] := by decide

/-- R233: a command that raises one of the five causes wraps it exactly when it is `LOAD`. -/
theorem responseCode_msb_iff_load {w : CommandWord} {i : Instr} {e : Cause} (hw : decode w = .ok i)
    (he : e ∈ commandCauses) :
    (responseCode (decide (i = .load)) e.code).msb = true ↔ decode w = .ok .load ∧
      causeOf (responseCode (decide (i = .load)) e.code) ∈ [1#4, 2#4, 3#4, 5#4, 6#4] := by
  rw [responseCode_msb, causeOf_responseCode, decide_eq_true_iff, hw, Except.ok.injEq]
  exact (and_iff_left (code_mem_of_mem_commandCauses e he)).symm

/-- Settles O8: the code of each end of `execWord_response_cases`, and `LASTDE` by the rule of R32. -/
theorem responseCodesAndTheWrapper : Obligations.ResponseCodesAndTheWrapper := by
  unfold Obligations.ResponseCodesAndTheWrapper
  intro w s t h
  have hlastDE {code v} (hr : t.responses = s.responses ++ [reply code v]) (hget : decode w ≠ .ok .statusGet) :
      t.status.lastDE = code.msb := by
    obtain ⟨-, hupdate⟩ := statusUpdateOfEveryCommand w s t code v h hr
    obtain ⟨-, hde, -⟩ := hupdate hget
    exact hde
  rcases execWord_response_cases h with ⟨i, v, hw, hv⟩ | ⟨i, hw, e, he, rfl⟩ | ⟨hill, rfl⟩
  case inl =>
    exact ⟨0x00, v, hv, by decide, fun hne => absurd rfl hne, fun hill => absurd hw (hill i),
      iff_of_false (by decide) fun ⟨_, hmem⟩ => absurd hmem (by decide), hlastDE hv⟩
  case inr.inl =>
    exact ⟨_, 0, rfl, responseCode_mem_of_mem_commandCauses _ e he, fun _ => rfl, fun hill => absurd hw (hill i),
      responseCode_msb_iff_load hw he, hlastDE rfl⟩
  case inr.inr =>
    exact ⟨0x07, 0, rfl, by decide, fun _ => rfl, fun _ => rfl,
      iff_of_false (by decide) fun ⟨hload, _⟩ => hill _ hload, hlastDE rfl⟩

end Sys2Proof.Machine
end

section
/-!
PROOFS. Encoding and decoding are inverse to each other (R73, R74, R83). One direction is that the decoder finds the row of a command
for its word; the other that the command a row builds is encoded as the row's opcode with the operands the row uses, every other
field zero, which is what the checks of R73 demand of the word.
-/

namespace Sys2Proof

/-! ### Decode after encode -/

/-- R74, R83: the word of every command holds the operands of the row the decoder finds for it. -/
theorem encodesItsRow (i : Instr) : Laws.EncodesItsRow.Statement i := by
  cases i with
  | nop => exact Laws.EncodesItsRow.nop
  | reset => exact Laws.EncodesItsRow.reset
  | statusGet => exact Laws.EncodesItsRow.statusGet
  | statusClr => exact Laws.EncodesItsRow.statusClr
  | sysGet => exact Laws.EncodesItsRow.sysGet _
  | hdrPack => exact Laws.EncodesItsRow.hdrPack _
  | hdrUnpack => exact Laws.EncodesItsRow.hdrUnpack _
  | cksumCompute => exact Laws.EncodesItsRow.cksumCompute _
  | cksumStamp => exact Laws.EncodesItsRow.cksumStamp _
  | cksumVerify => exact Laws.EncodesItsRow.cksumVerify _
  | blkAppend => exact Laws.EncodesItsRow.blkAppend _
  | blkClear => exact Laws.EncodesItsRow.blkClear
  | blkSerialize => exact Laws.EncodesItsRow.blkSerialize _
  | blkDeserialize => exact Laws.EncodesItsRow.blkDeserialize _
  | getPriority => exact Laws.EncodesItsRow.getPriority _
  | setPriority => exact Laws.EncodesItsRow.setPriority _ _
  | getHopLimit => exact Laws.EncodesItsRow.getHopLimit _
  | addHopLimit => exact Laws.EncodesItsRow.addHopLimit _
  | getHeartRate => exact Laws.EncodesItsRow.getHeartRate _
  | setHeartRate => exact Laws.EncodesItsRow.setHeartRate _ _
  | getSrc => exact Laws.EncodesItsRow.getSrc _
  | setSrc => exact Laws.EncodesItsRow.setSrc _ _
  | getDst => exact Laws.EncodesItsRow.getDst _
  | setDst => exact Laws.EncodesItsRow.setDst _ _
  | getLen => exact Laws.EncodesItsRow.getLen _
  | setLen => exact Laws.EncodesItsRow.setLen _ _
  | getChecksum => exact Laws.EncodesItsRow.getChecksum _
  | setChecksum => exact Laws.EncodesItsRow.setChecksum _ _
  | isMicro => exact Laws.EncodesItsRow.isMicro
  | getBlockNext => exact Laws.EncodesItsRow.getBlockNext _ _
  | getBlockLen => exact Laws.EncodesItsRow.getBlockLen _ _
  | getBlockData => exact Laws.EncodesItsRow.getBlockData _ _
  | dump => exact Laws.EncodesItsRow.dump
  | load => exact Laws.EncodesItsRow.load
  | hrGet => exact Laws.EncodesItsRow.hrGet _
  | hrSet => exact Laws.EncodesItsRow.hrSet _ _
  | fbRead => exact Laws.EncodesItsRow.fbRead _
  | fbWrite => exact Laws.EncodesItsRow.fbWrite _ _
  | fbSetlen => exact Laws.EncodesItsRow.fbSetlen _
  | dbClear => exact Laws.EncodesItsRow.dbClear
  | dbPush => exact Laws.EncodesItsRow.dbPush _
  | blkType => exact Laws.EncodesItsRow.blkType _
  | blkLen => exact Laws.EncodesItsRow.blkLen _
  | blkByte => exact Laws.EncodesItsRow.blkByte _ _

/-- Settles O2: the row the decoder finds for the word accepts it and builds the command back. -/
theorem decodeOfEncodeIsTheInstruction : Obligations.DecodeOfEncodeIsTheInstruction := by
  unfold Obligations.DecodeOfEncodeIsTheInstruction
  intro i hwf
  obtain ⟨r, hfind, hzero, hm, ha, hv, hbuild⟩ := encodesItsRow i
  exact decode_eq_ok.mpr ⟨r, hfind, decodeRow_eq_ok.mpr ⟨hzero, hm, ha, hv, hbuild.symm, hwf⟩⟩

/-! ### Encode after decode -/

/-- R83: the field of an operand in the word of a row, zero where the row does not use the operand. -/
def usedField {n : Nat} (used : Bool) (x : BitVec n) : BitVec n := if used then x else 0#n

theorem usedField_eq_self {n : Nat} {used : Bool} {x : BitVec n} (h : used = false → x = 0#n) : usedField used x = x := by
  cases used with
  | true => rfl
  | false => exact (h rfl).symm

/-- R83: the command a row builds is encoded as the row's opcode and the operands the row uses. -/
theorem encode_build {r : OpcodeRow} (hr : r ∈ opcodeMap) (m : SizeClass) (a : BitVec 20) (v : BitVec 32) :
    encode (r.build m a v) =
      commandWord r.op (usedField r.usesM (classBit m)) (usedField r.usesA a) (usedField r.usesV v) := by
  have hall : ∀ q ∈ opcodeMap, encode (q.build m a v) =
      commandWord q.op (usedField q.usesM (classBit m)) (usedField q.usesA a) (usedField q.usesV v) := by
    simp only [opcodeMap, opcodeMapLow, opcodeMapAccessors, opcodeMapHigh, List.cons_append, List.nil_append,
      List.forall_mem_cons, List.not_mem_nil, false_imp_iff, implies_true, and_true]
    and_intros <;> rfl
  exact hall r hr

/-- Settles O3: the row that accepts the word has the word's opcode, and the fields it does not use are zero in the word. -/
theorem encodeOfDecodeIsTheWord : Obligations.EncodeOfDecodeIsTheWord := by
  unfold Obligations.EncodeOfDecodeIsTheWord
  intro w i h
  obtain ⟨r, hr, hop, hrow⟩ := decode_eq_ok_iff_row.mp h
  obtain ⟨hzero, hm, ha, hv, rfl, hwf⟩ := decodeRow_eq_ok.mp hrow
  refine ⟨?_, hwf⟩
  rw [encode_build hr, classBit_classOfBit, usedField_eq_self hm, usedField_eq_self ha, usedField_eq_self hv, hop,
    commandWord_fields w hzero]

/-! ### The words of the test vectors -/

/-- Settles O1: the twelve legal words are the words of well-formed commands (R83), and each illegal one fails the item of R73
it stands for. -/
theorem specWordsDecode : Obligations.SpecWordsDecode := by
  unfold Obligations.SpecWordsDecode
  have hlegal {i : Instr} {w : CommandWord} (hw : encode i = w) (hwf : i.wellFormed = true) : decode w = .ok i :=
    hw ▸ decodeOfEncodeIsTheInstruction i hwf
  exact ⟨hlegal rfl rfl, hlegal rfl rfl, hlegal rfl rfl, hlegal rfl rfl, hlegal rfl rfl, hlegal rfl rfl, hlegal rfl rfl,
    hlegal rfl rfl, hlegal rfl rfl, hlegal rfl rfl, hlegal rfl rfl, hlegal rfl rfl, rfl, rfl, rfl, rfl, rfl, rfl⟩

end Sys2Proof
end

section
/-!
PROOFS. What every command leaves unchanged (R21, R26, R27, R31) and what it does to `CKV`, and that every command word takes one step
and gives one response (R4, R6, R70). The key fact is the frame of a command: the body of its success writes the parts of the state
that `effects` lists, and neither end of a command writes any other part but `STATUS` and the responses.
-/

namespace Sys2Proof.Machine

open Sys2Proof.Statement

/-! ### The two ends of a command -/

/-- The command finishes a result, its errors wrapped for `LOAD` alone (R233), each success of which leaves a state with `P`. -/
def Leaves (P : State → Prop) (i : Instr) (s : State) : Prop :=
  ∃ r, exec i s = .next (s.finish (decide (i = .load)) r) ∧ LeavesOnSuccess P r

theorem exec_cases_of_leaves {P : State → Prop} {i : Instr} {s u : State} (hleaves : Leaves P i s)
    (h : exec i s = .next u) :
    (∃ (t : State) (v : BitVec 32), u = t.succeed v ∧ P t) ∨ (∃ e, u = s.raise (decide (i = .load)) e) := by
  obtain ⟨r, hr, hP⟩ := hleaves
  obtain rfl : u = s.finish (decide (i = .load)) r := by simpa [hr, eq_comm] using h
  rcases s.finish_cases (decide (i = .load)) r with ⟨t, v, hok, hu⟩ | ⟨e, -, hu⟩
  · exact .inl ⟨t, v, hu, hP t v hok⟩
  · exact .inr ⟨e, hu⟩

/-! ### The frame of a command -/

/-- `s` with the listed parts, the status register and the responses of `t`. -/
def framed (e : Effects) (s t : State) : State :=
  { s with
    hr := if e.hr then t.hr else s.hr
    bc := if e.bc then t.bc else s.bc
    db := if e.db then t.db else s.db
    fb := if e.fb then t.fb else s.fb
    flen := if e.fb then t.flen else s.flen
    status := t.status
    responses := t.responses }

/-- `t` differs from `s` in the listed parts of the state, the status register and the responses at most. -/
def Frame (e : Effects) (s t : State) : Prop := t = framed e s t

/-- A part that is kept unless it is listed. -/
theorem eq_ite_self_iff {α : Type} {written : Bool} {x y : α} :
    (x = if written then x else y) ↔ (written = false → x = y) := by
  cases written <;> simp

theorem frame_iff {e : Effects} {s t : State} :
    Frame e s t ↔ t.commands = s.commands ∧ t.config = s.config ∧ (e.hr = false → t.hr = s.hr) ∧
      (e.bc = false → t.bc = s.bc) ∧ (e.db = false → t.db = s.db) ∧
      (e.fb = false → t.flen = s.flen ∧ t.fb = s.fb) := by
  obtain ⟨hr, bc, db, fb, flen, status, config, commands, responses⟩ := t
  simp only [Frame, framed, State.mk.injEq, eq_ite_self_iff]
  constructor
  · rintro ⟨hhr, hbc, hdb, hfb, hflen, -, hconfig, hcommands, -⟩
    exact ⟨hcommands, hconfig, hhr, hbc, hdb, fun he => ⟨hflen he, hfb he⟩⟩
  · rintro ⟨hcommands, hconfig, hhr, hbc, hdb, hmem⟩
    exact ⟨hhr, hbc, hdb, fun he => (hmem he).2, fun he => (hmem he).1, trivial, hconfig, hcommands, trivial⟩

/-- The body of every command but `STATUS_GET` writes the parts `effects` lists. The cases are grouped by the number of checks and
reads before the command's writes. -/
theorem leaves_frame {i : Instr} (s : State) (hi : i ≠ .statusGet) : Leaves (Frame (effects i) s) i s := by
  cases i with
  | statusGet => exact absurd rfl hi
  | nop | reset | statusClr | blkClear | dbClear => exact ⟨_, rfl, leavesOnSuccess_ok rfl⟩
  | getHopLimit | getHeartRate | getSrc | getDst | getLen | getChecksum =>
    exact ⟨_, rfl, leavesOnSuccess_getField rfl⟩
  | setHeartRate | setSrc | setDst | setLen | setChecksum => exact ⟨_, rfl, leavesOnSuccess_setField rfl⟩
  | sysGet | cksumCompute | cksumStamp | blkSerialize | getPriority | setPriority | addHopLimit | isMicro | getBlockLen
  | hrGet | fbRead | fbSetlen | dbPush | blkType | blkLen =>
    exact ⟨_, rfl, leavesOnSuccess_bind fun _ => leavesOnSuccess_ok rfl⟩
  | fbWrite =>
    exact ⟨_, rfl, leavesOnSuccess_bind fun _ => leavesOnSuccess_ok (by rw [State.extendAt_eq]; rfl)⟩
  | hdrPack =>
    exact ⟨_, rfl, leavesOnSuccess_bind fun _ => leavesOnSuccess_bind fun _ =>
      leavesOnSuccess_ok (by rw [State.coverHeader_eq]; rfl)⟩
  | hdrUnpack | cksumVerify | getBlockNext | getBlockData | hrSet | blkByte =>
    exact ⟨_, rfl, leavesOnSuccess_bind fun _ => leavesOnSuccess_bind fun _ => leavesOnSuccess_ok rfl⟩
  | blkAppend | dump =>
    exact ⟨_, rfl, leavesOnSuccess_bind fun _ => leavesOnSuccess_bind fun _ => leavesOnSuccess_bind fun _ =>
      leavesOnSuccess_ok rfl⟩
  | blkDeserialize =>
    exact ⟨_, rfl, leavesOnSuccess_bind fun _ => leavesOnSuccess_bind fun _ => leavesOnSuccess_bind fun _ =>
      leavesOnSuccess_bind fun _ => leavesOnSuccess_ok rfl⟩
  | load =>
    exact ⟨_, rfl, leavesOnSuccess_bind fun _ => leavesOnSuccess_bind fun _ => leavesOnSuccess_bind fun _ =>
      leavesOnSuccess_bind fun _ => leavesOnSuccess_bind fun _ => leavesOnSuccess_bind fun _ =>
      leavesOnSuccess_ok rfl⟩

section
variable {i : Instr} {s t : State}

/-- What every command leaves unchanged, whatever it ends in. -/
theorem exec_frame (h : exec i s = .next t) : Frame (effects i) s t := by
  by_cases hi : i = .statusGet
  · subst hi
    obtain rfl : s.respond false 0 s.status.word = t := by simpa [exec_statusGet] using h
    rfl
  · rcases exec_cases_of_leaves (leaves_frame s hi) h with ⟨x, v, rfl, hx⟩ | ⟨e, rfl⟩
    · exact frame_iff.mpr (by simpa using frame_iff.mp hx)
    · exact frame_iff.mpr (by simp)

/-- Settles O17: the frame of the command, field by field. -/
theorem onlyTheListedCommandsWrite : Obligations.OnlyTheListedCommandsWrite := by
  unfold Obligations.OnlyTheListedCommandsWrite
  intro i s t h
  obtain ⟨hcommands, hconfig, hhr, hbc, hdb, hfb⟩ := frame_iff.mp (exec_frame h)
  refine ⟨hcommands, hconfig, hhr, hbc, hdb, fun he => ?_⟩
  obtain ⟨hflen, hmem⟩ := hfb he
  exact ⟨hflen, fun a => by rw [hmem]⟩

/-! ### `CKV` -/

theorem bodyStatus_ckv (i : Instr) (st : Status) : (bodyStatus i st).ckv = (effects i).ckv.getD st.ckv := by
  unfold bodyStatus
  split <;> rfl

/-- R236: an error leaves `CKV` but for ChecksumMismatch, which clears it. -/
theorem State.raise_status_ckv (s : State) (de : Bool) (e : Cause) :
    (s.raise de e).status.ckv = (s.status.ckv && e.code != 3) := by
  rw [State.raise_status, State.refute_record_status]

/-- R31: what a command does to `CKV`, by how it ends. -/
theorem exec_ckv_cases (h : exec i s = .next t) :
    (∃ (x : State) (v : BitVec 32), t.responses = x.responses ++ [responseWord false 0 v] ∧
      t.status.ckv = (effects i).ckv.getD s.status.ckv) ∨
    (∃ e, t = s.raise (decide (i = .load)) e) := by
  by_cases hi : i = .statusGet
  · subst hi
    obtain rfl : s.respond false 0 s.status.word = t := by simpa [exec_statusGet] using h
    exact .inl ⟨s, _, rfl, rfl⟩
  · rcases exec_status_cases hi h with ⟨x, v, rfl, hx⟩ | herror
    · refine .inl ⟨x, v, rfl, ?_⟩
      rw [State.succeed_status, Status.record_ckv, hx, bodyStatus_ckv]
    · exact .inr herror

/-- Settles O11: the two ends of `exec_ckv_cases`, told apart by the cause the response carries. -/
theorem ckvUpdateOfEveryCommand : Obligations.CkvUpdateOfEveryCommand := by
  unfold Obligations.CkvUpdateOfEveryCommand
  intro i s t code v h hr
  rcases exec_ckv_cases h with ⟨x, w, hx, hckv⟩ | ⟨e, rfl⟩
  · obtain ⟨hcause, -⟩ := outcome_eq_of_responses_eq (hx.symm.trans hr)
    refine ⟨fun _ => hckv, fun h3 => ?_, fun h0 => absurd hcause h0⟩
    exact absurd (hcause.symm.trans h3) (by decide)
  · rw [State.raise_responses] at hr
    obtain ⟨hcause, -⟩ := outcome_eq_of_responses_eq hr
    rw [State.raise_status_ckv, hcause]
    exact ⟨fun h0 => absurd h0 e.code_ne_zero, fun h3 => by simp [h3], fun _ h3 => by rw [bne_iff_ne.mpr h3, Bool.and_true]⟩

end

/-! ### One step for one command word -/

section
variable {s t : State} {w : CommandWord} {rest : List CommandWord}

/-- R4, R36: the oldest presented word is taken and executed. -/
theorem step_of_commands_eq_cons (h : s.commands = w :: rest) : step s = execWord w { s with commands := rest } := by
  rw [step, State.takeCommand_cons h]

theorem step_of_commands_eq_nil (h : s.commands = []) : step s = .next s := by
  rw [step, State.takeCommand_nil h]

/-- Settles O5: the word is taken and the command it decodes to is executed. -/
theorem stepRunsTheDecodedCommand : Obligations.StepRunsTheDecodedCommand := by
  unfold Obligations.StepRunsTheDecodedCommand
  refine ⟨fun s w rest i hs hw => ?_, fun s => step_of_commands_eq_nil⟩
  rw [step_of_commands_eq_cons hs, execWord_of_ok hw]

/-- R80: what a word that does not decode leaves. -/
theorem execWord_of_illegal (h : ∀ i, decode w ≠ .ok i) (s : State) : execWord w s = .next (err s 0x07) := by
  cases hw : decode w with
  | ok i => exact absurd hw (h i)
  | error reject =>
    rw [execWord_of_error hw, answerIllegal, State.raise_eq_err]
    rfl

/-- Settles O6: the word is taken and raises IllegalCommand. -/
theorem stepAnswersAnIllegalWord : Obligations.StepAnswersAnIllegalWord := by
  unfold Obligations.StepAnswersAnIllegalWord
  intro s w rest hs hill
  rw [step_of_commands_eq_cons hs, execWord_of_illegal hill]

/-- A command word leaves the words that wait behind it and gives exactly one response. -/
theorem execWord_commands_responses (h : execWord w s = .next t) :
    t.commands = s.commands ∧ ∃ r, t.responses = s.responses ++ [r] := by
  rcases execWord_response_cases h with ⟨i, v, hw, hv⟩ | ⟨-, -, -, -, rfl⟩ | ⟨-, rfl⟩
  · rw [execWord_of_ok hw] at h
    obtain ⟨hcommands, -⟩ := frame_iff.mp (exec_frame h)
    exact ⟨hcommands, _, hv⟩
  · exact ⟨rfl, _, rfl⟩
  · exact ⟨rfl, _, rfl⟩

theorem step_commands_responses (hs : s.commands = w :: rest) :
    ∃ t r, step s = .next t ∧ t.commands = rest ∧ t.responses = s.responses ++ [r] := by
  obtain ⟨t, ht⟩ := execWord_next w { s with commands := rest }
  obtain ⟨hcommands, r, hr⟩ := execWord_commands_responses ht
  exact ⟨t, r, (step_of_commands_eq_cons hs).trans ht, hcommands, hr⟩

end

theorem core_run_succ {k : Nat} {s t : State} (h : step s = .next t) : core.run (k + 1) s = core.run k t := by
  have hstep : core.step s = .next t := h
  simp only [Host.Core.run]
  rw [hstep]

/-- Settles O7, by induction on the number of steps: each takes one word and gives one response. -/
theorem everyCommandWordGetsOneResponse : Obligations.EveryCommandWordGetsOneResponse := by
  unfold Obligations.EveryCommandWordGetsOneResponse
  intro k
  induction k with
  | zero => exact fun s _ => ⟨s, [], rfl, rfl, (List.append_nil _).symm, rfl⟩
  | succ k ih =>
    intro s hk
    obtain ⟨w, rest, hs⟩ := List.exists_cons_of_length_pos (Nat.zero_lt_of_lt hk)
    obtain ⟨t, r, hstep, ht, hr⟩ := step_commands_responses hs
    rw [hs, List.length_cons] at hk
    obtain ⟨u, rs, hrun, hu, hrs, hlen⟩ := ih t (by rw [ht]; omega)
    refine ⟨u, r :: rs, (core_run_succ hstep).trans hrun, ?_, ?_, by rw [List.length_cons, hlen]⟩
    · rw [hu, ht, hs, List.drop_succ_cons]
    · rw [hrs, hr, List.append_assoc]
      rfl

end Sys2Proof.Machine
end

section
/-!
PROOFS. The reset state under the invariant, the tables of the constants, and the system commands (R37, R9 to R12, R150, R230, R200 to
R203).
-/

namespace Sys2Proof.Machine

open Sys2Proof.Statement

/-- The reset state meets the invariant under any legal parameters: nothing is listed, every length is 0 and `LAST` is OK. -/
theorem inv_resetWith {c : Config} (h : c.Legal) : Inv (State.resetWith c) where
  configLegal := h
  memCanonical := Memory.wf_nil
  validBelowFlen := nofun
  flenBound := Nat.zero_le _
  dlenBound := Nat.zero_le _
  nblkBound := Nat.zero_le _
  dataBound := Nat.zero_le _
  lenBound := nofun
  lastLegal := List.mem_cons_self
  lastSticky := fun hlast => absurd rfl hlast
  lastWrapped := nofun

theorem legal_defaults : Config.defaults.Legal := legal_of_crc16 rfl (by decide) (by decide) (by decide) (by decide)

/-- Settles O13: the defaults are legal parameters. -/
theorem resetMeetsTheInvariant : Obligations.ResetMeetsTheInvariant := by
  unfold Obligations.ResetMeetsTheInvariant
  exact ⟨inv_resetWith legal_defaults, fun _ => inv_resetWith⟩

/-- Settles O18: the tables by computation, the defaults legal by `legal_defaults`. -/
theorem constantsAreTheTables : Obligations.ConstantsAreTheTables := by
  unfold Obligations.ConstantsAreTheTables
  exact ⟨⟨rfl, legal_defaults⟩,
    ⟨rfl, rfl, rfl, rfl, rfl, rfl, rfl, rfl, rfl, rfl, rfl, rfl, checksumOffset_add_two⟩, by decide, by decide⟩

/-! ### The system commands -/

/-- R30: the word of the status register is its fields, each shifted to its place. -/
theorem Status.word_eq (st : Status) :
    st.word = BitVec.ofNat 32 (st.ckv.toNat <<< 6 ||| st.errs.toNat <<< 5 ||| st.lastDE.toNat <<< 4 ||| st.last.toNat) := by
  obtain ⟨last, lastDE, errs, ckv⟩ := st
  revert last lastDE errs ckv
  decide

theorem exec_nop (s : State) : exec .nop s = .next (ok s 0) := answer_of_eq_ok rfl

theorem exec_reset (s : State) : exec .reset s = .next (ok s.resetCore 0) := answer_of_eq_ok rfl

theorem exec_statusClr (s : State) : exec .statusClr s = .next (ok { s with status := s.status.clearErrs } 0) :=
  answer_of_eq_ok rfl

/-- Settles O20: the four commands have no check, and each leaves what its rule writes. -/
theorem systemCommandResults : Obligations.SystemCommandResults := by
  unfold Obligations.SystemCommandResults
  refine ⟨rfl, rfl, rfl, rfl, fun s => ⟨exec_nop s, ⟨_, exec_reset s⟩, ?_, exec_statusClr s⟩⟩
  rw [exec_statusGet, Status.word_eq]
  rfl

end Sys2Proof.Machine
end

section
/-!
PROOFS. What every legal checksum function has of R110 (assumption log 4), and a stamp followed by a verify or a second stamp (R114).
-/

namespace Sys2Proof.Machine

open Sys2Proof.Statement

/-- The pair by which R112 shows that the default depends on the order of the bytes. -/
theorem crc16_zero_one_and_one_zero : crc16 [0x00, 0x01] = 0x0D2E#16 ∧ crc16 [0x01, 0x00] = 0x2E3E#16 := by
  decide +kernel

theorem crc16_orderSensitive : Config.OrderSensitive crc16 := by
  obtain ⟨hrising, hfalling⟩ := crc16_zero_one_and_one_zero
  refine ⟨[0x00, 0x01], [0x01, 0x00], .swap 0x01 0x00 [], ?_⟩
  rw [hrising, hfalling]
  decide

/-- Settles O28: the default has both properties, and of a replacement `Config.Legal` demands them. -/
theorem legalChecksumHasTheProperties : Obligations.LegalChecksumHasTheProperties := by
  unfold Obligations.LegalChecksumHasTheProperties
  intro c hc
  rcases cksum_cases hc with hcrc | ⟨k, hk, hproperties⟩
  · exact hcrc ▸ ⟨crc16_orderSensitive, crc16_detectsBitFlips⟩
  · exact hk ▸ ⟨hproperties.orderSensitive, hproperties.detectsBitFlips⟩

/-! ### After a stamp -/

/-- `s` with the checksum field of class `m` holding the checksum of the frame (R114 line 3). -/
def stamped (m : SizeClass) (s : State) : State := s.writeField .checkSum m (s.config.cksum (checked m s)).toNat

section
variable {m : SizeClass} {s : State}

theorem exec_cksumStamp_eq_stamped (hlen : headerWidth m ≤ s.flen) :
    exec (.cksumStamp m) s =
      .next (ok (ckvTo (stamped m s) true) ((s.config.cksum (checked m s)).setWidth 32)) :=
  exec_cksumStamp_of_le_flen hlen

theorem stamped_read (m : SizeClass) (s : State) (a : Nat) :
    (stamped m s).fb.read a =
      if a = checksumOffset m then (s.config.cksum (checked m s)).extractLsb' 8 8
      else if a = checksumOffset m + 1 then (s.config.cksum (checked m s)).extractLsb' 0 8 else s.fb.read a := by
  rw [stamped, State.writeField_checkSum, Memory.read_writeBytes]
  by_cases hhigh : a = checksumOffset m
  · simp [hhigh]
  · by_cases hlow : a = checksumOffset m + 1
    · simp [hlow]
    · rw [if_neg hhigh, if_neg hlow, if_neg (by simp; omega)]

/-- R111: the stamp leaves the checksum of the frame, as the region does not hold the checksum bytes. -/
theorem cksum_checked_stamped (hlen : headerWidth m ≤ s.flen) :
    s.config.cksum (checked m (stamped m s)) = s.config.cksum (checked m s) := by
  have hcongr : (stamped m s).computedChecksum m = s.computedChecksum m :=
    State.computedChecksum_congr rfl rfl fun a _ hhigh hlow => by rw [stamped_read, if_neg hhigh, if_neg hlow]
  rwa [State.computedChecksum_eq (s := stamped m s) hlen, State.computedChecksum_eq hlen] at hcongr

/-- R114: what the stamp embeds. -/
theorem embedded_stamped (m : SizeClass) (s : State) : embedded m (stamped m s) = s.config.cksum (checked m s) := by
  rw [embedded, stamped_read, stamped_read, if_pos rfl, if_neg (by omega), if_pos rfl]
  exact BitVec.extractLsb'_append_extractLsb'_eq_extractLsb' (by rfl) |>.trans BitVec.extractLsb'_eq_self

/-- A second stamp writes the checksum bytes the first one wrote. -/
theorem stamped_stamped_read (hlen : headerWidth m ≤ s.flen) (a : Nat) :
    (stamped m (stamped m s)).fb.read a = (stamped m s).fb.read a := by
  have hcksum : (stamped m s).config.cksum (checked m (stamped m s)) = s.config.cksum (checked m s) :=
    cksum_checked_stamped hlen
  rw [stamped_read m (stamped m s), hcksum, stamped_read]
  split_ifs <;> rfl

end

/-- Settles O31: the region of a stamped frame is that of the frame, so its checksum is the one just embedded. -/
theorem stampThenVerifySucceeds : Obligations.StampThenVerifySucceeds := by
  unfold Obligations.StampThenVerifySucceeds
  intro m s t hlen h
  obtain rfl : ok (ckvTo (stamped m s) true) _ = t := by simpa [exec_cksumStamp_eq_stamped hlen] using h
  have hright : s.config.cksum (checked m (stamped m s)) = embedded m (stamped m s) := by
    rw [cksum_checked_stamped hlen, embedded_stamped]
  exact ⟨exec_cksumVerify_of_eq hlen hright, _, exec_cksumStamp_eq_stamped hlen, stamped_stamped_read hlen⟩

end Sys2Proof.Machine
end

section
/-!
PROOFS. The serialization block by block (R49 to R52, R133) and `BLK_SERIALIZE` (R133).
-/

namespace Sys2Proof.Machine

open Sys2Proof.Statement

/-! ### `ser` -/

/-- R50, R51: the bytes of a sub-header. -/
theorem subHeader_eq_subHeaderBytes (m : SizeClass) (b : Block) (next : Nat) :
    subHeader m b next = subHeaderBytes m b next := by
  cases m with
  | full =>
    show beBytes 2 b.type.toNat ++ beBytes 2 b.data.length ++ beBytes 2 next = _
    rw [beBytes_two_toNat16, beBytes_two, beBytes_two]
    rfl
  | micro =>
    show beBytes 1 b.type.toNat ++ beBytes 1 b.data.length ++ [] = _
    rw [beBytes_one, beBytes_one]
    rfl

/-- Settles O34: past the blocks before it, `ser` goes on with the block's sub-header and its data. -/
theorem serPlacesEveryBlock : Obligations.SerPlacesEveryBlock := by
  unfold Obligations.SerPlacesEveryBlock
  intro m pre post b
  refine ⟨ser_length m _, ?_⟩
  obtain ⟨head, hhead, hser⟩ := serFrom_append m pre b post 0
  rw [ser, hser, List.drop_left' hhead, serFrom, List.take_left' (by simp), subHeader_eq_subHeaderBytes, Nat.zero_add]
  simp only [List.isEmpty_iff]

/-! ### `BLK_SERIALIZE` -/

section
variable {m : SizeClass} {s : State}

/-- R133 lines 1 and 2 in the words of the statements. -/
theorem requireSerializable_eq_ok_iff {c : Config} {bc : List Block} :
    requireSerializable c m bc = .ok () ↔ BlocksFit bc m ∧ LengthFits c bc m := requireSerializable_eq_ok

theorem requireSerializable_of_not_fits {c : Config} {bc : List Block} (h : ¬ BlocksFit bc m ∨ ¬ LengthFits c bc m) :
    requireSerializable c m bc = .error .rangeError := by
  cases hr : requireSerializable c m bc with
  | ok => exact absurd (requireSerializable_eq_ok_iff.mp hr) (not_and_or.mpr h)
  | error e => rw [requireSerializable_eq_error hr]

theorem exec_blkSerialize_of_not_fits (h : ¬ BlocksFit s.bc m ∨ ¬ LengthFits s.config s.bc m) :
    exec (.blkSerialize m) s = .next (err s 0x06) :=
  answer_of_eq_rangeError (bind_eq_error.mpr (.inl (requireSerializable_of_not_fits h)))

theorem exec_blkSerialize_of_fits (hfit : BlocksFit s.bc m) (hlen : LengthFits s.config s.bc m) :
    exec (.blkSerialize m) s =
      .next (ok ((((s.zeroFill (headerWidth m)).fbStore (headerWidth m) (ser m s.bc)).cutFlen
        (headerWidth m + payloadLength m s.bc)).setCkv false) (BitVec.ofNat 32 (payloadLength m s.bc))) :=
  answer_of_eq_ok (bind_eq_ok.mpr ⟨(), requireSerializable_eq_ok_iff.mpr ⟨hfit, hlen⟩, rfl⟩)

end

/-- Settles O35: a check of R133 that fails raises RangeError, and the success stores the payload behind the covered header. -/
theorem blkSerializeResults : Obligations.BlkSerializeResults := by
  unfold Obligations.BlkSerializeResults
  intro m s
  exact ⟨commandWord_classBit_eq_word 0x32 m 0, exec_blkSerialize_of_not_fits,
    fun hfit hlen => ⟨_, fun _ => s.storePayload_read m s.bc, exec_blkSerialize_of_fits hfit hlen⟩⟩

end Sys2Proof.Machine
end

section
/-!
PROOFS. The accessor of a field reads back what the setter of the field stored (R42, R54, R150), and the three block accessors (R166
to R169): their two common checks are those of `blk`, past which each answers from the sub-header.
-/

namespace Sys2Proof.Machine

open Sys2Proof.Statement

/-! ### A field set and read back -/

/-- A response of value 0 and code OK is no error's. -/
theorem responses_raise_ne_ok {s : State} {de : Bool} {e : Cause} {v : BitVec 32} :
    (s.raise de e).responses ≠ s.responses ++ [reply 0x00 v] := by
  intro hr
  obtain ⟨hcause, -⟩ := raise_records hr
  exact hcause rfl

theorem answer_getField_of_readField {f : WireField} {m : SizeClass} {v : BitVec 32} {s : State}
    (hlen : headerWidth m ≤ s.flen) (hread : s.readField f m = v.toNat) :
    answer s (getField f m s) = .next (ok s v) := by
  rw [answer_getField_of_le_flen hlen, ← State.readField, hread, BitVec.ofNat_toNat, BitVec.setWidth_eq]

/-- A command that is `getField` at a field reads back what a command that is `setField` at it stored. -/
theorem readsBack_of_exec_eq {f : WireField} {set : SizeClass → BitVec 32 → Instr} {get : SizeClass → Instr}
    (hset : ∀ m v s, exec (set m v) s = answer s (setField f m v s))
    (hget : ∀ m s, exec (get m) s = answer s (getField f m s)) : ReadsBack set get := by
  intro m v s t hexec hr
  rw [hset] at hexec
  rcases answer_cases hexec with ⟨x, w, hok, rfl⟩ | ⟨e, -, rfl⟩
  · obtain ⟨hlen, hfit, rfl, -⟩ := setField_eq_ok.mp hok
    have hwide : v.toNat < 256 ^ (fieldAt f m).2 := by rwa [show 256 = 2 ^ 8 from rfl, ← Nat.pow_mul]
    rw [hget]
    exact answer_getField_of_readField hlen (s.readField_writeField f m v.toNat hwide)
  · exact absurd hr responses_raise_ne_ok

/-- Settles O41: each pair of commands is `setField` and `getField` at one field. -/
theorem getAfterSetReturnsTheValue : Obligations.GetAfterSetReturnsTheValue := by
  unfold Obligations.GetAfterSetReturnsTheValue
  exact ⟨readsBack_of_exec_eq (f := .heartRate) (fun _ _ _ => rfl) fun _ _ => rfl,
    readsBack_of_exec_eq (f := .srcId) (fun _ _ _ => rfl) fun _ _ => rfl,
    readsBack_of_exec_eq (f := .dstId) (fun _ _ _ => rfl) fun _ _ => rfl,
    readsBack_of_exec_eq (f := .len) (fun _ _ _ => rfl) fun _ _ => rfl,
    readsBack_of_exec_eq (f := .checkSum) (fun _ _ _ => rfl) fun _ _ => rfl⟩

/-! ### The sub-header at an offset -/

section
variable {m : SizeClass} {off : BitVec 20} {s : State}

theorem min_wireLen_eq_presentLen (m : SizeClass) (s : State) :
    min (s.wireLen m) (s.flen - headerWidth m) = presentLen m s := by
  rw [State.wireLen_eq_declaredLen, presentLen]

/-- R166 past its checks, in the words of the statements. -/
theorem exists_blk_eq_ok (hlen : headerWidth m ≤ s.flen) (hsub : off.toNat + subHeaderWidth m ≤ presentLen m s) :
    ∃ b, blk m off.toNat s = .ok b ∧ b.declared = declaredLen m s ∧ b.present = presentLen m s ∧
      b.len = s.memRead (headerWidth m + off.toNat + blockTypeWidth m) (blockLenWidth m) ∧
      (m = .full → b.next = s.memRead (headerWidth m + off.toNat + 4) 2) := by
  rw [← min_wireLen_eq_presentLen] at hsub
  obtain ⟨b, hb⟩ := blk_succeeds hlen hsub
  obtain ⟨-, hdeclared, hpresent, -, hblen, hnext⟩ := blk_eq_ok hb
  rw [State.wireLen_eq_declaredLen] at hdeclared
  rw [min_wireLen_eq_presentLen] at hpresent
  exact ⟨b, hb, hdeclared, hpresent, hblen, hnext⟩

theorem answer_of_eq_malformedHeader {r : Result} (h : r = .error .malformedHeader) :
    answer s r = .next (err s 0x01) := by
  rw [h, answer_error, State.raise_eq_err]
  rfl

theorem answer_of_eq_truncatedBlock {r : Result} (h : r = .error .truncatedBlock) :
    answer s r = .next (err s 0x02) := by
  rw [h, answer_error, State.raise_eq_err]
  rfl

/-- The three block accessors begin with `blk`. -/
theorem exec_blockAccessor_eq {i : Instr} (h : i = .getBlockNext m off ∨ i = .getBlockLen m off ∨ i = .getBlockData m off) :
    ∃ f : SubHeader → Result, exec i s = answer s (blk m off.toNat s >>= f) := by
  rcases h with rfl | rfl | rfl <;> exact ⟨_, rfl⟩

/-- Settles O45: an error of `blk` is the error of the accessor. -/
theorem blockAccessorsNeedASubHeader : Obligations.BlockAccessorsNeedASubHeader := by
  unfold Obligations.BlockAccessorsNeedASubHeader
  intro m off s i hi
  obtain ⟨f, hexec⟩ := exec_blockAccessor_eq (s := s) hi
  rw [hexec, ← min_wireLen_eq_presentLen]
  refine ⟨fun hshort => ?_, fun hlen hcut => ?_⟩
  · exact answer_of_eq_malformedHeader (bind_eq_error.mpr (.inl (blk_eq_error.mpr (.inl ⟨hshort, rfl⟩))))
  · exact answer_of_eq_truncatedBlock (bind_eq_error.mpr (.inl (blk_eq_error.mpr (.inr ⟨hlen, hcut, rfl⟩))))

end

/-! ### The answers from a sub-header -/

theorem exec_getBlockNext_of_eq_ok {m : SizeClass} {off : BitVec 20} {s : State} {b : SubHeader} {n : Nat}
    (hb : blk m off.toNat s = .ok b) (hn : nextOffset m off.toNat b = .ok n) :
    exec (.getBlockNext m off) s = .next (ok s (BitVec.ofNat 32 n)) :=
  answer_of_eq_ok (bind_eq_ok.mpr ⟨b, hb, bind_eq_ok.mpr ⟨n, hn, rfl⟩⟩)

/-- Settles O46: the stored `next` in the full class, the three cases of `nextOffset` in the micro class. -/
theorem getBlockNextResults : Obligations.GetBlockNextResults := by
  unfold Obligations.GetBlockNextResults
  intro m off s
  refine ⟨?_, fun hlen hsub => ?_⟩
  · cases m <;> exact commandWord_eq_word 0x50 _ off 0
  obtain ⟨b, hb, hdeclared, -, hblen, hnext⟩ := exists_blk_eq_ok hlen hsub
  cases m with
  | full =>
    refine ⟨fun _ => ?_, nofun, nofun, nofun⟩
    exact exec_getBlockNext_of_eq_ok hb ((nextOffset_full _ _).trans (congrArg _ (hnext rfl)))
  | micro =>
    simp only [headerWidth, blockTypeWidth, blockLenWidth] at hblen
    rw [← hdeclared, ← hblen]
    refine ⟨nofun, fun _ hbeyond => ?_, fun _ hlast => ?_, fun _ hmore => ?_⟩
    · refine answer_of_eq_truncatedBlock (bind_eq_error.mpr (.inr ⟨b, hb, bind_eq_error.mpr (.inl ?_)⟩))
      rw [nextOffset_micro, if_pos hbeyond]
    · refine exec_getBlockNext_of_eq_ok hb ?_
      rw [nextOffset_micro, if_neg (by omega), if_pos hlast]
    · refine exec_getBlockNext_of_eq_ok hb ?_
      rw [nextOffset_micro, if_neg (by omega), if_neg (by omega)]

/-- Settles O47: the two commands answer from the `len` field `blk` found. -/
theorem getBlockLenAndDataResults : Obligations.GetBlockLenAndDataResults := by
  unfold Obligations.GetBlockLenAndDataResults
  intro m off s n hn
  have hfield : n = s.memRead (headerWidth m + off.toNat + blockTypeWidth m) (blockLenWidth m) := by
    cases m <;> exact hn
  refine ⟨?_, ?_, fun hlen hsub => ?_⟩
  · cases m <;> exact commandWord_eq_word 0x51 _ off 0
  · cases m <;> exact commandWord_eq_word 0x52 _ off 0
  obtain ⟨b, hb, -, hpresent, hblen, -⟩ := exists_blk_eq_ok hlen hsub
  rw [hfield, ← hblen, ← hpresent]
  refine ⟨?_, fun hwhole => ?_, fun hcut => ?_⟩
  · exact answer_of_eq_ok (bind_eq_ok.mpr ⟨b, hb, rfl⟩)
  · exact answer_of_eq_ok (bind_eq_ok.mpr ⟨b, hb, bind_eq_ok.mpr ⟨(), raiseIf_of_not (Nat.not_lt.mpr hwhole), rfl⟩⟩)
  · exact answer_of_eq_truncatedBlock
      (bind_eq_error.mpr (.inr ⟨b, hb, bind_eq_error.mpr (.inl (raiseIf_of hcut))⟩))

end Sys2Proof.Machine
end

section
/-!
PROOFS. The frame of a message (R190, R192): a packed header, whose `len` is the serialized length of the chain, and the serialized
chain. A frame that `LOAD` accepts is that of the header and the chain it gives, and the frame `DUMP` builds is that of the header it
writes back and the chain; so what one of them establishes is what the other asks for.
-/

namespace Sys2Proof.Machine

open Sys2Proof.Statement

/-! ### The checksum bytes of a packed header -/

theorem take_pack_withCheckSum (h : Header) (m : SizeClass) (c : BitVec 16) :
    (pack { h with checkSum := c } m).take (checksumOffset m) = (pack h m).take (checksumOffset m) := by
  cases m <;> rfl

/-- R43: the stamp of R190 line 8 on a packed header is the packed header with that checksum. -/
theorem stampFrame_pack (h : Header) (m : SizeClass) (c : BitVec 16) :
    stampFrame m (pack h m) c = pack { h with checkSum := c } m := by
  have hbytes := beBytes_two_toNat16 c
  cases m with
  | full =>
    rw [pack_full { h with checkSum := c }, hbytes]
    rfl
  | micro =>
    rw [pack_micro { h with checkSum := c }, hbytes]
    rfl

theorem stampFrame_pack_append (h : Header) (m : SizeClass) (c : BitVec 16) (p : List Byte) :
    stampFrame m (pack h m ++ p) c = pack { h with checkSum := c } m ++ p := by
  have hco := checksumOffset_add_two m
  rw [← stampFrame_pack h m c, stampFrame, List.set_append_left _ _ (by rw [pack_length]; omega),
    List.set_append_left _ _ (by rw [List.length_set, pack_length]; omega), stampFrame]

/-- R111: the region of a packed header and a payload is the header before its checksum bytes, then the payload. -/
theorem region_pack_append (h : Header) (m : SizeClass) (p : List Byte) :
    region m (pack h m ++ p) = (pack h m).take (checksumOffset m) ++ p := by
  have hco := checksumOffset_add_two m
  rw [region, List.take_append_of_le_length (by rw [pack_length]; omega),
    List.drop_left' (by rw [pack_length, hco])]

theorem region_pack_withCheckSum_append (h : Header) (m : SizeClass) (c : BitVec 16) (p : List Byte) :
    region m (pack { h with checkSum := c } m ++ p) = region m (pack h m ++ p) := by
  rw [region_pack_append, region_pack_append, take_pack_withCheckSum]

/-! ### The frame of a message -/

/-- The frame in `FB` is the packed header `h` and the serialized chain `bc` in class `m`, and `h` fits the class and has the
length of the chain (R22). -/
structure Carries (m : SizeClass) (s : State) (h : Header) (bc : List Block) : Prop where
  frame : s.frame = pack h m ++ ser m bc
  fits : Fits h m
  len : h.len.toNat = payloadLength m bc

theorem wireField_fbBytes (s : State) (f : WireField) (m : SizeClass) :
    wireField (s.fbBytes 0 (headerWidth m)) f m = s.readField f m := by
  rw [wireField, slice_fbBytes _ _ _ _ _ (fieldAt_end f m), Nat.zero_add]
  rfl

section
variable {m : SizeClass} {s : State} {h : Header} {bc : List Block}

theorem Carries.flen_eq (hc : Carries m s h bc) : s.flen = headerWidth m + payloadLength m bc := by
  rw [← s.frame_length, hc.frame, List.length_append, pack_length, ser_length]

theorem Carries.headerWidth_le_flen (hc : Carries m s h bc) : headerWidth m ≤ s.flen :=
  hc.flen_eq ▸ Nat.le_add_right _ _

theorem Carries.frame_parts (hc : Carries m s h bc) :
    s.fbBytes 0 (headerWidth m) ++ s.fbBytes (headerWidth m) (payloadLength m bc) = pack h m ++ ser m bc := by
  rw [← hc.frame, State.frame, hc.flen_eq, State.fbBytes_append, Nat.zero_add]

theorem Carries.headerBytes_eq (hc : Carries m s h bc) : s.fbBytes 0 (headerWidth m) = pack h m :=
  List.append_inj_left hc.frame_parts (by simp)

theorem Carries.payloadBytes_eq (hc : Carries m s h bc) :
    s.fbBytes (headerWidth m) (payloadLength m bc) = ser m bc := List.append_inj_right hc.frame_parts (by simp)

theorem Carries.unpack_eq (hc : Carries m s h bc) : unpack (s.fbBytes 0 (headerWidth m)) m = h := by
  rw [hc.headerBytes_eq, unpack_pack hc.fits]

theorem Carries.readField_eq (hc : Carries m s h bc) (f : WireField) : s.readField f m = h.wireValue f := by
  rw [← wireField_fbBytes, hc.headerBytes_eq, wireField_pack hc.fits]

theorem Carries.wireLen_eq (hc : Carries m s h bc) : s.wireLen m = payloadLength m bc :=
  (hc.readField_eq .len).trans hc.len

theorem Carries.payloadRegion_eq (hc : Carries m s h bc) : s.payloadRegion m = ser m bc := by
  rw [State.payloadRegion, hc.wireLen_eq, hc.payloadBytes_eq]

theorem Carries.storedChecksum_eq (hc : Carries m s h bc) : s.storedChecksum m = h.checkSum := by
  rw [State.storedChecksum, hc.readField_eq, Header.wireValue, BitVec.ofNat_toNat, BitVec.setWidth_eq]

theorem Carries.wireCfg_eq (hc : Carries m s h bc) : wireCfg s = h.cfgHdr := by
  rw [← unpack_fbBytes_cfgHdr s m, hc.unpack_eq]

theorem Carries.computedChecksum_eq (hc : Carries m s h bc) :
    s.computedChecksum m = s.config.cksum (region m (pack h m ++ ser m bc)) := by
  rw [State.computedChecksum, hc.frame]

end

/-! ### `LOAD` -/

/-- `LOAD` takes the frame in `FB` as one of class `m` with the chain `bc`: it passes every check of R192. -/
structure Loads (m : SizeClass) (s : State) (bc : List Block) : Prop where
  wireClass : wireClass s = .ok m
  flen : s.flen = headerWidth m + s.wireLen m
  checksum : s.computedChecksum m = s.storedChecksum m
  parse : parse s.config m (s.payloadRegion m) = .ok bc

/-- What a `LOAD` that succeeds writes (R192 lines 9 to 11). -/
def loaded (m : SizeClass) (bc : List Block) (s : State) : State :=
  { s with hr := unpack (s.fbBytes 0 (headerWidth m)) m, bc }

section
variable {m : SizeClass} {s t : State} {bc : List Block}

theorem exec_load_of_loads (h : Loads m s bc) :
    exec .load s = .next (ok (ckvTo (loaded m bc s) true) (BitVec.ofNat 32 bc.length)) := by
  have hresult : exec .load s = answerWrapped s (.ok ((loaded m bc s).setCkv true, BitVec.ofNat 32 bc.length)) :=
    congrArg (answerWrapped s) (bind_eq_ok.mpr ⟨m, h.wireClass,
      bind_eq_ok.mpr ⟨(), requireHeader_eq_ok.mpr (h.flen ▸ Nat.le_add_right _ _),
      bind_eq_ok.mpr ⟨(), raiseIf_of_not h.flen.not_lt,
      bind_eq_ok.mpr ⟨(), raiseIf_of_not (not_not_intro h.checksum),
      bind_eq_ok.mpr ⟨(), raiseIf_of_not h.flen.not_gt, bind_eq_ok.mpr ⟨bc, h.parse, rfl⟩⟩⟩⟩⟩⟩)
  rw [hresult, answerWrapped_ok, State.succeed_eq_ok, State.setCkv_eq_ckvTo]

/-- Everything a `LOAD` can end in (R192). -/
theorem exec_load_cases (h : exec .load s = .next t) :
    (∃ m bc, Loads m s bc ∧ t = ok (ckvTo (loaded m bc s) true) (BitVec.ofNat 32 bc.length)) ∨
    (∃ e, t = s.raise true e) := by
  rcases answerWrapped_cases h with ⟨x, v, hok, -⟩ | ⟨e, -, he⟩
  · obtain ⟨m, hclass, hok⟩ := bind_eq_ok.mp hok
    obtain ⟨_, -, hok⟩ := bind_eq_ok.mp hok
    obtain ⟨_, hshort, hok⟩ := bind_eq_ok.mp hok
    obtain ⟨_, hsum, hok⟩ := bind_eq_ok.mp hok
    obtain ⟨_, hlong, hok⟩ := bind_eq_ok.mp hok
    obtain ⟨bc, hparse, -⟩ := bind_eq_ok.mp hok
    rw [raiseIf_eq_ok] at hshort hsum hlong
    have hloads : Loads m s bc := ⟨hclass, by omega, not_not.mp hsum, hparse⟩
    refine .inl ⟨m, bc, hloads, ?_⟩
    simpa [exec_load_of_loads hloads, eq_comm] using h
  · exact .inr ⟨e, he⟩

/-- A frame that `LOAD` accepts is that of the header and the chain it gives. -/
theorem Loads.carries (h : Loads m s bc) : Carries m s (unpack (s.fbBytes 0 (headerWidth m)) m) bc := by
  have hser : ser m bc = s.payloadRegion m := ser_of_parse_eq_ok h.parse
  have hlength : payloadLength m bc = s.wireLen m := by
    rw [← ser_length, hser, State.payloadRegion, State.fbBytes_length]
  have hheader : (s.fbBytes 0 (headerWidth m)).length = headerWidth m := s.fbBytes_length _ _
  refine ⟨?_, fits_unpack hheader, ?_⟩
  · rw [pack_unpack hheader, hser, State.payloadRegion, State.frame, h.flen, State.fbBytes_append, Nat.zero_add]
  · rw [hlength]
    exact (wireValue_unpack hheader .len).trans (wireField_fbBytes s .len m)

end

/-! ### `DUMP` -/

/-- `DUMP` takes `HR` and `BC` as a message of class `m`: they pass every check of R190. -/
structure Dumps (m : SizeClass) (s : State) : Prop where
  classNamed : classOf s.config s.hr.cfgHdr = .ok m
  blocksFit : BlocksFit s.bc m
  lengthFits : LengthFits s.config s.bc m
  idsFit : IdsFit s.hr m

/-- The checksum of R190 line 7. -/
def dumpChecksum (m : SizeClass) (s : State) : BitVec 16 := s.config.cksum (region m (rawFrame s.hr m s.bc))

/-- `HR` as `DUMP` writes it back (R190 line 10). -/
def dumpHeader (m : SizeClass) (s : State) : Header :=
  { s.hr with len := BitVec.ofNat 16 (payloadLength m s.bc), checkSum := dumpChecksum m s }

/-- What a `DUMP` that succeeds writes (R190 lines 5 to 10). -/
def dumped (m : SizeClass) (s : State) : State :=
  { (s.fbStore 0 (stampFrame m (rawFrame s.hr m s.bc) (dumpChecksum m s))).cutFlen (headerWidth m + payloadLength m s.bc)
    with hr := dumpHeader m s }

section
variable {m : SizeClass} {s t : State}

theorem exec_dump_of_dumps (h : Dumps m s) :
    exec .dump s =
      .next (ok (ckvTo (dumped m s) true) (BitVec.ofNat 32 (headerWidth m + payloadLength m s.bc))) :=
  answer_of_eq_ok (bind_eq_ok.mpr ⟨m, h.classNamed,
    bind_eq_ok.mpr ⟨(), requireSerializable_eq_ok_iff.mpr ⟨h.blocksFit, h.lengthFits⟩,
    bind_eq_ok.mpr ⟨(), raiseIf_of_not (not_not_intro h.idsFit), rfl⟩⟩⟩)

/-- Everything a `DUMP` can end in (R190). -/
theorem exec_dump_cases (h : exec .dump s = .next t) :
    (∃ m, Dumps m s ∧ t = ok (ckvTo (dumped m s) true) (BitVec.ofNat 32 (headerWidth m + payloadLength m s.bc))) ∨
    (∃ e, t = s.raise false e) := by
  rcases answer_cases h with ⟨x, v, hok, -⟩ | ⟨e, -, he⟩
  · obtain ⟨m, hclass, hok⟩ := bind_eq_ok.mp hok
    obtain ⟨_, hser, hok⟩ := bind_eq_ok.mp hok
    obtain ⟨_, hids, -⟩ := bind_eq_ok.mp hok
    obtain ⟨hblocks, hlength⟩ := requireSerializable_eq_ok_iff.mp hser
    rw [raiseIf_eq_ok, not_not] at hids
    have hdumps : Dumps m s := ⟨hclass, hblocks, hlength, hids⟩
    refine .inl ⟨m, hdumps, ?_⟩
    simpa [exec_dump_of_dumps hdumps, eq_comm] using h
  · exact .inr ⟨e, he⟩

/-- R190 lines 5 to 9, byte by byte. -/
theorem dumped_read (m : SizeClass) (s : State) {a : Nat} (ha : a < headerWidth m + payloadLength m s.bc) :
    (dumped m s).fb.read a =
      if a = checksumOffset m then (dumpChecksum m s).extractLsb' 8 8
      else if a = checksumOffset m + 1 then (dumpChecksum m s).extractLsb' 0 8
      else (rawFrame s.hr m s.bc).getD a 0 := by
  rw [← rawFrame_length s.hr m s.bc] at ha
  have hread := s.storeFrame_read m (rawFrame s.hr m s.bc) (dumpChecksum m s) ha
  rwa [rawFrame_length] at hread

/-- The frame `DUMP` builds is that of the header it writes back and the chain. -/
theorem Dumps.carries (h : Dumps m s) : Carries m (dumped m s) (dumpHeader m s) s.bc := by
  have hlength : (dumpHeader m s).len.toNat = payloadLength m s.bc := by
    have hwide : payloadLength m s.bc < 2 ^ 16 := h.lengthFits.1.trans_lt (lenMax_lt m)
    rw [dumpHeader, BitVec.toNat_ofNat, Nat.mod_eq_of_lt hwide]
  refine ⟨?_, ⟨h.idsFit, ?_⟩, hlength⟩
  · have hflen : (dumped m s).flen = (stampFrame m (rawFrame s.hr m s.bc) (dumpChecksum m s)).length := by
      rw [stampFrame_length, rawFrame_length]
      rfl
    have hstamp : stampFrame m (rawFrame s.hr m s.bc) (dumpChecksum m s) = pack (dumpHeader m s) m ++ ser m s.bc :=
      stampFrame_pack_append _ m _ _
    rw [State.frame, hflen, ← hstamp]
    refine State.fbBytes_eq fun k hk => ?_
    rw [stampFrame_length] at hk
    rw [stampFrame_getD _ _ _ hk, Nat.zero_add]
    exact dumped_read m s (by rwa [rawFrame_length] at hk)
  · rintro rfl
    rw [hlength]
    exact Nat.lt_succ_of_le h.lengthFits.1

/-- R190 lines 7 and 8: the embedded checksum is right. -/
theorem Dumps.computedChecksum_eq (h : Dumps m s) : (dumped m s).computedChecksum m = dumpChecksum m s := by
  have hregion : region m (pack (dumpHeader m s) m ++ ser m s.bc) = region m (rawFrame s.hr m s.bc) :=
    region_pack_withCheckSum_append { s.hr with len := BitVec.ofNat 16 (payloadLength m s.bc) } m (dumpChecksum m s) _
  rw [h.carries.computedChecksum_eq, hregion]
  rfl

end

end Sys2Proof.Machine
end

section
/-!
PROOFS. What `DUMP` and `LOAD` leave to each other and to the rest of the core (R22, R193). Both leave the frame of the header in `HR`
and of the chain in `BC`, with the right checksum: these are the two invariants of R22, and they are all that the other command asks
for.
-/

namespace Sys2Proof.Machine

open Sys2Proof.Statement

/-! ### The two invariants of a header -/

/-- R10: a class has its code in `cfg_hdr`, whether the codes are distinct or not. -/
theorem eq_cfgOf_of_classOf_eq_ok {s : State} {code : BitVec 2} {m : SizeClass} (h : classOf s.config code = .ok m) :
    code = cfgOf s m := by
  unfold classOf at h
  split at h
  case isTrue hfull =>
    cases h
    exact hfull
  case isFalse =>
    split at h
    case isTrue hmicro =>
      cases h
      exact hmicro
    case isFalse => cases h

/-- The state R22 speaks of: `FB` carries the header in `HR`, whose `cfg_hdr` names the class, and the chain in `BC`, and its
checksum is right. -/
structure HoldsMessage (m : SizeClass) (t : State) : Prop where
  classNamed : classOf t.config t.hr.cfgHdr = .ok m
  carries : Carries m t t.hr t.bc
  checksum : t.computedChecksum m = t.hr.checkSum

section
variable {m : SizeClass} {s t : State} {bc : List Block}

theorem Dumps.holdsMessage (h : Dumps m s) : HoldsMessage m (dumped m s) :=
  ⟨h.classNamed, h.carries, h.computedChecksum_eq⟩

theorem Loads.holdsMessage (h : Loads m s bc) : HoldsMessage m (loaded m bc s) where
  classNamed := by
    obtain ⟨-, hclass⟩ := wireClass_eq_ok.mp h.wireClass
    exact (congrArg (classOf s.config) (unpack_fbBytes_cfgHdr s m)).trans hclass
  carries := ⟨h.carries.frame, h.carries.fits, h.carries.len⟩
  checksum := h.checksum.trans h.carries.storedChecksum_eq

/-- The response and `STATUS` are no part of the message. -/
theorem HoldsMessage.ok_ckvTo (h : HoldsMessage m t) (b : Bool) (v : BitVec 32) : HoldsMessage m (ok (ckvTo t b) v) :=
  ⟨h.classNamed, ⟨h.carries.frame, h.carries.fits, h.carries.len⟩, h.checksum⟩

theorem HoldsMessage.storedChecksum_eq (h : HoldsMessage m t) : t.computedChecksum m = t.storedChecksum m :=
  h.checksum.trans h.carries.storedChecksum_eq.symm

/-- The success of a `DUMP` or `LOAD` by the state it leaves. -/
theorem exec_dump_cases_of_response {v : BitVec 32} (h : exec .dump s = .next t)
    (hr : t.responses = s.responses ++ [reply 0x00 v]) :
    ∃ m, Dumps m s ∧ t = ok (ckvTo (dumped m s) true) (BitVec.ofNat 32 (headerWidth m + payloadLength m s.bc)) := by
  rcases exec_dump_cases h with hok | ⟨e, rfl⟩
  · exact hok
  · exact absurd hr responses_raise_ne_ok

theorem exec_load_cases_of_response {v : BitVec 32} (h : exec .load s = .next t)
    (hr : t.responses = s.responses ++ [reply 0x00 v]) :
    ∃ m bc, Loads m s bc ∧ t = ok (ckvTo (loaded m bc s) true) (BitVec.ofNat 32 bc.length) := by
  rcases exec_load_cases h with hok | ⟨e, rfl⟩
  · exact hok
  · exact absurd hr responses_raise_ne_ok

/-- R22 in the words of the statement. -/
theorem HoldsMessage.header_invariants (h : HoldsMessage m t) :
    t.hr.cfgHdr = cfgOf t m ∧ t.hr.len.toNat = payloadLength m t.bc ∧
      t.flen = headerWidth m + payloadLength m t.bc ∧ t.hr.checkSum = t.config.cksum (checked m t) :=
  ⟨eq_cfgOf_of_classOf_eq_ok h.classNamed, h.carries.len, h.carries.flen_eq,
    by rw [← State.computedChecksum_eq h.carries.headerWidth_le_flen, h.checksum]⟩

/-- Settles O52: both commands leave a state that holds the message. -/
theorem dumpAndLoadEstablishTheHeaderInvariants : Obligations.DumpAndLoadEstablishTheHeaderInvariants := by
  unfold Obligations.DumpAndLoadEstablishTheHeaderInvariants
  rintro i s t v (rfl | rfl) h hr
  · obtain ⟨m, hdumps, rfl⟩ := exec_dump_cases_of_response h hr
    exact ⟨m, (hdumps.holdsMessage.ok_ckvTo _ _).header_invariants⟩
  · obtain ⟨m, bc, hloads, rfl⟩ := exec_load_cases_of_response h hr
    exact ⟨m, (hloads.holdsMessage.ok_ckvTo _ _).header_invariants⟩

/-! ### `LOAD` after `DUMP` -/

/-- `LOAD` accepts the frame of a message within the capacities, and gives the chain. -/
theorem HoldsMessage.loads (h : HoldsMessage m t) (hchain : ChainFits t.config t.bc) (hblocks : BlocksFit t.bc m) :
    Loads m t t.bc where
  wireClass := by
    have htwo : 2 ≤ t.flen := (two_le_headerWidth m).trans h.carries.headerWidth_le_flen
    exact wireClass_eq_ok.mpr ⟨htwo, (congrArg (classOf t.config) h.carries.wireCfg_eq).trans h.classNamed⟩
  flen := by rw [h.carries.wireLen_eq, h.carries.flen_eq]
  checksum := h.storedChecksum_eq
  parse := by
    rw [h.carries.payloadRegion_eq]
    exact parse_ser hchain hblocks (h.carries.wireLen_eq ▸ t.wireLen_le m)

/-- `LOAD` of a state that holds the message already writes nothing new. -/
theorem HoldsMessage.loaded_eq (h : HoldsMessage m t) : loaded m t.bc t = t := by
  rw [loaded, h.carries.unpack_eq]

/-- Settles O53: the frame of the dumped message passes the checks of `LOAD`, and gives back the header and the chain it was made
of. -/
theorem loadAfterDumpRestoresTheMessage : Obligations.LoadAfterDumpRestoresTheMessage := by
  unfold Obligations.LoadAfterDumpRestoresTheMessage
  intro s t v hchain h hr
  obtain ⟨m, hdumps, rfl⟩ := exec_dump_cases_of_response h hr
  have hholds := hdumps.holdsMessage.ok_ckvTo true (BitVec.ofNat 32 (headerWidth m + payloadLength m s.bc))
  refine ⟨rfl, rfl, ?_⟩
  rw [exec_load_of_loads (hholds.loads hchain hdumps.blocksFit), hholds.loaded_eq]
  rfl

/-! ### `DUMP` after `LOAD` -/

/-- R134: the numbers of a block that `parse` finds fit its sub-header. -/
theorem fitsSubHeader_of_walk {c : Config} {p : List Byte} {o total : Nat} {out : List Block}
    {r : Except Cause (List Block)} (h : Walk c m p o total out r) (hr : r = .ok bc)
    (hout : ∀ b ∈ out, b.FitsSubHeader m) : ∀ b ∈ bc, b.FitsSubHeader m := by
  induction h with
  | cut | overrun | badNext | full => nomatch hr
  | done =>
    cases hr
    exact hout
  | @block o total out _ _ hend _ _ _ ih =>
    refine ih hr (List.forall_mem_append.mpr ⟨hout, List.forall_mem_singleton.mpr ?_⟩)
    exact ⟨(toNat_wireBlock_type m p o).trans_lt (typeAt_lt p o m),
      (wireBlock_data_length hend).trans_lt (lenAt_lt p o m)⟩

theorem fitsSubHeader_of_parse_eq_ok {c : Config} {p : List Byte} (h : parse c m p = .ok bc) :
    ∀ b ∈ bc, b.FitsSubHeader m :=
  fitsSubHeader_of_walk ((parseIsTheBlockWalk c m p _).mp h) rfl (List.forall_mem_nil _)

theorem blocksFit_of_fitsSubHeader (h : ∀ b ∈ bc, b.FitsSubHeader m) : BlocksFit bc m := by
  rintro rfl
  exact h

/-- A message within the buffer whose blocks fit the class can be dumped. -/
theorem HoldsMessage.dumps (h : HoldsMessage m t) (hblocks : BlocksFit t.bc m) (hsize : t.flen ≤ t.config.fbSize) :
    Dumps m t where
  classNamed := h.classNamed
  blocksFit := hblocks
  lengthFits := ⟨h.carries.wireLen_eq ▸ t.wireLen_le m, h.carries.flen_eq ▸ hsize⟩
  idsFit := h.carries.fits.1

/-- `DUMP` of a state that holds the message writes back the header it found. -/
theorem HoldsMessage.dumpHeader_eq (h : HoldsMessage m t) : dumpHeader m t = t.hr := by
  have hlen : BitVec.ofNat 16 (payloadLength m t.bc) = t.hr.len := by
    rw [← h.carries.len, BitVec.ofNat_toNat, BitVec.setWidth_eq]
  have hsum : dumpChecksum m t = t.hr.checkSum := by
    rw [dumpChecksum, rawFrame, hlen, ← h.carries.computedChecksum_eq, h.checksum]
  rw [dumpHeader, hlen, hsum]

theorem HoldsMessage.dumped_frame_eq (h : HoldsMessage m t) (hdumps : Dumps m t) : (dumped m t).frame = t.frame := by
  rw [hdumps.carries.frame, h.dumpHeader_eq, h.carries.frame]

/-- Two states with the same frame read alike below `FLEN`. -/
theorem read_eq_of_frame_eq (h : s.frame = t.frame) {a : Nat} (ha : a < t.flen) : s.fb.read a = t.fb.read a := by
  have hs : a < s.frame.length := by rwa [h, State.frame_length]
  rw [← s.frame_getElem a hs, ← t.frame_getElem a (by rwa [State.frame_length])]
  simp only [h]

end

/-- Settles O54: the loaded message can be dumped, and `DUMP` builds the frame of the header and the chain that were loaded, which
is the frame it found. -/
theorem dumpAfterLoadRewritesTheFrame : Obligations.DumpAfterLoadRewritesTheFrame := by
  unfold Obligations.DumpAfterLoadRewritesTheFrame
  intro s t v hsize h hr
  obtain ⟨m, bc, hloads, rfl⟩ := exec_load_cases_of_response h hr
  have hholds := hloads.holdsMessage.ok_ckvTo true (BitVec.ofNat 32 bc.length)
  have hdumps := hholds.dumps (blocksFit_of_fitsSubHeader (fitsSubHeader_of_parse_eq_ok hloads.parse)) hsize
  have hflen : s.flen = headerWidth m + payloadLength m bc := hloads.carries.flen_eq
  refine ⟨_, exec_dump_of_dumps hdumps, ?_, hflen.symm, fun a ha => ?_⟩
  · rw [hflen]
    rfl
  · exact read_eq_of_frame_eq (hholds.dumped_frame_eq hdumps) ha

end Sys2Proof.Machine
end

section
/-!
PROOFS. What every step keeps: the meaning of `CKV` (R31) and the invariant of the state (R10, R11, R24, R27 to R29, R110, R230, R232). A
step waits, answers a word that does not decode, or executes a command, so each is a statement about commands.
-/

namespace Sys2Proof.Machine

open Sys2Proof.Statement

/-! ### Steps -/

/-- Whatever every command keeps, and an answer to a word that does not decode, every step keeps. -/
theorem step_keeps {P : State → Prop} (htake : ∀ {s ws}, P s → P { s with commands := ws })
    (hillegal : ∀ {s}, P s → P (err s 0x07))
    (hexec : ∀ {i s t}, i.wellFormed = true → P s → exec i s = .next t → P t) {s t : State} (hs : P s)
    (h : step s = .next t) : P t := by
  cases hcommands : s.commands with
  | nil =>
    obtain rfl : s = t := by simpa [step_of_commands_eq_nil hcommands] using h
    exact hs
  | cons w rest =>
    rw [step_of_commands_eq_cons hcommands] at h
    cases hw : decode w with
    | ok i =>
      rw [execWord_of_ok hw] at h
      exact hexec (wellFormed_of_decode_eq_ok hw) (htake hs) h
    | error reject =>
      have hill : ∀ i, decode w ≠ .ok i := by simp [hw]
      obtain rfl : err { s with commands := rest } 0x07 = t := by simpa [execWord_of_illegal hill] using h
      exact hillegal (htake hs)

/-! ### `CKV` -/

section
variable {s t : State}

/-- R111, R31: what `CKV = 1` claims looks at the parameters and the frame alone. -/
theorem CkvSound.congr (h : CkvSound s) (hckv : t.status.ckv = true → s.status.ckv = true) (hconfig : t.config = s.config)
    (hflen : t.flen = s.flen) (hfb : t.fb = s.fb) : CkvSound t := by
  intro ht
  obtain ⟨m, hlen, hsum⟩ := h (hckv ht)
  have hcomputed : t.computedChecksum m = s.computedChecksum m :=
    State.computedChecksum_congr hconfig hflen fun a _ _ _ => by rw [hfb]
  have hstored : t.storedChecksum m = s.storedChecksum m := by
    rw [State.storedChecksum_eq, State.storedChecksum_eq, hfb]
  exact ⟨m, hflen ▸ hlen, hcomputed.trans (hsum.trans hstored.symm)⟩

/-- R31, R236: an error does not set `CKV` and keeps the frame. -/
theorem ckvSound_err (h : CkvSound s) (code : BitVec 8) : CkvSound (err s code) := by
  refine h.congr (fun hckv => ?_) rfl rfl rfl
  rw [err, Bool.and_eq_true] at hckv
  exact hckv.1

theorem ckvSound_raise (h : CkvSound s) (de : Bool) (e : Cause) : CkvSound (s.raise de e) := by
  rw [State.raise_eq_err]
  exact ckvSound_err h _

theorem ckvSound_of_cksumStamp {m : SizeClass} (hs : CkvSound s) (h : exec (.cksumStamp m) s = .next t) : CkvSound t := by
  by_cases hlen : headerWidth m ≤ s.flen
  · obtain rfl : ok (ckvTo (stamped m s) true) _ = t := by simpa [exec_cksumStamp_eq_stamped hlen] using h
    have hright : (stamped m s).computedChecksum m = (stamped m s).storedChecksum m := by
      rw [State.computedChecksum_eq (s := stamped m s) hlen, State.storedChecksum_eq_embedded, embedded_stamped]
      exact cksum_checked_stamped hlen
    exact fun _ => ⟨m, hlen, hright⟩
  · have hshort : exec (.cksumStamp m) s = .next (err s 0x01) := answer_requireHeader_of_flen_lt (Nat.not_le.mp hlen) _
    obtain rfl : err s 0x01 = t := by simpa [hshort] using h
    exact ckvSound_err hs _

theorem ckvSound_of_cksumVerify {m : SizeClass} (hs : CkvSound s) (h : exec (.cksumVerify m) s = .next t) :
    CkvSound t := by
  by_cases hlen : headerWidth m ≤ s.flen
  · by_cases hright : s.config.cksum (checked m s) = embedded m s
    · obtain rfl : ok (ckvTo s true) 1 = t := by simpa [exec_cksumVerify_of_eq hlen hright] using h
      rw [← State.computedChecksum_eq hlen, ← State.storedChecksum_eq_embedded] at hright
      exact fun _ => ⟨m, hlen, hright⟩
    · obtain rfl : err s 0x03 = t := by simpa [exec_cksumVerify_of_ne hlen hright] using h
      exact ckvSound_err hs _
  · have hshort : exec (.cksumVerify m) s = .next (err s 0x01) :=
      answer_requireHeader_of_flen_lt (Nat.not_le.mp hlen) _
    obtain rfl : err s 0x01 = t := by simpa [hshort] using h
    exact ckvSound_err hs _

theorem HoldsMessage.ckvSound {m : SizeClass} (h : HoldsMessage m t) : CkvSound t :=
  fun _ => ⟨m, h.carries.headerWidth_le_flen, h.storedChecksum_eq⟩

theorem ckvSound_of_dump (hs : CkvSound s) (h : exec .dump s = .next t) : CkvSound t := by
  rcases exec_dump_cases h with ⟨m, hdumps, rfl⟩ | ⟨e, rfl⟩
  · exact (hdumps.holdsMessage.ok_ckvTo true _).ckvSound
  · exact ckvSound_raise hs _ e

theorem ckvSound_of_load (hs : CkvSound s) (h : exec .load s = .next t) : CkvSound t := by
  rcases exec_load_cases h with ⟨m, bc, hloads, rfl⟩ | ⟨e, rfl⟩
  · exact (hloads.holdsMessage.ok_ckvTo true _).ckvSound
  · exact ckvSound_raise hs _ e

/-- R31: what a command may do to `CKV`. It sets it, clears it, or leaves it and the frame alone. -/
theorem effects_ckv_cases (i : Instr) :
    (i = .dump ∨ i = .load ∨ ∃ m, i = .cksumStamp m ∨ i = .cksumVerify m) ∨ (effects i).ckv = some false ∨
      ((effects i).ckv = none ∧ (effects i).fb = false) := by
  cases i with
  | dump | load | cksumStamp | cksumVerify => simp
  | reset | hdrPack | blkSerialize | setPriority | addHopLimit | setHeartRate | setSrc | setDst | setLen | setChecksum
  | fbWrite | fbSetlen => exact .inr (.inl rfl)
  | nop | statusGet | statusClr | sysGet | hdrUnpack | cksumCompute | blkAppend | blkClear | blkDeserialize | getPriority
  | getHopLimit | getHeartRate | getSrc | getDst | getLen | getChecksum | isMicro | getBlockNext | getBlockLen
  | getBlockData | hrGet | hrSet | fbRead | dbClear | dbPush | blkType | blkLen | blkByte =>
    exact .inr (.inr ⟨rfl, rfl⟩)

/-- R31: every command keeps the meaning of `CKV`. -/
theorem ckvSound_of_exec {i : Instr} (hs : CkvSound s) (h : exec i s = .next t) : CkvSound t := by
  rcases exec_ckv_cases h with ⟨-, -, -, hckv⟩ | ⟨e, rfl⟩
  case inr => exact ckvSound_raise hs _ e
  rcases effects_ckv_cases i with (rfl | rfl | ⟨m, rfl | rfl⟩) | hclears | ⟨hkeeps, hframe⟩
  · exact ckvSound_of_dump hs h
  · exact ckvSound_of_load hs h
  · exact ckvSound_of_cksumStamp hs h
  · exact ckvSound_of_cksumVerify hs h
  · rw [hclears, Option.getD_some] at hckv
    exact fun hset => absurd (hckv.symm.trans hset) (by decide)
  · obtain ⟨-, hconfig, -, -, -, hfb⟩ := frame_iff.mp (exec_frame h)
    obtain ⟨hflen, hmem⟩ := hfb hframe
    rw [hkeeps, Option.getD_none] at hckv
    exact hs.congr (fun hset => hckv.symm.trans hset) hconfig hflen hmem

end

/-- Settles O15: a step that waits changes nothing, a word that does not decode is an error, and every command is
`ckvSound_of_exec`. -/
theorem ckvMeansTheEmbeddedChecksumIsRight : Obligations.CkvMeansTheEmbeddedChecksumIsRight := by
  unfold Obligations.CkvMeansTheEmbeddedChecksumIsRight
  intro s t hs h
  exact step_keeps (fun hs => hs) (fun hs => ckvSound_err hs _) (fun _ => ckvSound_of_exec) hs h

end Sys2Proof.Machine
end

section
/-!
PROOFS. The invariant of the state (R10, R11, R24, R27 to R29, R110, R230, R232). It is a statement about the status register and one
about the data, and the latter one about the buffer, the staging buffer and the chain. The status register follows from how a
command ends; of the data, each command that writes a part of it has a check that bounds what it writes.
-/

namespace Sys2Proof.Machine

open Sys2Proof.Statement

/-! ### The parts of the invariant -/

/-- The buffer's part: canonical, listed below `FLEN` alone, `FLEN` within the capacity (R28, R29). -/
structure SoundBuffer (c : Config) (fb : Memory) (flen : Nat) : Prop where
  canonical : fb.wf
  below : ∀ cell ∈ fb, cell.1 < flen
  bound : flen ≤ c.fbSize

/-- The chain's part: the capacities, and every `len` a 16-bit number (R24). -/
structure SoundChain (c : Config) (bc : List Block) : Prop where
  fits : ChainFits c bc
  len : ∀ b ∈ bc, b.data.length ≤ 65535

/-- The data's part, with legal parameters. -/
def SoundData (s : State) : Prop :=
  s.config.Legal ∧ SoundBuffer s.config s.fb s.flen ∧ s.db.length ≤ s.config.dbMax ∧ SoundChain s.config s.bc

/-- The status register's part (R30, R32, R230, R233). -/
structure SoundStatus (st : Status) : Prop where
  legal : st.last ∈ [0#4, 1#4, 2#4, 3#4, 5#4, 6#4, 7#4]
  sticky : st.last ≠ 0 → st.errs = true
  wrapped : st.lastDE = true → st.last ∈ [1#4, 2#4, 3#4, 5#4, 6#4]

theorem inv_iff {s : State} : Inv s ↔ SoundData s ∧ SoundStatus s.status := by
  constructor
  · intro h
    exact ⟨⟨h.configLegal, ⟨h.memCanonical, h.validBelowFlen, h.flenBound⟩, h.dlenBound,
      ⟨⟨h.nblkBound, h.dataBound⟩, h.lenBound⟩⟩, ⟨h.lastLegal, h.lastSticky, h.lastWrapped⟩⟩
  · rintro ⟨⟨hlegal, hbuffer, hdb, hchain⟩, hstatus⟩
    exact ⟨hlegal, hbuffer.canonical, hbuffer.below, hbuffer.bound, hdb, hchain.fits.1, hchain.fits.2, hchain.len,
      hstatus.legal, hstatus.sticky, hstatus.wrapped⟩

/-! ### The status register -/

theorem soundStatus_of_ok {st : Status} (hlast : st.last = 0) (hde : st.lastDE = false) : SoundStatus st :=
  ⟨hlast ▸ List.mem_cons_self, fun h => absurd hlast h, fun h => absurd (hde.symm.trans h) Bool.false_ne_true⟩

/-- An error other than InvalidPriority leaves a sound status register, wrapped only with a cause of `LOAD`. -/
theorem soundStatus_err {s : State} {code : BitVec 8} (hlegal : causeOf code ∈ [0#4, 1#4, 2#4, 3#4, 5#4, 6#4, 7#4])
    (hwrapped : code.msb = true → causeOf code ∈ [1#4, 2#4, 3#4, 5#4, 6#4]) : SoundStatus (err s code).status :=
  ⟨hlegal, fun _ => rfl, hwrapped⟩

/-- R230, R233: a code that `LOAD` can wrap is one the core produces. -/
theorem producedCode_of_wrappedCode :
    ∀ c ∈ [1#4, 2#4, 3#4, 5#4, 6#4], c ∈ [0#4, 1#4, 2#4, 3#4, 5#4, 6#4, 7#4] := by decide

theorem soundStatus_of_exec {i : Instr} {s t : State} (hwf : i.wellFormed = true) (hs : SoundStatus s.status)
    (h : exec i s = .next t) : SoundStatus t.status := by
  rcases exec_response_cases hwf h with ⟨v, hv⟩ | ⟨e, he, rfl⟩
  · by_cases hi : i = .statusGet
    · subst hi
      obtain rfl : s.respond false 0 s.status.word = t := by simpa [exec_statusGet] using h
      exact hs
    · obtain ⟨hlast, hde, -⟩ := exec_records hi h hv
      exact soundStatus_of_ok hlast hde
  · have hcode := code_mem_of_mem_commandCauses e he
    rw [← causeOf_responseCode (decide (i = .load)) e.code] at hcode
    exact soundStatus_err (producedCode_of_wrappedCode _ hcode) fun _ => hcode

/-! ### The buffer -/

section
variable {c : Config} {fb : Memory} {flen n a : Nat} {bs : List Byte}

/-- A store that ends at or below the new `FLEN`, which is not less than the old one. -/
theorem SoundBuffer.writeBytes (h : SoundBuffer c fb flen) (hgrow : flen ≤ n) (hend : a + bs.length ≤ n)
    (hbound : n ≤ c.fbSize) : SoundBuffer c (fb.writeBytes a bs) n where
  canonical := Memory.wf_writeBytes h.canonical a
  below := by
    intro cell hcell
    rcases Memory.mem_writeBytes hcell with ⟨-, hlt⟩ | hold
    · omega
    · have := h.below cell hold
      omega
  bound := hbound

/-- A store below `FLEN`. -/
theorem SoundBuffer.store (h : SoundBuffer c fb flen) (hend : a + bs.length ≤ flen) :
    SoundBuffer c (fb.writeBytes a bs) flen := h.writeBytes le_rfl hend h.bound

/-- A cut at the new `FLEN` drops whatever is listed above it. -/
theorem soundBuffer_truncate (hwf : fb.wf) (hbound : n ≤ c.fbSize) : SoundBuffer c (fb.truncate n) n where
  canonical := Memory.wf_truncate hwf n
  below := fun _ hcell => (Memory.mem_truncate hcell).2
  bound := hbound

theorem soundBuffer_coverHeader {s : State} {m : SizeClass} (h : SoundBuffer s.config s.fb s.flen)
    (hlegal : s.config.Legal) : SoundBuffer s.config (s.coverHeader m).fb (max s.flen (headerWidth m)) := by
  have hwide : headerWidth m ≤ s.config.fbSize := by
    have := hlegal.fbSize_ge
    cases m <;> simp only [headerWidth] <;> omega
  rw [State.coverHeader_fb]
  split
  case isTrue hshort =>
    exact h.writeBytes (le_max_left _ _) (by simp; omega) (max_le h.bound hwide)
  case isFalse hlong =>
    rw [max_eq_left (Nat.not_lt.mp hlong)]
    exact h

end

/-! ### The chain -/

section
variable {c : Config}

theorem soundChain_nil : SoundChain c [] := ⟨⟨Nat.zero_le _, Nat.zero_le _⟩, List.forall_mem_nil _⟩

/-- R131: the tail block passed the checks on the count and the total, and its data was in `DB`. -/
theorem SoundChain.concat {bc : List Block} {b : Block} (h : SoundChain c bc) (hcount : bc.length ≠ c.nblkMax)
    (htotal : dataTotal bc + b.data.length ≤ c.bcDataMax) (hlen : b.data.length ≤ 65535) : SoundChain c (bc ++ [b]) where
  fits := by
    have hle := h.fits.1
    exact ⟨by rw [List.length_append, List.length_singleton]; omega,
      by rw [dataTotal_append, dataTotal_cons, dataTotal_nil, Nat.add_zero]; exact htotal⟩
  len := List.forall_mem_append.mpr ⟨h.len, List.forall_mem_singleton.mpr hlen⟩

/-- R134: check 4 is the capacities, and a `len` field holds at most 16 bits. -/
theorem soundChain_of_parse_eq_ok {m : SizeClass} {p : List Byte} {bc : List Block} (h : parse c m p = .ok bc) :
    SoundChain c bc where
  fits := parse_eq_ok h
  len := by
    intro b hb
    have hlt := (fitsSubHeader_of_parse_eq_ok h b hb).2
    have hwidth : 256 ^ blockLenWidth m ≤ 65536 := by cases m <;> decide
    omega

end

/-! ### The data -/

section
variable {P : State → Prop}

/-- A success is reached only where the computation before it succeeded. -/
theorem leavesOnSuccess_bind_of_eq_ok {β : Type} {x : Except Cause β} {f : β → Result}
    (h : ∀ y, x = .ok y → LeavesOnSuccess P (f y)) : LeavesOnSuccess P (x >>= f) := by
  intro t v hr
  obtain ⟨y, hx, hy⟩ := bind_eq_ok.mp hr
  exact h y hx t v hy

theorem leavesOnSuccess_check {c : Prop} [Decidable c] {e : Cause} {f : Unit → Result}
    (h : ¬ c → LeavesOnSuccess P (f ())) : LeavesOnSuccess P (raiseIf c e >>= f) :=
  leavesOnSuccess_bind_of_eq_ok fun _ hc => h (raiseIf_eq_ok.mp hc)

theorem leavesOnSuccess_header {m : SizeClass} {s : State} {f : Unit → Result}
    (h : headerWidth m ≤ s.flen → LeavesOnSuccess P (f ())) : LeavesOnSuccess P (requireHeader m s >>= f) :=
  leavesOnSuccess_bind_of_eq_ok fun _ hlen => h (requireHeader_eq_ok.mp hlen)

end

section
variable {s : State}

/-- A store inside the header, past the header check, keeps the data sound. -/
theorem SoundData.fbStore {m : SizeClass} {a : Nat} {bs : List Byte} (h : SoundData s) (hlen : headerWidth m ≤ s.flen)
    (hend : a + bs.length ≤ headerWidth m) : SoundData (s.fbStore a bs) := by
  obtain ⟨hlegal, hbuffer, hdb, hchain⟩ := h
  exact ⟨hlegal, hbuffer.store (hend.trans hlen), hdb, hchain⟩

theorem SoundData.writeField {f : WireField} {m : SizeClass} {v : Nat} (h : SoundData s) (hlen : headerWidth m ≤ s.flen) :
    SoundData (s.writeField f m v) :=
  h.fbStore hlen (by rw [beBytes_length]; exact fieldAt_end f m)

/-- R91 lines 3 and 4 keep the data sound: the header fits the smallest legal buffer. -/
theorem SoundData.packHeader {m : SizeClass} {h : Header} (hs : SoundData s) :
    SoundData ((s.coverHeader m).fbStore 0 (pack h m)) := by
  obtain ⟨hlegal, hbuffer, hdb, hchain⟩ := hs
  have hcover : SoundData (s.coverHeader m) := by
    rw [State.coverHeader_eq]
    exact ⟨hlegal, soundBuffer_coverHeader hbuffer hlegal, hdb, hchain⟩
  have hflen : headerWidth m ≤ (s.coverHeader m).flen := by
    rw [State.coverHeader_eq]
    exact le_max_right _ _
  exact hcover.fbStore hflen (by rw [pack_length, Nat.zero_add])

/-- R208 line 3 keeps the data sound: at `FLEN` the frame grows by the byte stored. -/
theorem SoundData.fbWrite {a : Nat} {b : Byte} (hs : SoundData s) (hflen : a ≤ s.flen) (hsize : a < s.config.fbSize) :
    SoundData ((s.fbStore a [b]).extendAt a) := by
  obtain ⟨hlegal, hbuffer, hdb, hchain⟩ := hs
  have hbyte : [b].length = 1 := List.length_singleton
  rw [State.extendAt_eq, State.fbStore_flen]
  by_cases hend : a = s.flen
  · rw [if_pos hend]
    exact ⟨hlegal, hbuffer.writeBytes (n := s.flen + 1) (Nat.le_succ _) (by omega) (by omega), hdb, hchain⟩
  · rw [if_neg hend]
    exact ⟨hlegal, hbuffer.store (by omega), hdb, hchain⟩

theorem leavesOnSuccess_setField_soundData {f : WireField} {m : SizeClass} {v : BitVec 32} (h : SoundData s) :
    LeavesOnSuccess SoundData (setField f m v s) := by
  intro t w hr
  obtain ⟨hlen, -, rfl, -⟩ := setField_eq_ok.mp hr
  exact h.writeField hlen

/-- The body of every command but `STATUS_GET` keeps the data sound. First the commands that write none of it, by the number of their
checks and reads, then those that do. -/
theorem leaves_soundData {i : Instr} (hs : SoundData s) (hi : i ≠ .statusGet) : Leaves SoundData i s := by
  obtain ⟨hlegal, hbuffer, hdb, hchain⟩ := id hs
  cases i with
  | statusGet => exact absurd rfl hi
  | nop | statusClr => exact ⟨_, rfl, leavesOnSuccess_ok hs⟩
  | getHopLimit | getHeartRate | getSrc | getDst | getLen | getChecksum => exact ⟨_, rfl, leavesOnSuccess_getField hs⟩
  | sysGet | cksumCompute | getPriority | isMicro | getBlockLen | hrGet | fbRead | blkType | blkLen =>
    exact ⟨_, rfl, leavesOnSuccess_bind fun _ => leavesOnSuccess_ok hs⟩
  | hdrUnpack | cksumVerify | getBlockNext | getBlockData | hrSet | blkByte =>
    exact ⟨_, rfl, leavesOnSuccess_bind fun _ => leavesOnSuccess_bind fun _ => leavesOnSuccess_ok hs⟩
  | reset =>
    exact ⟨_, rfl, leavesOnSuccess_ok
      ⟨hlegal, ⟨Memory.wf_nil, List.forall_mem_nil _, Nat.zero_le _⟩, Nat.zero_le _, soundChain_nil⟩⟩
  | setHeartRate | setSrc | setDst | setLen | setChecksum => exact ⟨_, rfl, leavesOnSuccess_setField_soundData hs⟩
  | cksumStamp => exact ⟨_, rfl, leavesOnSuccess_header fun hlen => leavesOnSuccess_ok (hs.writeField hlen)⟩
  | setPriority m =>
    exact ⟨_, rfl, leavesOnSuccess_header fun hlen => leavesOnSuccess_ok (hs.fbStore hlen (two_le_headerWidth m))⟩
  | addHopLimit m =>
    exact ⟨_, rfl, leavesOnSuccess_header fun hlen =>
      leavesOnSuccess_ok (hs.fbStore hlen (Nat.le_of_succ_le (two_le_headerWidth m)))⟩
  | hdrPack =>
    exact ⟨_, rfl, leavesOnSuccess_bind fun _ => leavesOnSuccess_bind fun _ => leavesOnSuccess_ok hs.packHeader⟩
  | blkSerialize =>
    refine ⟨_, rfl, leavesOnSuccess_bind_of_eq_ok fun _ hser => leavesOnSuccess_ok ?_⟩
    obtain ⟨-, -, hsize⟩ := requireSerializable_eq_ok.mp hser
    exact ⟨hlegal, soundBuffer_truncate (Memory.wf_writeBytes (Memory.wf_writeBytes hbuffer.canonical _) _) hsize, hdb,
      hchain⟩
  | dump =>
    refine ⟨_, rfl, leavesOnSuccess_bind fun _ => leavesOnSuccess_bind_of_eq_ok fun _ hser =>
      leavesOnSuccess_bind fun _ => leavesOnSuccess_ok ?_⟩
    obtain ⟨-, -, hsize⟩ := requireSerializable_eq_ok.mp hser
    exact ⟨hlegal, soundBuffer_truncate (Memory.wf_writeBytes hbuffer.canonical _) hsize, hdb, hchain⟩
  | fbWrite =>
    refine ⟨_, rfl, leavesOnSuccess_check fun hpass => leavesOnSuccess_ok ?_⟩
    rw [not_or, not_or] at hpass
    obtain ⟨hflen, hsize, -⟩ := hpass
    exact hs.fbWrite (Nat.not_lt.mp hflen) (Nat.not_le.mp hsize)
  | fbSetlen =>
    refine ⟨_, rfl, leavesOnSuccess_check fun hlen => leavesOnSuccess_ok ?_⟩
    exact ⟨hlegal, soundBuffer_truncate hbuffer.canonical ((Nat.not_lt.mp hlen).trans hbuffer.bound), hdb, hchain⟩
  | blkAppend =>
    refine ⟨_, rfl, leavesOnSuccess_bind fun _ => leavesOnSuccess_check fun hcount => leavesOnSuccess_check fun htotal =>
      leavesOnSuccess_ok ?_⟩
    exact ⟨hlegal, hbuffer, Nat.zero_le _,
      hchain.concat hcount (Nat.not_lt.mp htotal) (hdb.trans hlegal.dbMax_le)⟩
  | blkClear => exact ⟨_, rfl, leavesOnSuccess_ok ⟨hlegal, hbuffer, hdb, soundChain_nil⟩⟩
  | blkDeserialize =>
    exact ⟨_, rfl, leavesOnSuccess_bind fun _ => leavesOnSuccess_bind fun _ => leavesOnSuccess_bind fun _ =>
      leavesOnSuccess_bind_of_eq_ok fun _ hparse =>
      leavesOnSuccess_ok ⟨hlegal, hbuffer, hdb, soundChain_of_parse_eq_ok hparse⟩⟩
  | load =>
    exact ⟨_, rfl, leavesOnSuccess_bind fun _ => leavesOnSuccess_bind fun _ => leavesOnSuccess_bind fun _ =>
      leavesOnSuccess_bind fun _ => leavesOnSuccess_bind fun _ => leavesOnSuccess_bind_of_eq_ok fun _ hparse =>
      leavesOnSuccess_ok ⟨hlegal, hbuffer, hdb, soundChain_of_parse_eq_ok hparse⟩⟩
  | dbClear => exact ⟨_, rfl, leavesOnSuccess_ok ⟨hlegal, hbuffer, Nat.zero_le _, hchain⟩⟩
  | dbPush =>
    refine ⟨_, rfl, leavesOnSuccess_check fun hpass => leavesOnSuccess_ok ?_⟩
    obtain ⟨-, hroom⟩ := not_or.mp hpass
    exact ⟨hlegal, hbuffer, by rw [List.length_append]; exact lt_of_le_of_ne hdb hroom, hchain⟩

theorem soundData_of_exec {i : Instr} {t : State} (hs : SoundData s) (h : exec i s = .next t) : SoundData t := by
  by_cases hi : i = .statusGet
  · subst hi
    obtain rfl : s.respond false 0 s.status.word = t := by simpa [exec_statusGet] using h
    exact hs
  · rcases exec_cases_of_leaves (leaves_soundData hs hi) h with ⟨x, v, rfl, hx⟩ | ⟨e, rfl⟩
    · exact hx
    · rw [State.raise_eq_err]
      exact hs

end

/-- Settles O14: every command keeps both parts of the invariant, and a word that does not decode leaves the data alone and in
`LAST` the code of IllegalCommand. -/
theorem stepKeepsTheInvariant : Obligations.StepKeepsTheInvariant := by
  unfold Obligations.StepKeepsTheInvariant
  intro s t hs h
  simp only [inv_iff] at hs ⊢
  refine step_keeps (P := fun s => SoundData s ∧ SoundStatus s.status) (fun hs => hs) (fun hs => ?_)
    (fun hwf hs h => ?_) hs h
  · obtain ⟨hdata, -⟩ := hs
    exact ⟨hdata, soundStatus_err (by decide) (by decide)⟩
  · obtain ⟨hdata, hstatus⟩ := hs
    exact ⟨soundData_of_exec hdata h, soundStatus_of_exec hwf hstatus h⟩

end Sys2Proof.Machine
end

section
/-!
PROOFS. The outcomes of `DUMP` and `LOAD` (R190, R192): each check that fails raises its cause, wrapped for `LOAD`, and what passes
every check is the message that `Dumps` and `Loads` speak of.
-/

namespace Sys2Proof.Machine

open Sys2Proof.Statement

section
variable {m : SizeClass} {s : State}

/-! ### `DUMP` -/

theorem classOf_of_eq_cfgOf {code : BitVec 2} (hcodes : CodesDistinct s) (h : code = cfgOf s m) :
    classOf s.config code = .ok m := by
  rw [classOf_eq_ok hcodes, h]
  cases m <;> rfl

theorem exec_dump_of_no_class (h : ∀ m, s.hr.cfgHdr ≠ cfgOf s m) : exec .dump s = .next (err s 0x01) :=
  answer_of_eq_malformedHeader (bind_eq_error.mpr (.inl (classOf_eq_error.mpr ⟨⟨h .full, h .micro⟩, rfl⟩)))

/-- Past the class, the checks of `DUMP` all raise RangeError. -/
theorem exec_dump_of_not_fits (hclass : classOf s.config s.hr.cfgHdr = .ok m)
    (h : ¬ BlocksFit s.bc m ∨ ¬ LengthFits s.config s.bc m ∨ ¬ IdsFit s.hr m) : exec .dump s = .next (err s 0x06) := by
  refine answer_of_eq_rangeError (bind_eq_error.mpr (.inr ⟨m, hclass, ?_⟩))
  by_cases hser : BlocksFit s.bc m ∧ LengthFits s.config s.bc m
  · obtain ⟨hblocks, hlength⟩ := hser
    have hids : ¬ s.hr.idsFit m := (h.resolve_left (not_not_intro hblocks)).resolve_left (not_not_intro hlength)
    exact bind_eq_error.mpr (.inr ⟨(), requireSerializable_eq_ok_iff.mpr ⟨hblocks, hlength⟩,
      bind_eq_error.mpr (.inl (raiseIf_of hids))⟩)
  · exact bind_eq_error.mpr (.inl (requireSerializable_of_not_fits (not_and_or.mp hser)))

/-- Settles O48: the class check, then the checks that raise RangeError. -/
theorem dumpErrors : Obligations.DumpErrors := by
  unfold Obligations.DumpErrors
  exact fun s => ⟨exec_dump_of_no_class,
    fun m hcodes hcfg => exec_dump_of_not_fits (classOf_of_eq_cfgOf hcodes hcfg)⟩

/-- Settles O49: the frame byte by byte by `dumped_read`, the checksum over the region as R111 cuts it. -/
theorem dumpBuildsTheFrame : Obligations.DumpBuildsTheFrame := by
  unfold Obligations.DumpBuildsTheFrame
  rintro s m raw c hcodes hcfg hblocks hlength hids rfl hc
  obtain rfl : dumpChecksum m s = c := by
    rw [hc, ← checksumOffset_add_two m]
    rfl
  have hdumps : Dumps m s := ⟨classOf_of_eq_cfgOf hcodes hcfg, hblocks, hlength, hids⟩
  exact ⟨commandWord_eq_word 0x60 0 0 0, _, fun _ => dumped_read m s, exec_dump_of_dumps hdumps⟩

/-! ### `LOAD` -/

/-- The response code of an error that is wrapped in DecodeError (R72, R233). -/
theorem responseCode_true (c : BitVec 4) : responseCode true c = 0x80 ||| c.setWidth 8 := by
  revert c; decide

theorem answerWrapped_of_eq_error {e : Cause} {r : Result} (h : r = .error e) :
    answerWrapped s r = .next (err s (0x80 ||| e.code.setWidth 8)) := by
  rw [h, answerWrapped_error, State.raise_eq_err, responseCode_true]

theorem exec_load (s : State) : exec .load s = execLoad s := rfl

theorem exec_load_of_wireClass_eq_error (h : wireClass s = .error .malformedHeader) :
    exec .load s = .next (err s 0x81) :=
  answerWrapped_of_eq_error (bind_eq_error.mpr (.inl h))

theorem exec_load_of_flen_lt (hclass : wireClass s = .ok m) (hshort : s.flen < headerWidth m) :
    exec .load s = .next (err s 0x81) := by
  have hheader : requireHeader m s = .error .malformedHeader := requireHeader_eq_error.mpr ⟨hshort, rfl⟩
  rw [exec_load, execLoad, hclass, ok_bind, hheader]
  exact answerWrapped_of_eq_error rfl

/-- R192 from line 4 on, in the terms of the statement. -/
theorem exec_load_of_le_flen (hclass : wireClass s = .ok m) (hlen : headerWidth m ≤ s.flen) :
    exec .load s = answerWrapped s do
      raiseIf (s.flen < headerWidth m + declaredLen m s) .truncatedBlock
      raiseIf (s.config.cksum (checked m s) ≠ embedded m s) .checksumMismatch
      raiseIf (headerWidth m + declaredLen m s < s.flen) .malformedPayload
      let bc ← parse s.config m (bytesAt s (headerWidth m) (declaredLen m s))
      return ((loaded m bc s).setCkv true, BitVec.ofNat 32 bc.length) := by
  have hheader : requireHeader m s = .ok () := requireHeader_eq_ok.mpr hlen
  rw [← State.payloadRegion_eq_bytesAt, ← State.wireLen_eq_declaredLen, ← State.computedChecksum_eq hlen,
    ← State.storedChecksum_eq_embedded, exec_load, execLoad, hclass, ok_bind, hheader, ok_bind]
  rfl

theorem exec_load_of_flen_lt_declared (hclass : wireClass s = .ok m) (hlen : headerWidth m ≤ s.flen)
    (hshort : s.flen < headerWidth m + declaredLen m s) : exec .load s = .next (err s 0x82) := by
  rw [exec_load_of_le_flen hclass hlen]
  exact answerWrapped_of_eq_error (bind_eq_error.mpr (.inl (raiseIf_of hshort)))

/-- R192 from line 5 on. -/
theorem exec_load_of_declared_le (hclass : wireClass s = .ok m) (hdeclared : headerWidth m + declaredLen m s ≤ s.flen) :
    exec .load s = answerWrapped s do
      raiseIf (s.config.cksum (checked m s) ≠ embedded m s) .checksumMismatch
      raiseIf (headerWidth m + declaredLen m s < s.flen) .malformedPayload
      let bc ← parse s.config m (bytesAt s (headerWidth m) (declaredLen m s))
      return ((loaded m bc s).setCkv true, BitVec.ofNat 32 bc.length) := by
  rw [exec_load_of_le_flen hclass ((Nat.le_add_right _ _).trans hdeclared), raiseIf_of_not (Nat.not_lt.mpr hdeclared),
    ok_bind]

theorem exec_load_of_cksum_ne (hclass : wireClass s = .ok m) (hdeclared : headerWidth m + declaredLen m s ≤ s.flen)
    (hsum : s.config.cksum (checked m s) ≠ embedded m s) : exec .load s = .next (err s 0x83) := by
  rw [exec_load_of_declared_le hclass hdeclared]
  exact answerWrapped_of_eq_error (bind_eq_error.mpr (.inl (raiseIf_of hsum)))

theorem exec_load_of_declared_lt_flen (hclass : wireClass s = .ok m) (hlong : headerWidth m + declaredLen m s < s.flen)
    (hsum : s.config.cksum (checked m s) = embedded m s) : exec .load s = .next (err s 0x85) := by
  rw [exec_load_of_declared_le hclass hlong.le, raiseIf_of_not (not_not_intro hsum), ok_bind]
  exact answerWrapped_of_eq_error (bind_eq_error.mpr (.inl (raiseIf_of hlong)))

theorem exec_load_of_parse_eq_error {e : Cause} (hclass : wireClass s = .ok m)
    (hflen : s.flen = headerWidth m + declaredLen m s) (hsum : s.config.cksum (checked m s) = embedded m s)
    (hparse : parse s.config m (bytesAt s (headerWidth m) (declaredLen m s)) = .error e) :
    exec .load s = .next (err s (0x80 ||| e.code.setWidth 8)) := by
  rw [exec_load_of_declared_le hclass hflen.ge, raiseIf_of_not (not_not_intro hsum), ok_bind,
    raiseIf_of_not hflen.not_gt, ok_bind]
  exact answerWrapped_of_eq_error (bind_eq_error.mpr (.inl hparse))

/-- Settles O50: the checks of R192 in their order, each with the cause it raises. -/
theorem loadErrors : Obligations.LoadErrors := by
  unfold Obligations.LoadErrors
  refine fun s => ⟨fun hshort => exec_load_of_wireClass_eq_error (wireClass_of_flen_lt hshort), fun hlen hcfg => ?_,
    fun m hcodes hlen hcfg => ?_⟩
  · have hnone : wireClass s = .error .malformedHeader := by
      rw [wireClass, raiseIf_of_not (Nat.not_lt.mpr hlen), ok_bind]
      exact classOf_eq_error.mpr ⟨⟨hcfg .full, hcfg .micro⟩, rfl⟩
    exact exec_load_of_wireClass_eq_error hnone
  · have hclass := (wireClass_eq_ok_iff_cfgOf hcodes).mpr ⟨hlen, hcfg⟩
    exact ⟨exec_load_of_flen_lt hclass, exec_load_of_flen_lt_declared hclass, exec_load_of_cksum_ne hclass,
      exec_load_of_declared_lt_flen hclass, fun _ => exec_load_of_parse_eq_error hclass⟩

/-- Settles O51: a valid frame passes the checks of `Loads`. -/
theorem loadUnpacksAValidFrame : Obligations.LoadUnpacksAValidFrame := by
  unfold Obligations.LoadUnpacksAValidFrame
  refine ⟨commandWord_eq_word 0x61 0 0 0, fun s m bc hcodes hlen hcfg hflen hsum hparse => ?_⟩
  have hheader : headerWidth m ≤ s.flen := hflen ▸ Nat.le_add_right _ _
  rw [← State.computedChecksum_eq hheader, ← State.storedChecksum_eq_embedded] at hsum
  rw [← State.payloadRegion_eq_bytesAt] at hparse
  rw [← State.wireLen_eq_declaredLen] at hflen
  exact exec_load_of_loads ⟨(wireClass_eq_ok_iff_cfgOf hcodes).mpr ⟨hlen, hcfg⟩, hflen, hsum, hparse⟩

end

end Sys2Proof.Machine
end

section
/-!
PROOFS. No command reads a byte at or above `FLEN` (R29). Two states that differ only in such bytes are run side by side: every check
and every read of a command gives the same in both, past the checks before it, and what the command writes is the same in both, so
their results agree.
-/

namespace Sys2Proof.Machine

open Sys2Proof.Statement

/-! ### States that agree below `FLEN` -/

/-- `s` with another memory. -/
def State.withFb (s : State) (mem : Memory) : State := { s with fb := mem }

/-- The memory reads as that of `s` below `FLEN`. -/
def ReadsAlike (s : State) (mem : Memory) : Prop := ∀ a, a < s.flen → s.fb.read a = mem.read a

theorem agreeBelowFlen_iff {s t : State} : AgreeBelowFlen s t ↔ ∃ mem, t = s.withFb mem ∧ ReadsAlike s mem := by
  constructor
  · rintro ⟨hrest, hreads⟩
    refine ⟨t.fb, ?_, hreads⟩
    have hfb := congrArg (fun x : State => x.withFb t.fb) hrest
    exact hfb.symm
  · rintro ⟨mem, rfl, hreads⟩
    exact ⟨rfl, hreads⟩

/-- Two results agree: the same error, or the same value and states that agree below `FLEN`. -/
inductive ResultsAgree : Result → Result → Prop
  | ok {t t' : State} {v v' : BitVec 32} (hstate : AgreeBelowFlen t t') (hvalue : v = v') :
      ResultsAgree (.ok (t, v)) (.ok (t', v'))
  | error (e : Cause) : ResultsAgree (.error e) (.error e)

section
variable {s : State} {mem : Memory}

theorem agree_withFb (h : ReadsAlike s mem) : AgreeBelowFlen s (s.withFb mem) := ⟨rfl, h⟩

theorem agree_raise {t t' : State} (h : AgreeBelowFlen t t') (de : Bool) (e : Cause) :
    AgreeBelowFlen (t.raise de e) (t'.raise de e) := by
  obtain ⟨mem, rfl, hreads⟩ := agreeBelowFlen_iff.mp h
  rw [State.raise_eq_err, State.raise_eq_err]
  exact ⟨rfl, hreads⟩

theorem agree_succeed {t t' : State} (h : AgreeBelowFlen t t') (v : BitVec 32) :
    AgreeBelowFlen (t.succeed v) (t'.succeed v) := by
  obtain ⟨mem, rfl, hreads⟩ := agreeBelowFlen_iff.mp h
  exact ⟨rfl, hreads⟩

theorem agree_finish {t t' : State} {r r' : Result} (h : AgreeBelowFlen t t') (hr : ResultsAgree r r')
    (de : Bool) : AgreeBelowFlen (t.finish de r) (t'.finish de r') := by
  cases hr with
  | ok hstate hvalue => exact hvalue ▸ agree_succeed hstate _
  | error e => exact agree_raise h de e

/-- A check or a read that gives the same in both states. -/
theorem resultsAgree_bind {β : Type} {x x' : Except Cause β} {f f' : β → Result} (hx : x = x')
    (hf : ∀ y, x = .ok y → ResultsAgree (f y) (f' y)) : ResultsAgree (x >>= f) (x' >>= f') := by
  subst hx
  cases x with
  | ok y => exact hf y rfl
  | error e => exact .error e

theorem resultsAgree_header {m : SizeClass} {f f' : Unit → Result}
    (hf : headerWidth m ≤ s.flen → ResultsAgree (f ()) (f' ())) :
    ResultsAgree (requireHeader m s >>= f) (requireHeader m (s.withFb mem) >>= f') :=
  resultsAgree_bind rfl fun _ hlen => hf (requireHeader_eq_ok.mp hlen)

/-! ### Reads -/

/-- A run of bytes below `FLEN`. -/
theorem fbBytes_withFb (h : ReadsAlike s mem) {lo n : Nat} (hend : lo + n ≤ s.flen) :
    (s.withFb mem).fbBytes lo n = s.fbBytes lo n :=
  State.fbBytes_congr fun a _ ha => (h a (by omega)).symm

theorem memRead_withFb (h : ReadsAlike s mem) {lo n : Nat} (hend : lo + n ≤ s.flen) :
    (s.withFb mem).memRead lo n = s.memRead lo n := congrArg beNat (fbBytes_withFb h hend)

theorem readField_withFb (h : ReadsAlike s mem) {m : SizeClass} (hlen : headerWidth m ≤ s.flen) (f : WireField) :
    (s.withFb mem).readField f m = s.readField f m := memRead_withFb h ((fieldAt_end f m).trans hlen)

theorem wireLen_withFb (h : ReadsAlike s mem) {m : SizeClass} (hlen : headerWidth m ≤ s.flen) :
    (s.withFb mem).wireLen m = s.wireLen m := readField_withFb h hlen .len

theorem payloadRegion_withFb (h : ReadsAlike s mem) {m : SizeClass} (hlen : headerWidth m ≤ s.flen)
    (hwhole : headerWidth m + s.wireLen m ≤ s.flen) : (s.withFb mem).payloadRegion m = s.payloadRegion m := by
  rw [State.payloadRegion, wireLen_withFb h hlen]
  exact fbBytes_withFb h hwhole

theorem storedChecksum_withFb (h : ReadsAlike s mem) {m : SizeClass} (hlen : headerWidth m ≤ s.flen) :
    (s.withFb mem).storedChecksum m = s.storedChecksum m := congrArg _ (readField_withFb h hlen .checkSum)

theorem computedChecksum_withFb (h : ReadsAlike s mem) (m : SizeClass) :
    (s.withFb mem).computedChecksum m = s.computedChecksum m :=
  State.computedChecksum_congr rfl rfl fun a ha _ _ => (h a ha).symm

theorem wireClass_withFb (h : ReadsAlike s mem) : wireClass (s.withFb mem) = wireClass s := by
  by_cases hlen : s.flen < 2
  · rw [wireClass_of_flen_lt hlen]
    exact wireClass_of_flen_lt hlen
  · have hread : (s.withFb mem).fb.read 1 = s.fb.read 1 := (h 1 (by omega)).symm
    rw [wireClass, wireClass, hread]
    rfl

/-- Two computations that check and read the same, step by step. -/
theorem bind_eq_bind_of_eq_ok {α β : Type} {x x' : Except Cause β} {f f' : β → Except Cause α} (hx : x = x')
    (hf : ∀ y, x = .ok y → f y = f' y) : x >>= f = x' >>= f' := by
  subst hx
  cases x with
  | ok y => exact hf y rfl
  | error e => rfl

/-- R166: the sub-header at an offset, past the checks of `blk`, lies below `FLEN`. -/
theorem blk_withFb (h : ReadsAlike s mem) (m : SizeClass) (off : Nat) : blk m off s = blk m off (s.withFb mem) := by
  refine bind_eq_bind_of_eq_ok rfl fun _ hlen => ?_
  rw [requireHeader_eq_ok] at hlen
  rw [wireLen_withFb h hlen]
  refine bind_eq_bind_of_eq_ok rfl fun _ hsub => ?_
  rw [raiseIf_eq_ok] at hsub
  have hwidths := blockWidths_le m
  have hend : headerWidth m + off + subHeaderWidth m ≤ s.flen := by omega
  have hblen := memRead_withFb h (lo := headerWidth m + off + blockTypeWidth m) (n := blockLenWidth m) (by omega)
  dsimp only
  cases m with
  | full =>
    rw [hblen, memRead_withFb h (lo := headerWidth .full + off + 4) (n := 2) hend]
    rfl
  | micro =>
    rw [hblen]
    rfl

/-! ### Writes -/

theorem agree_setCkv {t t' : State} (h : AgreeBelowFlen t t') (b : Bool) :
    AgreeBelowFlen (t.setCkv b) (t'.setCkv b) := by
  obtain ⟨mem, rfl, hreads⟩ := agreeBelowFlen_iff.mp h
  exact ⟨rfl, hreads⟩

theorem agree_fbStore {t t' : State} (h : AgreeBelowFlen t t') (a : Nat) (bs : List Byte) :
    AgreeBelowFlen (t.fbStore a bs) (t'.fbStore a bs) := by
  obtain ⟨mem, rfl, hreads⟩ := agreeBelowFlen_iff.mp h
  refine ⟨rfl, fun x hx => ?_⟩
  rw [State.fbStore_read, State.fbStore_read]
  exact if_congr Iff.rfl rfl (hreads x hx)

theorem agree_packHeader (h : ReadsAlike s mem) (m : SizeClass) :
    AgreeBelowFlen ((s.coverHeader m).fbStore 0 (pack s.hr m))
      (((s.withFb mem).coverHeader m).fbStore 0 (pack s.hr m)) := by
  refine ⟨by simp [State.withFb], fun a ha => ?_⟩
  rw [State.fbStore_flen, State.coverHeader_flen] at ha
  rw [State.storeHeader_read, State.storeHeader_read]
  split
  · rfl
  · exact h a (by grind)

theorem agree_storePayload (h : ReadsAlike s mem) (m : SizeClass) :
    AgreeBelowFlen
      (((s.zeroFill (headerWidth m)).fbStore (headerWidth m) (ser m s.bc)).cutFlen (headerWidth m + payloadLength m s.bc))
      ((((s.withFb mem).zeroFill (headerWidth m)).fbStore (headerWidth m) (ser m s.bc)).cutFlen
        (headerWidth m + payloadLength m s.bc)) := by
  refine ⟨rfl, fun a ha => ?_⟩
  rw [State.storePayload_read _ _ _ ha, State.storePayload_read _ _ _ ha]
  split
  · rfl
  · exact if_ctx_congr Iff.rfl (fun hlt => h a hlt) fun _ => rfl

theorem agree_dumped (s : State) (mem : Memory) (m : SizeClass) : AgreeBelowFlen (dumped m s) (dumped m (s.withFb mem)) := by
  refine ⟨rfl, fun a ha => ?_⟩
  rw [dumped_read m s ha]
  exact (dumped_read m (s.withFb mem) ha).symm

theorem read_fbStore_singleton (s : State) (a : Nat) (b : Byte) (x : Nat) :
    (s.fbStore a [b]).fb.read x = if x = a then b else s.fb.read x :=
  read_of_stores_singleton (stores_writeBytes s.fb a [b]) x

theorem agree_extendAt (h : ReadsAlike s mem) (a : Nat) (b : Byte) :
    AgreeBelowFlen ((s.fbStore a [b]).extendAt a) (((s.withFb mem).fbStore a [b]).extendAt a) := by
  rw [State.extendAt_eq, State.extendAt_eq]
  refine ⟨rfl, fun x hx => ?_⟩
  rw [read_fbStore_singleton, read_fbStore_singleton]
  exact if_ctx_congr Iff.rfl (fun _ => rfl) fun hne => h x (by grind [State.fbStore_flen])

theorem agree_cutFlen (h : ReadsAlike s mem) {n : Nat} (hn : n ≤ s.flen) :
    AgreeBelowFlen (s.cutFlen n) ((s.withFb mem).cutFlen n) := by
  refine ⟨rfl, fun a ha => ?_⟩
  rw [State.cutFlen_read, State.cutFlen_read]
  exact if_ctx_congr Iff.rfl (fun hlt => h a (hlt.trans_le hn)) fun _ => rfl

/-! ### Commands -/

theorem resultsAgree_getField (h : ReadsAlike s mem) (f : WireField) (m : SizeClass) :
    ResultsAgree (getField f m s) (getField f m (s.withFb mem)) :=
  resultsAgree_header fun hlen => .ok (agree_withFb h) (congrArg _ (readField_withFb h hlen f).symm)

theorem resultsAgree_setField (h : ReadsAlike s mem) (f : WireField) (m : SizeClass) (v : BitVec 32) :
    ResultsAgree (setField f m v s) (setField f m v (s.withFb mem)) :=
  resultsAgree_header fun _ => resultsAgree_bind rfl fun _ _ =>
    .ok (agree_setCkv (agree_fbStore (agree_withFb h) _ _) false) rfl

/-- Every command but `STATUS_GET` finishes results that agree. The commands that read and write nothing of `FB` come first, by the
number of their checks. -/
theorem exec_withFb {i : Instr} (h : ReadsAlike s mem) (hi : i ≠ .statusGet) :
    ∃ r r', exec i s = .next (s.finish (decide (i = .load)) r) ∧
      exec i (s.withFb mem) = .next ((s.withFb mem).finish (decide (i = .load)) r') ∧ ResultsAgree r r' := by
  have hs := agree_withFb h
  cases i with
  | statusGet => exact absurd rfl hi
  | nop | statusClr | blkClear | dbClear => exact ⟨_, _, rfl, rfl, .ok ⟨rfl, h⟩ rfl⟩
  | sysGet | hrGet | dbPush | blkType | blkLen =>
    exact ⟨_, _, rfl, rfl, resultsAgree_bind rfl fun _ _ => .ok ⟨rfl, h⟩ rfl⟩
  | hrSet | blkByte =>
    exact ⟨_, _, rfl, rfl, resultsAgree_bind rfl fun _ _ => resultsAgree_bind rfl fun _ _ => .ok ⟨rfl, h⟩ rfl⟩
  | blkAppend =>
    exact ⟨_, _, rfl, rfl, resultsAgree_bind rfl fun _ _ => resultsAgree_bind rfl fun _ _ =>
      resultsAgree_bind rfl fun _ _ => .ok ⟨rfl, h⟩ rfl⟩
  | reset => exact ⟨_, _, rfl, rfl, .ok ⟨rfl, fun _ _ => rfl⟩ rfl⟩
  | getHopLimit | getHeartRate | getSrc | getDst | getLen | getChecksum =>
    exact ⟨_, _, rfl, rfl, resultsAgree_getField h _ _⟩
  | setHeartRate | setSrc | setDst | setLen | setChecksum => exact ⟨_, _, rfl, rfl, resultsAgree_setField h _ _ _⟩
  | cksumCompute m =>
    exact ⟨_, _, rfl, rfl, resultsAgree_header fun _ => .ok hs (congrArg _ (computedChecksum_withFb h m).symm)⟩
  | cksumStamp m =>
    refine ⟨_, _, rfl, rfl, resultsAgree_header fun _ => ?_⟩
    rw [computedChecksum_withFb h]
    exact .ok (agree_setCkv (agree_fbStore hs _ _) true) rfl
  | cksumVerify m =>
    refine ⟨_, _, rfl, rfl, resultsAgree_header fun hlen => ?_⟩
    rw [computedChecksum_withFb h, storedChecksum_withFb h hlen]
    exact resultsAgree_bind rfl fun _ _ => .ok (agree_setCkv hs true) rfl
  | getPriority m =>
    refine ⟨_, _, rfl, rfl, resultsAgree_header fun hlen => .ok hs ?_⟩
    rw [h 1 ((two_le_headerWidth m).trans hlen)]
    rfl
  | setPriority m =>
    refine ⟨_, _, rfl, rfl, resultsAgree_header fun hlen => ?_⟩
    rw [h 1 ((two_le_headerWidth m).trans hlen)]
    exact .ok (agree_setCkv (agree_fbStore hs _ _) false) rfl
  | addHopLimit m =>
    refine ⟨_, _, rfl, rfl, resultsAgree_header fun hlen => ?_⟩
    rw [h 0 ((Nat.zero_lt_two.trans_le (two_le_headerWidth m)).trans_le hlen)]
    exact .ok (agree_setCkv (agree_fbStore hs _ _) false) rfl
  | isMicro =>
    exact ⟨_, _, rfl, rfl, resultsAgree_bind (wireClass_withFb h).symm fun _ _ => .ok hs rfl⟩
  | getBlockNext m off =>
    exact ⟨_, _, rfl, rfl, resultsAgree_bind (blk_withFb h m off.toNat) fun _ _ => resultsAgree_bind rfl fun _ _ =>
      .ok hs rfl⟩
  | getBlockLen m off =>
    exact ⟨_, _, rfl, rfl, resultsAgree_bind (blk_withFb h m off.toNat) fun _ _ => .ok hs rfl⟩
  | getBlockData m off =>
    exact ⟨_, _, rfl, rfl, resultsAgree_bind (blk_withFb h m off.toNat) fun _ _ => resultsAgree_bind rfl fun _ _ =>
      .ok hs rfl⟩
  | fbRead addr =>
    refine ⟨_, _, rfl, rfl, resultsAgree_bind rfl fun _ hlt => .ok hs ?_⟩
    rw [h addr.toNat (Nat.not_le.mp (raiseIf_eq_ok.mp hlt))]
    rfl
  | fbWrite addr =>
    exact ⟨_, _, rfl, rfl, resultsAgree_bind rfl fun _ _ => .ok (agree_setCkv (agree_extendAt h _ _) false) rfl⟩
  | fbSetlen n =>
    exact ⟨_, _, rfl, rfl, resultsAgree_bind rfl fun _ hlen =>
      .ok (agree_setCkv (agree_cutFlen h (Nat.not_lt.mp (raiseIf_eq_ok.mp hlen))) false) rfl⟩
  | hdrPack m =>
    exact ⟨_, _, rfl, rfl, resultsAgree_bind rfl fun _ _ => resultsAgree_bind rfl fun _ _ =>
      .ok (agree_setCkv (agree_packHeader h m) false) rfl⟩
  | hdrUnpack m =>
    refine ⟨_, _, rfl, rfl, resultsAgree_header fun hlen => ?_⟩
    rw [fbBytes_withFb h (lo := 0) (by omega)]
    exact resultsAgree_bind rfl fun _ _ => .ok ⟨rfl, h⟩ rfl
  | blkSerialize m =>
    exact ⟨_, _, rfl, rfl, resultsAgree_bind rfl fun _ _ => .ok (agree_setCkv (agree_storePayload h m) false) rfl⟩
  | blkDeserialize m =>
    refine ⟨_, _, rfl, rfl, resultsAgree_header fun hlen => ?_⟩
    rw [wireLen_withFb h hlen]
    refine resultsAgree_bind rfl fun _ hshort => resultsAgree_bind rfl fun _ _ => ?_
    rw [payloadRegion_withFb h hlen (Nat.not_lt.mp (raiseIf_eq_ok.mp hshort))]
    exact resultsAgree_bind rfl fun _ _ => .ok ⟨rfl, h⟩ rfl
  | dump =>
    exact ⟨_, _, rfl, rfl, resultsAgree_bind rfl fun m _ => resultsAgree_bind rfl fun _ _ =>
      resultsAgree_bind rfl fun _ _ => .ok (agree_setCkv (agree_dumped s mem m) true) rfl⟩
  | load =>
    refine ⟨_, _, rfl, rfl, resultsAgree_bind (wireClass_withFb h).symm fun m _ => resultsAgree_header fun hlen => ?_⟩
    rw [wireLen_withFb h hlen, computedChecksum_withFb h, storedChecksum_withFb h hlen]
    refine resultsAgree_bind rfl fun _ hshort => resultsAgree_bind rfl fun _ _ => resultsAgree_bind rfl fun _ _ => ?_
    rw [payloadRegion_withFb h hlen (Nat.not_lt.mp (raiseIf_eq_ok.mp hshort)), fbBytes_withFb h (lo := 0) (by omega)]
    exact resultsAgree_bind rfl fun _ _ => .ok ⟨rfl, h⟩ rfl

end

theorem exec_agree {i : Instr} {s s' t : State} (h : AgreeBelowFlen s s') (hexec : exec i s = .next t) :
    ∃ t', exec i s' = .next t' ∧ AgreeBelowFlen t t' := by
  obtain ⟨mem, rfl, hreads⟩ := agreeBelowFlen_iff.mp h
  by_cases hi : i = .statusGet
  · subst hi
    obtain rfl : s.respond false 0 s.status.word = t := by simpa [exec_statusGet] using hexec
    exact ⟨_, rfl, rfl, hreads⟩
  · obtain ⟨r, r', hr, hr', hagree⟩ := exec_withFb hreads hi
    obtain rfl : s.finish (decide (i = .load)) r = t := by simpa [hr] using hexec
    exact ⟨_, hr', agree_finish h hagree _⟩

theorem execWord_agree {w : CommandWord} {s s' t : State} (h : AgreeBelowFlen s s') (hexec : execWord w s = .next t) :
    ∃ t', execWord w s' = .next t' ∧ AgreeBelowFlen t t' := by
  cases hw : decode w with
  | ok i =>
    rw [execWord_of_ok hw] at hexec ⊢
    exact exec_agree h hexec
  | error reject =>
    rw [execWord_of_error hw] at hexec ⊢
    cases hexec
    exact ⟨_, rfl, agree_raise h false .illegalCommand⟩

/-- Settles O16: the two states take the same word, and what they make of it agrees. -/
theorem bytesAboveFlenAreNeverObserved : Obligations.BytesAboveFlenAreNeverObserved := by
  unfold Obligations.BytesAboveFlenAreNeverObserved
  intro s s' t h hstep
  obtain ⟨mem, rfl, hreads⟩ := agreeBelowFlen_iff.mp h
  cases hcommands : s.commands with
  | nil =>
    obtain rfl : s = t := by simpa [step_of_commands_eq_nil hcommands] using hstep
    exact ⟨_, step_of_commands_eq_nil hcommands, h⟩
  | cons w rest =>
    rw [step_of_commands_eq_cons hcommands] at hstep
    rw [step_of_commands_eq_cons (s := s.withFb mem) hcommands]
    refine execWord_agree ?_ hstep
    exact ⟨rfl, hreads⟩

end Sys2Proof.Machine
end
